-- ==== Sys2Proof/Word.lean ====
section
/-! DEFINITION. The 32-bit container of the hardware, the names of a command's fields, and the filter types. -/

namespace Sys2Proof

/-- A container of 32 bits with no type tag (00_scope.md R7): an operand register, a memory word, a slot field,
a command word. Bit 0 is the least significant bit (R6). -/
abbrev Word := BitVec 32

/-- A container read as an IEEE 754 binary32 value (00_scope.md R7, 40_numerics.md R100): the same 32 bits. -/
abbrev F32 := Word

/-- The 4-bit register field of a command: the value `i` names `x[i]` (10_state.md R21, 30_encoding.md R85). -/
abbrev Reg := BitVec 4

/-- The 4-bit slot field `sl` of a command, an unsigned number 0 to 15 (30_encoding.md R85). -/
abbrev SlotNo := BitVec 4

/-- The filter types, in the order of their codes (30_encoding.md R88). -/
inductive FilterType where
  | lpf    -- 0, 2nd-order low-pass
  | notch  -- 1
  | bpf    -- 2, band-pass
  | lpf1   -- 3, 1st-order low-pass
  deriving DecidableEq, Repr

end Sys2Proof
end

