-- ==== Sys2Proof/Syntax.lean ====
section
/-! DEFINITION. The 31 commands of BFCORE-1, one constructor per row of spec/opcode_table.json (30_encoding.md R86). -/

namespace Sys2Proof

/-- A command with its operands. The arguments stand in the order of the assembler syntax (30_encoding.md R92):
slot, destination, sources, then what is left of the word. `un` and `fld` are the raw fields of format S (R83);
`WellFormed` says which pairs exist. -/
inductive Instr where
  | nop                                                        -- 0x01, R120
  | lih (rd : Reg) (imm16 : BitVec 16)                         -- 0x02, R121
  | lil (rd : Reg) (imm16 : BitVec 16)                         -- 0x03, R122
  | mov (rd ra : Reg)                                          -- 0x04, R123
  | rdm (rd ra : Reg)                                          -- 0x05, R124
  | wrm (ra rb : Reg)                                          -- 0x06, R125
  | rds (sl : SlotNo) (rd : Reg) (un : BitVec 4) (fld : BitVec 8)  -- 0x07, R126
  | wrs (sl : SlotNo) (ra : Reg) (un : BitVec 4) (fld : BitVec 8)  -- 0x08, R127
  | bqinitlpf (sl : SlotNo) (ra rb : Reg)                      -- 0x10, R142
  | bqinit (sl : SlotNo) (ra rb rc : Reg) (ty : FilterType)    -- 0x11, R143
  | bqupd (sl : SlotNo) (ra rb rc : Reg) (ty : FilterType)     -- 0x12, R144
  | bqdf1 (sl : SlotNo) (rd ra : Reg)                          -- 0x13, R146
  | bqapply (sl : SlotNo) (rd ra : Reg)                        -- 0x14, R147
  | notchq (rd ra rb : Reg)                                    -- 0x15, R148
  | bqrcfir2 (sl : SlotNo) (ra : Reg)                          -- 0x16, R145
  | casinit (sl : SlotNo) (rd ra rb rc : Reg)                  -- 0x20, R162
  | casapply (sl : SlotNo) (rd ra : Reg)                       -- 0x21, R163
  | pt1gain (rd ra rb : Reg)                                   -- 0x30, R171
  | pt1init (sl : SlotNo) (ra : Reg)                           -- 0x31, R172
  | pt1apply (sl : SlotNo) (rd ra : Reg)                       -- 0x32, R173
  | firinit (sl : SlotNo) (ra rb rc : Reg)                     -- 0x40, R182
  | firinit2 (sl : SlotNo) (ra rb rc re : Reg)                 -- 0x41, R183
  | firupd (sl : SlotNo) (ra : Reg)                            -- 0x42, R184
  | firupdavg (sl : SlotNo) (ra : Reg)                         -- 0x43, R185
  | firapply (sl : SlotNo) (rd : Reg)                          -- 0x44, R186
  | firpavg (sl : SlotNo) (rd ra : Reg)                        -- 0x45, R187
  | firmavg (sl : SlotNo) (rd : Reg)                           -- 0x46, R188
  | firupdapply (sl : SlotNo) (rd ra : Reg)                    -- 0x47, R189
  | firlast (sl : SlotNo) (rd : Reg)                           -- 0x48, R190
  | slewinit (sl : SlotNo) (ra rb : Reg)                       -- 0x50, R201
  | slewapply (sl : SlotNo) (rd ra : Reg)                      -- 0x51, R202
  deriving DecidableEq, Repr

end Sys2Proof
end

