-- ==== Sys2Proof/Machine/StateSpace.lean ====
section
/-! DEFINITION. The names of the state space and its address map (10_state.md R36, R37). The values stand in
Operands.lean; this file only says which (`un`, `fld`) pair names what. -/

namespace Sys2Proof.Machine

/-- The core registers, unit 0 (10_state.md R36). -/
inductive CoreReg where
  | coreid | status | cause | fseq | finst | finfo | seq | cfgSlots | cfgMem
  deriving DecidableEq, Repr

/-- The nine fields of a biquad section (10_state.md R31, R32). -/
inductive SecField where
  | b0 | b1 | b2 | a1 | a2 | x1 | x2 | y1 | y2
  deriving DecidableEq, Repr

/-- A named field of the state space (10_state.md R37). -/
inductive Field where
  | core (r : CoreReg)
  | bqValid
  | bqSec (f : SecField)
  | casValid
  | casSections
  | casSec (i : Fin 6) (f : SecField)
  | pt1Valid
  | pt1State
  | pt1K
  | firValid
  | firBufBase
  | firCoefBase
  | firMovingSum
  | firIndex
  | firCount
  | firBufLength
  | firCoeffsLength
  | slewValid
  | slewState
  | slewSlewLimit
  | slewThreshold
  deriving DecidableEq, Repr

/-- Unit 0: field numbers 0x00 to 0x08 (10_state.md R36). -/
def coreRegOf : Nat → Option CoreReg
  | 0 => some .coreid
  | 1 => some .status
  | 2 => some .cause
  | 3 => some .fseq
  | 4 => some .finst
  | 5 => some .finfo
  | 6 => some .seq
  | 7 => some .cfgSlots
  | 8 => some .cfgMem
  | _ => none

/-- The section field number `j` of 10_state.md R37: 1 `b0` to 9 `y2`. -/
def secFieldOf : Nat → Option SecField
  | 1 => some .b0
  | 2 => some .b1
  | 3 => some .b2
  | 4 => some .a1
  | 5 => some .a2
  | 6 => some .x1
  | 7 => some .x2
  | 8 => some .y1
  | 9 => some .y2
  | _ => none

/-- Unit 1. -/
def bqFieldOf (fld : Nat) : Option Field :=
  if fld = 0 then some .bqValid else (secFieldOf fld).map .bqSec

/-- Unit 2: `valid`, `sections`, and the fields numbered `0x10·(i+1) + j` for `i` = 0..5, `j` = 1..9. -/
def casFieldOf (fld : Nat) : Option Field :=
  if fld = 0 then some .casValid
  else if fld = 1 then some .casSections
  else if h : fld / 16 - 1 < 6 then
    if fld / 16 = 0 then none else (secFieldOf (fld % 16)).map (.casSec ⟨fld / 16 - 1, h⟩)
  else none

/-- Unit 3. -/
def pt1FieldOf : Nat → Option Field
  | 0 => some .pt1Valid
  | 1 => some .pt1State
  | 2 => some .pt1K
  | _ => none

/-- Unit 4. -/
def firFieldOf : Nat → Option Field
  | 0 => some .firValid
  | 1 => some .firBufBase
  | 2 => some .firCoefBase
  | 3 => some .firMovingSum
  | 4 => some .firIndex
  | 5 => some .firCount
  | 6 => some .firBufLength
  | 7 => some .firCoeffsLength
  | _ => none

/-- Unit 5. -/
def slewFieldOf : Nat → Option Field
  | 0 => some .slewValid
  | 1 => some .slewState
  | 2 => some .slewSlewLimit
  | 3 => some .slewThreshold
  | _ => none

/-- The table of 10_state.md R37: the field a (`un`, `fld`) pair names, none where the pair is not defined. -/
def fieldOf (un : BitVec 4) (fld : BitVec 8) : Option Field :=
  match un.toNat with
  | 0 => (coreRegOf fld.toNat).map .core
  | 1 => bqFieldOf fld.toNat
  | 2 => casFieldOf fld.toNat
  | 3 => pt1FieldOf fld.toNat
  | 4 => firFieldOf fld.toNat
  | 5 => slewFieldOf fld.toNat
  | _ => none

/-- The access column of 10_state.md R37: `PT1.state` is RW, every other field RO. -/
def fieldWritable (f : Field) : Bool := f == .pt1State

end Sys2Proof.Machine
end

