-- ==== Sys2Proof/WellFormed.lean ====
section
/-! DEFINITION. Which terms of `Instr` are commands. Every field of the other constructors has a type with exactly
the values its encoding admits, so the one check left is that of 30_encoding.md R87: the (`un`, `fld`) pair of
`RDS` and `WRS` is a defined pair of 10_state.md R37. -/

namespace Sys2Proof

/-- The check of 30_encoding.md R87 on a (`un`, `fld`) pair. -/
def fieldPairDefined (un : BitVec 4) (fld : BitVec 8) : Bool := (Machine.fieldOf un fld).isSome

/-- A term that is a command (30_encoding.md R84, R87, R89). -/
def WellFormed : Instr → Bool
  | .nop => true
  | .lih _ _ => true
  | .lil _ _ => true
  | .mov _ _ => true
  | .rdm _ _ => true
  | .wrm _ _ => true
  | .rds _ _ un fld => fieldPairDefined un fld
  | .wrs _ _ un fld => fieldPairDefined un fld
  | .bqinitlpf _ _ _ => true
  | .bqinit _ _ _ _ _ => true
  | .bqupd _ _ _ _ _ => true
  | .bqdf1 _ _ _ => true
  | .bqapply _ _ _ => true
  | .notchq _ _ _ => true
  | .bqrcfir2 _ _ => true
  | .casinit _ _ _ _ _ => true
  | .casapply _ _ _ => true
  | .pt1gain _ _ _ => true
  | .pt1init _ _ => true
  | .pt1apply _ _ _ => true
  | .firinit _ _ _ _ => true
  | .firinit2 _ _ _ _ _ => true
  | .firupd _ _ => true
  | .firupdavg _ _ => true
  | .firapply _ _ => true
  | .firpavg _ _ _ => true
  | .firmavg _ _ => true
  | .firupdapply _ _ _ => true
  | .firlast _ _ => true
  | .slewinit _ _ _ => true
  | .slewapply _ _ _ => true

end Sys2Proof
end

