-- ==== Sys2Proof/Decode.lean ====
section
/-! DEFINITION. Decoding and encoding of command words (30_encoding.md R80 to R90). Decoding is total: a 32-bit word
is one command or is rejected by name. It reads the word alone (R84). -/

namespace Sys2Proof

/-- The seven fields that formats R, I and S cut a word into (30_encoding.md R81 to R83). `imm16` of format I is
`ra ‖ rb ‖ rc ‖ re`; `un` of format S is `rb` and `fld` is `rc ‖ re`. -/
structure Fields where
  op : BitVec 8
  sl : BitVec 4
  rd : BitVec 4
  ra : BitVec 4
  rb : BitVec 4
  rc : BitVec 4
  re : BitVec 4
  deriving DecidableEq, Repr

/-- Bits 31:24, 23:20, 19:16, 15:12, 11:8, 7:4, 3:0 of a word (30_encoding.md R81). -/
def fieldsOf (w : Word) : Fields :=
  { op := w.extractLsb' 24 8, sl := w.extractLsb' 20 4, rd := w.extractLsb' 16 4, ra := w.extractLsb' 12 4
    rb := w.extractLsb' 8 4, rc := w.extractLsb' 4 4, re := w.extractLsb' 0 4 }

/-- The word with the given fields. -/
def wordOf (f : Fields) : Word := f.op ++ f.sl ++ f.rd ++ f.ra ++ f.rb ++ f.rc ++ f.re

/-- The rows of the opcode map (30_encoding.md R86), named by their mnemonics. -/
inductive Op where
  | nop | lih | lil | mov | rdm | wrm | rds | wrs
  | bqinitlpf | bqinit | bqupd | bqdf1 | bqapply | notchq | bqrcfir2
  | casinit | casapply
  | pt1gain | pt1init | pt1apply
  | firinit | firinit2 | firupd | firupdavg | firapply | firpavg | firmavg | firupdapply | firlast
  | slewinit | slewapply
  deriving DecidableEq, Repr

/-- The `op` column of 30_encoding.md R86. -/
def opByte : Op → BitVec 8
  | .nop => 0x01
  | .lih => 0x02
  | .lil => 0x03
  | .mov => 0x04
  | .rdm => 0x05
  | .wrm => 0x06
  | .rds => 0x07
  | .wrs => 0x08
  | .bqinitlpf => 0x10
  | .bqinit => 0x11
  | .bqupd => 0x12
  | .bqdf1 => 0x13
  | .bqapply => 0x14
  | .notchq => 0x15
  | .bqrcfir2 => 0x16
  | .casinit => 0x20
  | .casapply => 0x21
  | .pt1gain => 0x30
  | .pt1init => 0x31
  | .pt1apply => 0x32
  | .firinit => 0x40
  | .firinit2 => 0x41
  | .firupd => 0x42
  | .firupdavg => 0x43
  | .firapply => 0x44
  | .firpavg => 0x45
  | .firmavg => 0x46
  | .firupdapply => 0x47
  | .firlast => 0x48
  | .slewinit => 0x50
  | .slewapply => 0x51

/-- The row whose `op` is the given byte; none for the unassigned bytes (30_encoding.md R89 (a), R90). -/
def opOfByte (b : BitVec 8) : Option Op :=
  match b.toNat with
  | 0x01 => some .nop
  | 0x02 => some .lih
  | 0x03 => some .lil
  | 0x04 => some .mov
  | 0x05 => some .rdm
  | 0x06 => some .wrm
  | 0x07 => some .rds
  | 0x08 => some .wrs
  | 0x10 => some .bqinitlpf
  | 0x11 => some .bqinit
  | 0x12 => some .bqupd
  | 0x13 => some .bqdf1
  | 0x14 => some .bqapply
  | 0x15 => some .notchq
  | 0x16 => some .bqrcfir2
  | 0x20 => some .casinit
  | 0x21 => some .casapply
  | 0x30 => some .pt1gain
  | 0x31 => some .pt1init
  | 0x32 => some .pt1apply
  | 0x40 => some .firinit
  | 0x41 => some .firinit2
  | 0x42 => some .firupd
  | 0x43 => some .firupdavg
  | 0x44 => some .firapply
  | 0x45 => some .firpavg
  | 0x46 => some .firmavg
  | 0x47 => some .firupdapply
  | 0x48 => some .firlast
  | 0x50 => some .slewinit
  | 0x51 => some .slewapply
  | _ => none

/-- The codes of the `ty` field (30_encoding.md R88). -/
def typeCode : FilterType → BitVec 4
  | .lpf => 0
  | .notch => 1
  | .bpf => 2
  | .lpf1 => 3

/-- The type in `re`: bits 1:0 are `ty`, bits 3:2 must be zero (30_encoding.md R81, R88). -/
def typeOfCode (re : BitVec 4) : Option FilterType :=
  match re.toNat with
  | 0 => some .lpf
  | 1 => some .notch
  | 2 => some .bpf
  | 3 => some .lpf1
  | _ => none

/-- Why a word is no command: the three clauses of 30_encoding.md R89. The hardware reports all three as `Illegal`. -/
inductive DecodeError where
  | unassignedOp (op : BitVec 8)                       -- (a)
  | unusedFieldNonzero (op : Op)                       -- (b)
  | undefinedField (un : BitVec 4) (fld : BitVec 8)    -- (c)
  deriving DecidableEq, Repr

/-- The command, if every field the row does not use is zero (30_encoding.md R84). -/
def whenZero (op : Op) (unusedZero : Bool) (i : Instr) : Except DecodeError Instr :=
  if unusedZero then .ok i else .error (.unusedFieldNonzero op)

/-- The command with a filter type in `re` (30_encoding.md R81, R89 (b)). -/
def withType (op : Op) (re : BitVec 4) (k : FilterType → Except DecodeError Instr) : Except DecodeError Instr :=
  match typeOfCode re with
  | none => .error (.unusedFieldNonzero op)
  | some ty => k ty

/-- The command on a defined state-space pair (30_encoding.md R87, R89 (c)). -/
def whenField (un : BitVec 4) (fld : BitVec 8) (r : Except DecodeError Instr) : Except DecodeError Instr :=
  match r with
  | .error e => .error e
  | .ok i => if fieldPairDefined un fld then .ok i else .error (.undefinedField un fld)

/-- One row of 30_encoding.md R86: its unused fields must be zero, its used fields become the operands. -/
def decodeRow (op : Op) (f : Fields) : Except DecodeError Instr :=
  match op with
  | .nop => whenZero op (f.sl == 0 && f.rd == 0 && f.ra == 0 && f.rb == 0 && f.rc == 0 && f.re == 0) .nop
  | .lih => whenZero op (f.sl == 0) (.lih f.rd (f.ra ++ f.rb ++ f.rc ++ f.re))
  | .lil => whenZero op (f.sl == 0) (.lil f.rd (f.ra ++ f.rb ++ f.rc ++ f.re))
  | .mov => whenZero op (f.sl == 0 && f.rb == 0 && f.rc == 0 && f.re == 0) (.mov f.rd f.ra)
  | .rdm => whenZero op (f.sl == 0 && f.rb == 0 && f.rc == 0 && f.re == 0) (.rdm f.rd f.ra)
  | .wrm => whenZero op (f.sl == 0 && f.rd == 0 && f.rc == 0 && f.re == 0) (.wrm f.ra f.rb)
  | .rds => whenField f.rb (f.rc ++ f.re) (whenZero op (f.ra == 0) (.rds f.sl f.rd f.rb (f.rc ++ f.re)))
  | .wrs => whenField f.rb (f.rc ++ f.re) (whenZero op (f.rd == 0) (.wrs f.sl f.ra f.rb (f.rc ++ f.re)))
  | .bqinitlpf => whenZero op (f.rd == 0 && f.rc == 0 && f.re == 0) (.bqinitlpf f.sl f.ra f.rb)
  | .bqinit => withType op f.re fun ty => whenZero op (f.rd == 0) (.bqinit f.sl f.ra f.rb f.rc ty)
  | .bqupd => withType op f.re fun ty => whenZero op (f.rd == 0) (.bqupd f.sl f.ra f.rb f.rc ty)
  | .bqdf1 => whenZero op (f.rb == 0 && f.rc == 0 && f.re == 0) (.bqdf1 f.sl f.rd f.ra)
  | .bqapply => whenZero op (f.rb == 0 && f.rc == 0 && f.re == 0) (.bqapply f.sl f.rd f.ra)
  | .notchq => whenZero op (f.sl == 0 && f.rc == 0 && f.re == 0) (.notchq f.rd f.ra f.rb)
  | .bqrcfir2 => whenZero op (f.rd == 0 && f.rb == 0 && f.rc == 0 && f.re == 0) (.bqrcfir2 f.sl f.ra)
  | .casinit => whenZero op (f.re == 0) (.casinit f.sl f.rd f.ra f.rb f.rc)
  | .casapply => whenZero op (f.rb == 0 && f.rc == 0 && f.re == 0) (.casapply f.sl f.rd f.ra)
  | .pt1gain => whenZero op (f.sl == 0 && f.rc == 0 && f.re == 0) (.pt1gain f.rd f.ra f.rb)
  | .pt1init => whenZero op (f.rd == 0 && f.rb == 0 && f.rc == 0 && f.re == 0) (.pt1init f.sl f.ra)
  | .pt1apply => whenZero op (f.rb == 0 && f.rc == 0 && f.re == 0) (.pt1apply f.sl f.rd f.ra)
  | .firinit => whenZero op (f.rd == 0 && f.re == 0) (.firinit f.sl f.ra f.rb f.rc)
  | .firinit2 => whenZero op (f.rd == 0) (.firinit2 f.sl f.ra f.rb f.rc f.re)
  | .firupd => whenZero op (f.rd == 0 && f.rb == 0 && f.rc == 0 && f.re == 0) (.firupd f.sl f.ra)
  | .firupdavg => whenZero op (f.rd == 0 && f.rb == 0 && f.rc == 0 && f.re == 0) (.firupdavg f.sl f.ra)
  | .firapply => whenZero op (f.ra == 0 && f.rb == 0 && f.rc == 0 && f.re == 0) (.firapply f.sl f.rd)
  | .firpavg => whenZero op (f.rb == 0 && f.rc == 0 && f.re == 0) (.firpavg f.sl f.rd f.ra)
  | .firmavg => whenZero op (f.ra == 0 && f.rb == 0 && f.rc == 0 && f.re == 0) (.firmavg f.sl f.rd)
  | .firupdapply => whenZero op (f.rb == 0 && f.rc == 0 && f.re == 0) (.firupdapply f.sl f.rd f.ra)
  | .firlast => whenZero op (f.ra == 0 && f.rb == 0 && f.rc == 0 && f.re == 0) (.firlast f.sl f.rd)
  | .slewinit => whenZero op (f.rd == 0 && f.rc == 0 && f.re == 0) (.slewinit f.sl f.ra f.rb)
  | .slewapply => whenZero op (f.rb == 0 && f.rc == 0 && f.re == 0) (.slewapply f.sl f.rd f.ra)

/-- The decoder (30_encoding.md R84, R89). -/
def decode (w : Word) : Except DecodeError Instr :=
  match opOfByte (fieldsOf w).op with
  | none => .error (.unassignedOp (fieldsOf w).op)
  | some op => decodeRow op (fieldsOf w)

/-! ## Encoding -/

/-- The row of a command (30_encoding.md R86). -/
def opOf : Instr → Op
  | .nop => .nop
  | .lih _ _ => .lih
  | .lil _ _ => .lil
  | .mov _ _ => .mov
  | .rdm _ _ => .rdm
  | .wrm _ _ => .wrm
  | .rds _ _ _ _ => .rds
  | .wrs _ _ _ _ => .wrs
  | .bqinitlpf _ _ _ => .bqinitlpf
  | .bqinit _ _ _ _ _ => .bqinit
  | .bqupd _ _ _ _ _ => .bqupd
  | .bqdf1 _ _ _ => .bqdf1
  | .bqapply _ _ _ => .bqapply
  | .notchq _ _ _ => .notchq
  | .bqrcfir2 _ _ => .bqrcfir2
  | .casinit _ _ _ _ _ => .casinit
  | .casapply _ _ _ => .casapply
  | .pt1gain _ _ _ => .pt1gain
  | .pt1init _ _ => .pt1init
  | .pt1apply _ _ _ => .pt1apply
  | .firinit _ _ _ _ => .firinit
  | .firinit2 _ _ _ _ _ => .firinit2
  | .firupd _ _ => .firupd
  | .firupdavg _ _ => .firupdavg
  | .firapply _ _ => .firapply
  | .firpavg _ _ _ => .firpavg
  | .firmavg _ _ => .firmavg
  | .firupdapply _ _ _ => .firupdapply
  | .firlast _ _ => .firlast
  | .slewinit _ _ _ => .slewinit
  | .slewapply _ _ _ => .slewapply

/-- The six fields below `op`, at the positions of 30_encoding.md R81 to R83. -/
def operandFields (op : BitVec 8) (i : Instr) : Fields :=
  match i with
  | .nop => ⟨op, 0, 0, 0, 0, 0, 0⟩
  | .lih rd imm => ⟨op, 0, rd, imm.extractLsb' 12 4, imm.extractLsb' 8 4, imm.extractLsb' 4 4, imm.extractLsb' 0 4⟩
  | .lil rd imm => ⟨op, 0, rd, imm.extractLsb' 12 4, imm.extractLsb' 8 4, imm.extractLsb' 4 4, imm.extractLsb' 0 4⟩
  | .mov rd ra => ⟨op, 0, rd, ra, 0, 0, 0⟩
  | .rdm rd ra => ⟨op, 0, rd, ra, 0, 0, 0⟩
  | .wrm ra rb => ⟨op, 0, 0, ra, rb, 0, 0⟩
  | .rds sl rd un fld => ⟨op, sl, rd, 0, un, fld.extractLsb' 4 4, fld.extractLsb' 0 4⟩
  | .wrs sl ra un fld => ⟨op, sl, 0, ra, un, fld.extractLsb' 4 4, fld.extractLsb' 0 4⟩
  | .bqinitlpf sl ra rb => ⟨op, sl, 0, ra, rb, 0, 0⟩
  | .bqinit sl ra rb rc ty => ⟨op, sl, 0, ra, rb, rc, typeCode ty⟩
  | .bqupd sl ra rb rc ty => ⟨op, sl, 0, ra, rb, rc, typeCode ty⟩
  | .bqdf1 sl rd ra => ⟨op, sl, rd, ra, 0, 0, 0⟩
  | .bqapply sl rd ra => ⟨op, sl, rd, ra, 0, 0, 0⟩
  | .notchq rd ra rb => ⟨op, 0, rd, ra, rb, 0, 0⟩
  | .bqrcfir2 sl ra => ⟨op, sl, 0, ra, 0, 0, 0⟩
  | .casinit sl rd ra rb rc => ⟨op, sl, rd, ra, rb, rc, 0⟩
  | .casapply sl rd ra => ⟨op, sl, rd, ra, 0, 0, 0⟩
  | .pt1gain rd ra rb => ⟨op, 0, rd, ra, rb, 0, 0⟩
  | .pt1init sl ra => ⟨op, sl, 0, ra, 0, 0, 0⟩
  | .pt1apply sl rd ra => ⟨op, sl, rd, ra, 0, 0, 0⟩
  | .firinit sl ra rb rc => ⟨op, sl, 0, ra, rb, rc, 0⟩
  | .firinit2 sl ra rb rc re => ⟨op, sl, 0, ra, rb, rc, re⟩
  | .firupd sl ra => ⟨op, sl, 0, ra, 0, 0, 0⟩
  | .firupdavg sl ra => ⟨op, sl, 0, ra, 0, 0, 0⟩
  | .firapply sl rd => ⟨op, sl, rd, 0, 0, 0, 0⟩
  | .firpavg sl rd ra => ⟨op, sl, rd, ra, 0, 0, 0⟩
  | .firmavg sl rd => ⟨op, sl, rd, 0, 0, 0, 0⟩
  | .firupdapply sl rd ra => ⟨op, sl, rd, ra, 0, 0, 0⟩
  | .firlast sl rd => ⟨op, sl, rd, 0, 0, 0, 0⟩
  | .slewinit sl ra rb => ⟨op, sl, 0, ra, rb, 0, 0⟩
  | .slewapply sl rd ra => ⟨op, sl, rd, ra, 0, 0, 0⟩

/-- The one word of a command (30_encoding.md R80 to R86). -/
def encode (i : Instr) : Word := wordOf (operandFields (opByte (opOf i)) i)

/-- The `mask` column of 30_encoding.md R87. -/
def opMask : Op → Word
  | .nop => 0xFFFFFFFF
  | .lih => 0xFFF00000
  | .lil => 0xFFF00000
  | .mov => 0xFFF00FFF
  | .rdm => 0xFFF00FFF
  | .wrm => 0xFFFF00FF
  | .rds => 0xFF00F000
  | .wrs => 0xFF0F0000
  | .bqinitlpf => 0xFF0F00FF
  | .bqinit => 0xFF0F000C
  | .bqupd => 0xFF0F000C
  | .bqdf1 => 0xFF000FFF
  | .bqapply => 0xFF000FFF
  | .notchq => 0xFFF000FF
  | .bqrcfir2 => 0xFF0F0FFF
  | .casinit => 0xFF00000F
  | .casapply => 0xFF000FFF
  | .pt1gain => 0xFFF000FF
  | .pt1init => 0xFF0F0FFF
  | .pt1apply => 0xFF000FFF
  | .firinit => 0xFF0F000F
  | .firinit2 => 0xFF0F0000
  | .firupd => 0xFF0F0FFF
  | .firupdavg => 0xFF0F0FFF
  | .firapply => 0xFF00FFFF
  | .firpavg => 0xFF000FFF
  | .firmavg => 0xFF00FFFF
  | .firupdapply => 0xFF000FFF
  | .firlast => 0xFF00FFFF
  | .slewinit => 0xFF0F00FF
  | .slewapply => 0xFF000FFF

/-- The `match` column of 30_encoding.md R87. -/
def opMatch : Op → Word
  | .nop => 0x01000000
  | .lih => 0x02000000
  | .lil => 0x03000000
  | .mov => 0x04000000
  | .rdm => 0x05000000
  | .wrm => 0x06000000
  | .rds => 0x07000000
  | .wrs => 0x08000000
  | .bqinitlpf => 0x10000000
  | .bqinit => 0x11000000
  | .bqupd => 0x12000000
  | .bqdf1 => 0x13000000
  | .bqapply => 0x14000000
  | .notchq => 0x15000000
  | .bqrcfir2 => 0x16000000
  | .casinit => 0x20000000
  | .casapply => 0x21000000
  | .pt1gain => 0x30000000
  | .pt1init => 0x31000000
  | .pt1apply => 0x32000000
  | .firinit => 0x40000000
  | .firinit2 => 0x41000000
  | .firupd => 0x42000000
  | .firupdavg => 0x43000000
  | .firapply => 0x44000000
  | .firpavg => 0x45000000
  | .firmavg => 0x46000000
  | .firupdapply => 0x47000000
  | .firlast => 0x48000000
  | .slewinit => 0x50000000
  | .slewapply => 0x51000000

/-- The host's reading of a row of spec/opcode_table.json: a command is one 32-bit word (30_encoding.md R80), bits
above `nbits` are zero. -/
def decodeTableWord (nbits w : Nat) : Option Instr := (decode (BitVec.ofNat 32 (w % 2 ^ nbits))).toOption

end Sys2Proof
end

