-- ==== Sys2Proof/Config.lean ====
section
/-! DEFINITION. What an implementation fixes (00_scope.md R5) and the free values the spec leaves open.

The numbers of R5 are plain data: `Config` says what a machine is built with, `State.resetWith` builds it, and a
statement over all states is a statement over all configurations. The three open functions are constants with no
body, so no proof can see what they are. -/

namespace Sys2Proof

/-- The numeric parameters of 00_scope.md R5. -/
structure Config where
  nBq       : Nat   -- N_BQ
  nCas      : Nat   -- N_CAS
  nPt1      : Nat   -- N_PT1
  nFir      : Nat   -- N_FIR
  nSlew     : Nat   -- N_SLEW
  memWords  : Nat   -- MEM_WORDS
  cmdqDepth : Nat   -- CMDQ_DEPTH
  deriving DecidableEq, Repr

/-- The bounds of 00_scope.md R5: slot counts 1..16, `MEM_WORDS` 1..2^24, `CMDQ_DEPTH` at least 1. -/
abbrev Config.Legal (c : Config) : Prop :=
  (1 ≤ c.nBq ∧ c.nBq ≤ 16) ∧ (1 ≤ c.nCas ∧ c.nCas ≤ 16) ∧ (1 ≤ c.nPt1 ∧ c.nPt1 ≤ 16) ∧
  (1 ≤ c.nFir ∧ c.nFir ≤ 16) ∧ (1 ≤ c.nSlew ∧ c.nSlew ≤ 16) ∧
  (1 ≤ c.memWords ∧ c.memWords ≤ 2 ^ 24) ∧ 1 ≤ c.cmdqDepth

/-- The reference configuration of 00_scope.md R5. `CMDQ_DEPTH` has no reference value there:
DESIGN CHOICE 1, safe, since no rule depends on it (log entry 6). -/
def Config.reference : Config :=
  { nBq := 16, nCas := 16, nPt1 := 16, nFir := 16, nSlew := 16, memWords := 1024, cmdqDepth := 1 }

/-- `MEM_INIT` (20_memory.md R63): what a word of data memory that no command has written reads as. Unknown but
stable; a free value (log entry 7). -/
opaque Config.memInit : Nat → Word

/-- An arbitrary function of the 32 operand bits, from which `Machine.sinf` is made (40_numerics.md R109; log entry 9). -/
opaque Config.sinRaw : F32 → F32

/-- An arbitrary function of the 32 operand bits, from which `Machine.cosf` is made (40_numerics.md R109; log entry 9). -/
opaque Config.cosRaw : F32 → F32

end Sys2Proof
end

