-- ==== Sys2Proof/Machine/Numerics.lean ====
section
/-! DEFINITION. Binary32 arithmetic (40_numerics.md R100 to R110). Every finite binary32 value is a whole multiple of
2^-149, so a finite value is held as an integer in that unit, each operation is computed exactly on integers, and one
function rounds the exact result (R101; log entry 13). -/

namespace Sys2Proof.Machine

/-! ## Fields and classes (R100) -/

/-- Bit 31, the sign. -/
def f32Neg (a : F32) : Bool := a.getLsbD 31

/-- Bits 30:23, the biased exponent. -/
def f32Exp (a : F32) : Nat := (a.extractLsb' 23 8).toNat

/-- Bits 22:0, the fraction. -/
def f32Frac (a : F32) : Nat := (a.extractLsb' 0 23).toNat

/-- `e = 255, f ≠ 0`. -/
def f32IsNaN (a : F32) : Bool := f32Exp a == 255 && f32Frac a != 0

/-- `e = 255, f = 0`. -/
def f32IsInf (a : F32) : Bool := f32Exp a == 255 && f32Frac a == 0

/-- `e ≤ 254`: zero, subnormal or normal. -/
def f32IsFinite (a : F32) : Bool := f32Exp a != 255

/-- The magnitude of a finite value in units of 2^-149: `f` for `e = 0`, else `(2^23 + f)·2^(e-1)`. (Of an infinity the
same formula gives 2^277, above every finite magnitude.) -/
def f32Mag (a : F32) : Nat :=
  if f32Exp a = 0 then f32Frac a else (2 ^ 23 + f32Frac a) * 2 ^ (f32Exp a - 1)

/-- The value of a finite binary32 in units of 2^-149, with its sign. -/
def f32Val (a : F32) : Int := if f32Neg a then -(f32Mag a : Int) else (f32Mag a : Int)

/-! ## Constants (R108, R103) -/

/-- `+0.0`. -/
def fZERO : F32 := 0x00000000
/-- `0.5`. -/
def fHALF : F32 := 0x3F000000
/-- `1.0`. -/
def fONE : F32 := 0x3F800000
/-- `2.0`. -/
def fTWO : F32 := 0x40000000
/-- `-2.0`. -/
def fNEG_TWO : F32 := 0xC0000000
/-- Binary32 nearest 2π. -/
def fTWO_PI : F32 := 0x40C90FDB
/-- Binary32 nearest 1/√2. -/
def fINV_SQRT2 : F32 := 0x3F3504F3
/-- The canonical quiet NaN (R103). -/
def fNAN : F32 := 0x7FC00000
/-- The bits of `+inf` (R100). -/
def fINF : F32 := 0x7F800000

/-- The 31-bit pattern below the sign bit `neg`. -/
def withSign (neg : Bool) (bits : Nat) : F32 := (if neg then 0x80000000 else 0#32) ||| BitVec.ofNat 32 bits

/-- An infinity of the given sign. -/
def signedInf (neg : Bool) : F32 := withSign neg 0x7F800000

/-- A zero of the given sign. -/
def signedZero (neg : Bool) : F32 := withSign neg 0

/-! ## Rounding (R101) -/

/-- `p / q` to the nearest whole number, ties to the even one. -/
def divNearestEven (p q : Nat) : Nat :=
  if 2 * (p % q) < q then p / q
  else if q < 2 * (p % q) then p / q + 1
  else p / q + (p / q) % 2

/-- How many binary places the magnitude `p / q` (in units of 2^-149) has beyond 24: the last bit kept weighs 2^that
(0 below 2^24, where the unit is the spacing of subnormals and of the first normals: R104). -/
def roundShift (p q : Nat) : Nat := Nat.log2 (p / q) - 23

/-- The bits below the sign of the binary32 value nearest `p / q` units of 2^-149, ties to even, infinity on overflow
(R101). With `m` the rounded significand and `k` the shift, `k·2^23 + m` is the pattern, also for subnormals (`k = 0`)
and where rounding carries into the next binade. -/
def roundBits (p q : Nat) : Nat :=
  min (roundShift p q * 2 ^ 23 + divNearestEven p (q * 2 ^ roundShift p q)) 0x7F800000

/-- The binary32 value nearest ±`p / q` units of 2^-149 (R101). -/
def roundF32 (neg : Bool) (p q : Nat) : F32 := withSign neg (roundBits p q)

/-! ## The four operations (R101 to R104) -/

/-- `a` with bit 31 inverted (R105): a bit operation, defined on every pattern. -/
def fneg (a : F32) : F32 := a ^^^ 0x80000000

/-- `a` with bit 31 cleared (R105). -/
def fabs (a : F32) : F32 := a &&& 0x7FFFFFFF

/-- The exact sum `z` of two finite values, rounded; an exact zero is `+0.0` but for `(−0.0) + (−0.0)` (R102). -/
def faddFinite (a b : F32) : F32 :=
  let z := f32Val a + f32Val b
  if z = 0 then signedZero (f32Neg a && f32Neg b) else roundF32 (decide (z < 0)) z.natAbs 1

/-- `fadd` (R101, R102, R103). -/
def fadd (a b : F32) : F32 :=
  if f32IsNaN a || f32IsNaN b then fNAN
  else if f32IsInf a then
    if f32IsInf b && f32Neg a != f32Neg b then fNAN else a
  else if f32IsInf b then b
  else faddFinite a b

/-- `fsub(a, b)` is `fadd(a, fneg(b))` (R101). -/
def fsub (a b : F32) : F32 := fadd a (fneg b)

/-- `fmul` (R101, R102, R103). -/
def fmul (a b : F32) : F32 :=
  let sign := f32Neg a != f32Neg b
  if f32IsNaN a || f32IsNaN b then fNAN
  else if f32IsInf a || f32IsInf b then
    if f32Mag a = 0 || f32Mag b = 0 then fNAN else signedInf sign
  else roundF32 sign (f32Mag a * f32Mag b) (2 ^ 149)

/-- `fdiv` (R101, R102, R103). -/
def fdiv (a b : F32) : F32 :=
  let sign := f32Neg a != f32Neg b
  if f32IsNaN a || f32IsNaN b then fNAN
  else if f32IsInf a then
    if f32IsInf b then fNAN else signedInf sign
  else if f32IsInf b then signedZero sign
  else if f32Mag b = 0 then
    if f32Mag a = 0 then fNAN else signedInf sign
  else roundF32 sign (f32Mag a * 2 ^ 149) (f32Mag b)

/-! ## Conversion, sine and cosine (R110, R109) -/

/-- `u2f` (R110): the exact integer rounded as in R101. -/
def u2f (n : Word) : F32 := roundF32 false (n.toNat * 2 ^ 149) 1

/-- Cuts an arbitrary function down to the properties of 40_numerics.md R109: (b) a NaN or infinite operand gives the
canonical NaN; (d) at `+0.0` the value is `atZero`; (c) otherwise a non-NaN result of magnitude at most 1.0, for which
any offered value that breaks (c) is replaced by `+0.0`. Every function that meets (a) to (d) is such a cut of itself,
so the model assumes those properties and nothing more (log entry 9). -/
def trigOf (raw : F32 → F32) (atZero : F32) (a : F32) : F32 :=
  if !f32IsFinite a then fNAN
  else if a = fZERO then atZero
  else if f32IsFinite (raw a) && decide (f32Mag (raw a) ≤ f32Mag fONE) then raw a
  else fZERO

/-- `SINF` (R109): a free value within its properties. -/
def sinf (a : F32) : F32 := trigOf Config.sinRaw fZERO a

/-- `COSF` (R109): a free value within its properties. -/
def cosf (a : F32) : F32 := trigOf Config.cosRaw fONE a

end Sys2Proof.Machine
end

