-- ==== Sys2Proof/Machine/State.lean ====
section
/-! DEFINITION. The architectural state (10_state.md R20), the reasons a step can stop, and the state after reset. -/

namespace Sys2Proof.Machine

/-- The nine f32 fields of a biquad section (10_state.md R31, R32). -/
structure Section where
  b0 : F32
  b1 : F32
  b2 : F32
  a1 : F32
  a2 : F32
  x1 : F32
  x2 : F32
  y1 : F32
  y2 : F32
  deriving DecidableEq, Repr

/-- A biquad slot `BQ[s]` (10_state.md R31). -/
structure BqSlot where
  valid : Bool
  sec   : Section
  deriving DecidableEq, Repr

/-- A cascade slot `CAS[s]` (10_state.md R32); it owns its six sections. -/
structure CasSlot where
  valid    : Bool
  sections : Word
  sec      : Vector Section 6
  deriving DecidableEq, Repr

/-- A PT1 slot `PT1[s]` (10_state.md R33). -/
structure Pt1Slot where
  valid : Bool
  state : F32
  k     : F32
  deriving DecidableEq, Repr

/-- A FIR slot `FIR[s]` (10_state.md R34). It holds the two addresses; the samples and coefficients are in data memory. -/
structure FirSlot where
  valid        : Bool
  bufBase      : Word
  coefBase     : Word
  movingSum    : F32
  index        : Word
  count        : Word
  bufLength    : Word
  coeffsLength : Word
  deriving DecidableEq, Repr

/-- A slew slot `SLEW[s]` (10_state.md R35). -/
structure SlewSlot where
  valid     : Bool
  state     : F32
  slewLimit : F32
  threshold : F32
  deriving DecidableEq, Repr

/-- Data memory as the words written since power-up: word address and word, addresses strictly rising
(`Memory.wf`, Machine/Memory.lean). The smallest addressable unit is the word (20_memory.md R62), so a cell is a word
(log entry 8); an address not listed holds no written value (log entry 7). -/
abbrev Memory := List (Nat × Word)

/-- The machine. The lengths of the five slot lists are `N_BQ`, `N_CAS`, `N_PT1`, `N_FIR`, `N_SLEW`, and `memWords`,
`cmdqDepth` are `MEM_WORDS`, `CMDQ_DEPTH` (00_scope.md R5): fixed for the machine, held as data (log entry 5). -/
structure State where
  regs      : Vector Word 16   -- x0 .. x15 (R21)
  seq       : Word             -- SEQ (R26)
  status    : Word             -- STATUS (R36)
  cause     : Word             -- CAUSE (R36)
  fseq      : Word             -- FSEQ (R36)
  finst     : Word             -- FINST (R36)
  finfo     : Word             -- FINFO (R36)
  bq        : List BqSlot      -- BQ[0 .. N_BQ-1] (R30)
  cas       : List CasSlot     -- CAS[0 .. N_CAS-1] (R30)
  pt1       : List Pt1Slot     -- PT1[0 .. N_PT1-1] (R30)
  fir       : List FirSlot     -- FIR[0 .. N_FIR-1] (R30)
  slew      : List SlewSlot    -- SLEW[0 .. N_SLEW-1] (R30)
  mem       : Memory           -- data memory (R60)
  cmdq      : List Word        -- words of the command stream not yet taken, oldest first (R25, R50)
  memWords  : Nat              -- MEM_WORDS (R5)
  cmdqDepth : Nat              -- CMDQ_DEPTH (R5)
  deriving DecidableEq, Repr

/-- Why a step has no next state. -/
inductive Fault where
  /-- Raised by `step` alone (`stepOutcome`, Ops.lean): at the step that takes the fault, and again by every step from a
  faulted state, which takes no word (60_exceptions.md R214, 10_state.md R28). It carries the faulted state: that of
  60_exceptions.md R213, in which the host reads `CAUSE`, `FSEQ`, `FINST`, `FINFO` and from which it resets (R215). Safe: the
  machine stops here too (log entry 1). -/
  | faulted (t : State)
  deriving DecidableEq, Repr

/-- Why an instruction has no meaning. No meaning of this model answers with one. -/
inductive Refusal where
  /-- Raised by an arm of `exec` whose instruction has no meaning yet; there is none. Safe. -/
  | notModelled (mnemonic : String)
  deriving DecidableEq, Repr

/-- An all-zero section (10_state.md R40). -/
def Section.zero : Section :=
  { b0 := 0, b1 := 0, b2 := 0, a1 := 0, a2 := 0, x1 := 0, x2 := 0, y1 := 0, y2 := 0 }

/-- The reset values of the slots (10_state.md R40, 70_reset_and_hazards.md R241). -/
def BqSlot.zero : BqSlot := { valid := false, sec := Section.zero }
@[inherit_doc BqSlot.zero]
def CasSlot.zero : CasSlot := { valid := false, sections := 0, sec := Vector.replicate 6 Section.zero }
@[inherit_doc BqSlot.zero]
def Pt1Slot.zero : Pt1Slot := { valid := false, state := 0, k := 0 }
@[inherit_doc BqSlot.zero]
def FirSlot.zero : FirSlot :=
  { valid := false, bufBase := 0, coefBase := 0, movingSum := 0, index := 0, count := 0, bufLength := 0,
    coeffsLength := 0 }
@[inherit_doc BqSlot.zero]
def SlewSlot.zero : SlewSlot := { valid := false, state := 0, slewLimit := 0, threshold := 0 }

/-- The state after the first reset of a machine built with the parameters `c` (10_state.md R40, R24, R26;
70_reset_and_hazards.md R241): everything zero, no word of memory written, the command queue empty. -/
def State.resetWith (c : Config) : State :=
  { regs := Vector.replicate 16 0
    seq := 0
    status := 0
    cause := 0
    fseq := 0
    finst := 0
    finfo := 0
    bq := List.replicate c.nBq BqSlot.zero
    cas := List.replicate c.nCas CasSlot.zero
    pt1 := List.replicate c.nPt1 Pt1Slot.zero
    fir := List.replicate c.nFir FirSlot.zero
    slew := List.replicate c.nSlew SlewSlot.zero
    mem := []
    cmdq := []
    memWords := c.memWords
    cmdqDepth := c.cmdqDepth }

/-- The state after reset in the reference configuration (00_scope.md R5; log entry 5). -/
def State.reset : State := State.resetWith Config.reference

end Sys2Proof.Machine
end

