-- ==== Sys2Proof/Machine/Flags.lean ====
section
/-! DEFINITION. There are no condition codes and no floating-point flags (10_state.md R29, 40_numerics.md R107). What
is left: the truth values of the three comparisons (R106) and the one status bit, `STATUS.FAULT` (R36). -/

namespace Sys2Proof.Machine

/-- The order of the values of two non-NaN operands: magnitudes in one unit, −0.0 equal to +0.0, the infinities beyond
every finite value (R106). -/
def f32Lt (a b : F32) : Bool := decide (f32Val a < f32Val b)

/-- `fgt` (R106): false on NaN. -/
def fgt (a b : F32) : Bool := !f32IsNaN a && !f32IsNaN b && f32Lt b a

/-- `flt` (R106): false on NaN. -/
def flt (a b : F32) : Bool := !f32IsNaN a && !f32IsNaN b && f32Lt a b

/-- `fle` (R106): false on NaN. -/
def fle (a b : F32) : Bool := !f32IsNaN a && !f32IsNaN b && !f32Lt b a

/-- `STATUS.FAULT`, bit 0 of `STATUS` (10_state.md R36). -/
def faultBit (status : Word) : Bool := status.getLsbD 0

/-- `STATUS` with `FAULT` set (60_exceptions.md R213). -/
def setFaultBit (status : Word) : Word := status ||| 1

end Sys2Proof.Machine
end

