-- ==== Sys2Proof/Machine/Memory.lean ====
section
/-! DEFINITION. Data memory (20_memory.md): its canonical form, one word read, one word written, a range zeroed. -/

namespace Sys2Proof.Machine

/-- The canonical form: word addresses strictly rising. An address that is not listed holds no written value, so no
entry equals what an unlisted address holds, and memories with the same written words are the same list (log entry 7). -/
def Memory.wf : Memory → Bool
  | [] => true
  | [_] => true
  | (a, _) :: (b, w) :: rest => decide (a < b) && Memory.wf ((b, w) :: rest)

/-- Every written word lies inside data memory (20_memory.md R60). -/
def Memory.inRange (memWords : Nat) (m : Memory) : Bool := m.all fun c => decide (c.1 < memWords)

/-- The word last written at `a`, none if no command has written it since power-up (20_memory.md R64). -/
def Memory.written : Memory → Nat → Option Word
  | [], _ => none
  | (b, w) :: rest, a => if a = b then some w else Memory.written rest a

/-- `MemRead(a, 1)` (20_memory.md R63, R64): the word last written at `a`, or `MEM_INIT(a)`. -/
def Memory.read (m : Memory) (a : Nat) : Word := (Memory.written m a).getD (Config.memInit a)

/-- `MemWrite(a, 1, v)` (20_memory.md R64): all 32 bits of word `a` are replaced; the list stays in its canonical form. -/
def Memory.write : Memory → Nat → Word → Memory
  | [], a, v => [(a, v)]
  | (b, w) :: rest, a, v =>
    if a < b then (a, v) :: (b, w) :: rest
    else if a = b then (a, v) :: rest
    else (b, w) :: Memory.write rest a v

/-- The zeroing loop of 45_fir.md R181: words `base` to `base + n - 1`, in ascending order, become `+0.0`. -/
def Memory.zero (m : Memory) (base : Nat) : Nat → Memory
  | 0 => m
  | n + 1 => Memory.write (Memory.zero m base n) (base + n) 0

end Sys2Proof.Machine
end

