-- ==== Sys2Proof/Machine/Operands.lean ====
section
/-! DEFINITION. How the fields of a command become operands (30_encoding.md R85): registers, immediates, slots, and the
values of the state space (10_state.md R36, R37). -/

namespace Sys2Proof.Machine

/-! ## Operand registers (10_state.md R21) -/

/-- `x[r]`. Every value of a register field names a register; none is hardwired. -/
def readReg (s : State) (r : Reg) : Word := s.regs[r.toNat]'r.isLt

/-- `x[r] <- v`. -/
def writeReg (r : Reg) (v : Word) (s : State) : State := { s with regs := s.regs.set r.toNat v r.isLt }

/-! ## Immediates -/

/-- `imm16 ‖ 0x0000` (41_base.md R121). -/
def immHigh (imm16 : BitVec 16) : Word := imm16 ++ 0#16

/-- `v[31:16] ‖ imm16` (41_base.md R122). -/
def immLow (v : Word) (imm16 : BitVec 16) : Word := v.extractLsb' 16 16 ++ imm16

/-- A slot number, zero-extended (60_exceptions.md R211). -/
def slotInfo (sl : SlotNo) : Word := sl.setWidth 32

/-- `un·256 + fld` (60_exceptions.md R211). -/
def fieldInfo (un : BitVec 4) (fld : BitVec 8) : Word := BitVec.ofNat 32 (un.toNat * 256 + fld.toNat)

/-! ## The state space (10_state.md R36, R37) -/

/-- `COREID` (10_state.md R36, 00_scope.md R2). -/
def coreId : Word := 0x42464331

/-- The parameters the machine was built with (00_scope.md R5): the slot counts are the lengths of the slot arrays. -/
def configOf (s : State) : Config :=
  { nBq := s.bq.length, nCas := s.cas.length, nPt1 := s.pt1.length, nFir := s.fir.length, nSlew := s.slew.length,
    memWords := s.memWords, cmdqDepth := s.cmdqDepth }

/-- `CFG_SLOTS`: five 5-bit slot counts, `N_BQ` lowest, bits 31:25 zero (10_state.md R36). -/
def cfgSlots (s : State) : Word :=
  0#7 ++ BitVec.ofNat 5 s.slew.length ++ BitVec.ofNat 5 s.fir.length ++ BitVec.ofNat 5 s.pt1.length ++
    BitVec.ofNat 5 s.cas.length ++ BitVec.ofNat 5 s.bq.length

/-- `CFG_MEM` (10_state.md R36). -/
def cfgMem (s : State) : Word := BitVec.ofNat 32 s.memWords

/-- The core registers (10_state.md R36). -/
def readCore (s : State) : CoreReg → Word
  | .coreid => coreId
  | .status => s.status
  | .cause => s.cause
  | .fseq => s.fseq
  | .finst => s.finst
  | .finfo => s.finfo
  | .seq => s.seq
  | .cfgSlots => cfgSlots s
  | .cfgMem => cfgMem s

/-- The 32 bits of a section field. -/
def readSec (c : Section) : SecField → Word
  | .b0 => c.b0
  | .b1 => c.b1
  | .b2 => c.b2
  | .a1 => c.a1
  | .a2 => c.a2
  | .x1 => c.x1
  | .x2 => c.x2
  | .y1 => c.y1
  | .y2 => c.y2

/-- A `valid` bit, zero-extended (10_state.md R37). -/
def validWord (v : Bool) : Word := if v then 1 else 0

/-- The slot count of the unit a field belongs to; 1 for unit 0 (10_state.md R37, 41_base.md R126). -/
def fieldSlots (s : State) : Field → Nat
  | .core _ => 1
  | .bqValid => s.bq.length
  | .bqSec _ => s.bq.length
  | .casValid => s.cas.length
  | .casSections => s.cas.length
  | .casSec _ _ => s.cas.length
  | .pt1Valid => s.pt1.length
  | .pt1State => s.pt1.length
  | .pt1K => s.pt1.length
  | .firValid => s.fir.length
  | .firBufBase => s.fir.length
  | .firCoefBase => s.fir.length
  | .firMovingSum => s.fir.length
  | .firIndex => s.fir.length
  | .firCount => s.fir.length
  | .firBufLength => s.fir.length
  | .firCoeffsLength => s.fir.length
  | .slewValid => s.slew.length
  | .slewState => s.slew.length
  | .slewSlewLimit => s.slew.length
  | .slewThreshold => s.slew.length

/-- `State(un, sl, fld)` (41_base.md R126): the field's value, none where the unit has no slot `n`. It does not look
at `valid`. -/
def readField (s : State) (f : Field) (n : Nat) : Option Word :=
  match f with
  | .core r => if n = 0 then some (readCore s r) else none
  | .bqValid => s.bq[n]?.map fun c => validWord c.valid
  | .bqSec g => s.bq[n]?.map fun c => readSec c.sec g
  | .casValid => s.cas[n]?.map fun c => validWord c.valid
  | .casSections => s.cas[n]?.map fun c => c.sections
  | .casSec i g => s.cas[n]?.map fun c => readSec c.sec[i] g
  | .pt1Valid => s.pt1[n]?.map fun c => validWord c.valid
  | .pt1State => s.pt1[n]?.map fun c => c.state
  | .pt1K => s.pt1[n]?.map fun c => c.k
  | .firValid => s.fir[n]?.map fun c => validWord c.valid
  | .firBufBase => s.fir[n]?.map fun c => c.bufBase
  | .firCoefBase => s.fir[n]?.map fun c => c.coefBase
  | .firMovingSum => s.fir[n]?.map fun c => c.movingSum
  | .firIndex => s.fir[n]?.map fun c => c.index
  | .firCount => s.fir[n]?.map fun c => c.count
  | .firBufLength => s.fir[n]?.map fun c => c.bufLength
  | .firCoeffsLength => s.fir[n]?.map fun c => c.coeffsLength
  | .slewValid => s.slew[n]?.map fun c => validWord c.valid
  | .slewState => s.slew[n]?.map fun c => c.state
  | .slewSlewLimit => s.slew[n]?.map fun c => c.slewLimit
  | .slewThreshold => s.slew[n]?.map fun c => c.threshold

end Sys2Proof.Machine
end

