-- ==== Sys2Proof/Machine/Ops.lean ====
section
/-! DEFINITION. The operations every meaning is made of: completing a command, taking a fault, choosing a slot, reading
and writing state. -/

namespace Sys2Proof.Machine

/-- What a command answers. -/
abbrev Result := Host.Outcome State Fault Refusal

/-- The seven fault causes (60_exceptions.md R211). -/
inductive Cause where
  | illegal | slotRange | stateAccess | notInit | firConfig | memRange | firRange
  deriving DecidableEq, Repr

/-- The cause codes (60_exceptions.md R211). -/
def causeCode : Cause → Word
  | .illegal => 1
  | .slotRange => 2
  | .stateAccess => 3
  | .notInit => 4
  | .firConfig => 5
  | .memRange => 6
  | .firRange => 7

/-- Taking a fault (60_exceptions.md R213) in the command with word `w`, with `FINFO = info`: the five fault registers
are written, `SEQ` stays, nothing else of the architectural state changes. The words still queued are discarded
(R215; log entry 2). There is no return: only reset clears the fault (R215). -/
def takeFault (c : Cause) (w info : Word) (s : State) : State :=
  { s with status := setFaultBit s.status, cause := causeCode c, fseq := s.seq, finst := w, finfo := info, cmdq := [] }

/-- `raise c(info)` in the command `i` (00_scope.md R8). The faulting word is the one word of `i` (30_encoding.md R84;
log entry 11). -/
def raise (c : Cause) (i : Instr) (info : Word) (s : State) : Result := .next (takeFault c (encode i) info s)

/-- What a step answers where a command answers `r`: the fault taken is the fault outcome of the step, not a next state
(60_exceptions.md R214; log entry 1). -/
def stepOutcome (r : Result) : Result :=
  match r with
  | .next t => if faultBit t.status then .fault (.faulted t) else .next t
  | .fault f => .fault f
  | .refused x => .refused x

/-- `SEQ <- (SEQ + 1) mod 2^32` (10_state.md R25, R26). -/
def advance (s : State) : State := { s with seq := s.seq + 1 }

/-- A command that completes (10_state.md R25). -/
def complete (s : State) : Result := .next (advance s)

/-- The check `if sl >= N then raise SlotRange(sl)` (60_exceptions.md R212), then the rest with the slot. -/
def withSlot {α : Type} (slots : List α) (i : Instr) (sl : SlotNo) (s : State) (k : α → Result) : Result :=
  match slots[sl.toNat]? with
  | none => raise .slotRange i (slotInfo sl) s
  | some a => k a

/-- The check `if valid = 0 then raise NotInit(sl)` (60_exceptions.md R212), then the rest. -/
def needValid (valid : Bool) (i : Instr) (sl : SlotNo) (s : State) (k : Result) : Result :=
  if valid then k else raise .notInit i (slotInfo sl) s

/-- The check `if a >= MEM_WORDS then raise MemRange(a)` (41_base.md R124, R125), then the rest. -/
def needAddr (a : Word) (i : Instr) (s : State) (k : Result) : Result :=
  if a.toNat < s.memWords then k else raise .memRange i a s

/-- `MemRead(a, 1)` (20_memory.md R64). -/
def memRead (s : State) (a : Nat) : Word := Memory.read s.mem a

/-- `MemWrite(a, 1, v)` (20_memory.md R64). -/
def memWrite (a : Nat) (v : Word) (s : State) : State := { s with mem := Memory.write s.mem a v }

/-- Words `base` to `base + n - 1` become `+0.0` (45_fir.md R181). -/
def memZero (base n : Nat) (s : State) : State := { s with mem := Memory.zero s.mem base n }

/-- Slot `sl` of each unit, replaced (00_scope.md R8, `S.f <- v`). -/
def putBq (sl : SlotNo) (c : BqSlot) (s : State) : State := { s with bq := s.bq.set sl.toNat c }
@[inherit_doc putBq]
def putCas (sl : SlotNo) (c : CasSlot) (s : State) : State := { s with cas := s.cas.set sl.toNat c }
@[inherit_doc putBq]
def putPt1 (sl : SlotNo) (c : Pt1Slot) (s : State) : State := { s with pt1 := s.pt1.set sl.toNat c }
@[inherit_doc putBq]
def putFir (sl : SlotNo) (c : FirSlot) (s : State) : State := { s with fir := s.fir.set sl.toNat c }
@[inherit_doc putBq]
def putSlew (sl : SlotNo) (c : SlewSlot) (s : State) : State := { s with slew := s.slew.set sl.toNat c }

/-- The sequencer's next word and the state without it: the head of the command queue (10_state.md R25, R50). -/
def takeWord (s : State) : Option (Word × State) :=
  match s.cmdq with
  | [] => none
  | w :: rest => some (w, { s with cmdq := rest })

end Sys2Proof.Machine
end

