-- ==== Sys2Proof/Machine/Base.lean ====
section
/-! DEFINITION. The base commands (41_base.md R120 to R127). -/

namespace Sys2Proof.Machine

/-- `NOP` (41_base.md R120). -/
def execNop (s : State) : Result := complete s

/-- `LIH` (41_base.md R121). -/
def execLih (rd : Reg) (imm16 : BitVec 16) (s : State) : Result := complete (writeReg rd (immHigh imm16) s)

/-- `LIL` (41_base.md R122). -/
def execLil (rd : Reg) (imm16 : BitVec 16) (s : State) : Result :=
  complete (writeReg rd (immLow (readReg s rd) imm16) s)

/-- `MOV` (41_base.md R123). -/
def execMov (rd ra : Reg) (s : State) : Result := complete (writeReg rd (readReg s ra) s)

/-- `RDM` (41_base.md R124). -/
def execRdm (rd ra : Reg) (s : State) : Result :=
  needAddr (readReg s ra) (.rdm rd ra) s <|
    complete (writeReg rd (memRead s (readReg s ra).toNat) s)

/-- `WRM` (41_base.md R125). -/
def execWrm (ra rb : Reg) (s : State) : Result :=
  needAddr (readReg s ra) (.wrm ra rb) s <|
    complete (memWrite (readReg s ra).toNat (readReg s rb) s)

/-- `RDS` (41_base.md R126). The pair is checked by the decoder too (30_encoding.md R87). -/
def execRds (sl : SlotNo) (rd : Reg) (un : BitVec 4) (fld : BitVec 8) (s : State) : Result :=
  let i := Instr.rds sl rd un fld
  match fieldOf un fld with
  | none => raise .illegal i (encode i) s
  | some f =>
    match readField s f sl.toNat with
    | none => raise .slotRange i (slotInfo sl) s
    | some v => complete (writeReg rd v s)

/-- `PT1[sl].state <- v`, the one write of `WRS` (41_base.md R127). -/
def writePt1State (sl : SlotNo) (v : Word) (s : State) : State :=
  match s.pt1[sl.toNat]? with
  | none => s
  | some p => putPt1 sl { p with state := v } s

/-- `WRS` (41_base.md R127). -/
def execWrs (sl : SlotNo) (ra : Reg) (un : BitVec 4) (fld : BitVec 8) (s : State) : Result :=
  let i := Instr.wrs sl ra un fld
  match fieldOf un fld with
  | none => raise .illegal i (encode i) s
  | some f =>
    if fieldSlots s f ≤ sl.toNat then raise .slotRange i (slotInfo sl) s
    else if fieldWritable f then complete (writePt1State sl (readReg s ra) s)
    else raise .stateAccess i (fieldInfo un fld) s

end Sys2Proof.Machine
end

