-- ==== Sys2Proof/Machine/Biquad.lean ====
section
/-! DEFINITION. biquad_iir_engine (42_biquad.md R140 to R148). -/

namespace Sys2Proof.Machine

/-- The five coefficients, already divided by `a0` (42_biquad.md R141). -/
structure Coefs where
  b0 : F32
  b1 : F32
  b2 : F32
  a1 : F32
  a2 : F32
  deriving DecidableEq, Repr

/-- The last two lines of 42_biquad.md R141: every coefficient divided by `ra0`. -/
def normalize (rb0 rb1 rb2 ra0 ra1 ra2 : F32) : Coefs :=
  { b0 := fdiv rb0 ra0, b1 := fdiv rb1 ra0, b2 := fdiv rb2 ra0, a1 := fdiv ra1 ra0, a2 := fdiv ra2 ra0 }

/-- `alpha` of 42_biquad.md R141. -/
def bqAlpha (sn Q : F32) : F32 := fdiv sn (fmul fTWO Q)

/-- The rows of 42_biquad.md R141 on `sn`, `cs` and `Q`; `Q` is not read for `LPF1`. -/
def bqCoefOf (sn cs Q : F32) : FilterType → Coefs
  | .lpf1 =>
    let K := fdiv sn (fadd fONE cs)
    normalize K K fZERO (fadd K fONE) (fsub K fONE) fZERO
  | .lpf =>
    let alpha := bqAlpha sn Q
    let rb1 := fsub fONE cs
    let rb0 := fmul rb1 fHALF
    normalize rb0 rb1 rb0 (fadd fONE alpha) (fmul fNEG_TWO cs) (fsub fONE alpha)
  | .notch =>
    let alpha := bqAlpha sn Q
    normalize fONE (fmul fNEG_TWO cs) fONE (fadd fONE alpha) (fmul fNEG_TWO cs) (fsub fONE alpha)
  | .bpf =>
    let alpha := bqAlpha sn Q
    normalize alpha fZERO (fneg alpha) (fadd fONE alpha) (fmul fNEG_TWO cs) (fsub fONE alpha)

/-- `omega` of 42_biquad.md R141. -/
def bqOmega (freq rate : F32) : F32 := fdiv (fmul fTWO_PI freq) rate

/-- `BqCoef(freq, rate, Q, ty)` (42_biquad.md R141; log entry 10). -/
def bqCoef (freq rate Q : F32) (ty : FilterType) : Coefs :=
  bqCoefOf (sinf (bqOmega freq rate)) (cosf (bqOmega freq rate)) Q ty

/-- A section with new coefficients and its four state fields kept (42_biquad.md R144). -/
def retune (c : Coefs) (S : Section) : Section :=
  { S with b0 := c.b0, b1 := c.b1, b2 := c.b2, a1 := c.a1, a2 := c.a2 }

/-- A section with new coefficients and zero state (42_biquad.md R142, R143, R145; 43_cascade.md R162). -/
def freshSection (c : Coefs) : Section :=
  { b0 := c.b0, b1 := c.b1, b2 := c.b2, a1 := c.a1, a2 := c.a2, x1 := fZERO, x2 := fZERO, y1 := fZERO, y2 := fZERO }

/-- The coefficients of `BQRCFIR2` (42_biquad.md R145; log entry 10). -/
def rcfir2Coefs (k : F32) : Coefs :=
  { b0 := fmul k fHALF, b1 := fmul k fHALF, b2 := fZERO, a1 := fneg (fsub fONE k), a2 := fZERO }

/-- The direct-form-1 recurrence: the output and the section after it (42_biquad.md R146). -/
def df1 (S : Section) (x : F32) : F32 × Section :=
  let t := fmul S.b0 x
  let t := fadd t (fmul S.b1 S.x1)
  let t := fadd t (fmul S.b2 S.x2)
  let t := fsub t (fmul S.a1 S.y1)
  let t := fsub t (fmul S.a2 S.y2)
  (t, { S with x2 := S.x1, x1 := x, y2 := S.y1, y1 := t })

/-- The direct-form-2-transposed recurrence: the output and the section after it; the two state variables are in `x1`
and `x2` (42_biquad.md R147). -/
def df2t (S : Section) (x : F32) : F32 × Section :=
  let r := fadd (fmul S.b0 x) S.x1
  let n1 := fadd (fsub (fmul S.b1 x) (fmul S.a1 r)) S.x2
  let n2 := fsub (fmul S.b2 x) (fmul S.a2 r)
  (r, { S with x1 := n1, x2 := n2 })

/-- `NOTCHQ`'s formula (42_biquad.md R148), evaluated as written for all operands (log entry 12). -/
def notchQ (c f : F32) : F32 := fdiv (fmul c f) (fsub (fmul c c) (fmul f f))

/-- Slot `sl` initialised with the coefficients `c` (42_biquad.md R142, R143, R145). -/
def initBq (sl : SlotNo) (c : Coefs) (s : State) : State := putBq sl { valid := true, sec := freshSection c } s

/-- `BQINITLPF` (42_biquad.md R142). -/
def execBqinitlpf (sl : SlotNo) (ra rb : Reg) (s : State) : Result :=
  withSlot s.bq (.bqinitlpf sl ra rb) sl s fun _ =>
    complete (initBq sl (bqCoef (readReg s ra) (readReg s rb) fINV_SQRT2 .lpf) s)

/-- `BQINIT` (42_biquad.md R143). -/
def execBqinit (sl : SlotNo) (ra rb rc : Reg) (ty : FilterType) (s : State) : Result :=
  withSlot s.bq (.bqinit sl ra rb rc ty) sl s fun _ =>
    complete (initBq sl (bqCoef (readReg s ra) (readReg s rb) (readReg s rc) ty) s)

/-- `BQUPD` (42_biquad.md R144). -/
def execBqupd (sl : SlotNo) (ra rb rc : Reg) (ty : FilterType) (s : State) : Result :=
  withSlot s.bq (.bqupd sl ra rb rc ty) sl s fun b =>
    needValid b.valid (.bqupd sl ra rb rc ty) sl s <|
      complete (putBq sl { b with sec := retune (bqCoef (readReg s ra) (readReg s rb) (readReg s rc) ty) b.sec } s)

/-- `BQRCFIR2` (42_biquad.md R145). -/
def execBqrcfir2 (sl : SlotNo) (ra : Reg) (s : State) : Result :=
  withSlot s.bq (.bqrcfir2 sl ra) sl s fun _ =>
    complete (initBq sl (rcfir2Coefs (readReg s ra)) s)

/-- `BQDF1` (42_biquad.md R146). -/
def execBqdf1 (sl : SlotNo) (rd ra : Reg) (s : State) : Result :=
  withSlot s.bq (.bqdf1 sl rd ra) sl s fun b =>
    needValid b.valid (.bqdf1 sl rd ra) sl s <|
      complete (writeReg rd (df1 b.sec (readReg s ra)).1
        (putBq sl { b with sec := (df1 b.sec (readReg s ra)).2 } s))

/-- `BQAPPLY` (42_biquad.md R147). -/
def execBqapply (sl : SlotNo) (rd ra : Reg) (s : State) : Result :=
  withSlot s.bq (.bqapply sl rd ra) sl s fun b =>
    needValid b.valid (.bqapply sl rd ra) sl s <|
      complete (writeReg rd (df2t b.sec (readReg s ra)).1
        (putBq sl { b with sec := (df2t b.sec (readReg s ra)).2 } s))

/-- `NOTCHQ` (42_biquad.md R148). It names no slot. -/
def execNotchq (rd ra rb : Reg) (s : State) : Result :=
  complete (writeReg rd (notchQ (readReg s ra) (readReg s rb)) s)

end Sys2Proof.Machine
end

