-- ==== Sys2Proof/Machine/Cascade.lean ====
section
/-! DEFINITION. cascade_controller (43_cascade.md R160 to R163). -/

namespace Sys2Proof.Machine

/-- The rows of `QTAB` (43_cascade.md R161): the Q of sections 0, 1, ... for each order; no row for another order. -/
def qtab : Nat → List F32
  | 2 => [0x3F3504F3]
  | 4 => [0x3F0A8BD4, 0x3FA73D75]
  | 6 => [0x3F0483EE, 0x3F3504F3, 0x3FF746EA]
  | 8 => [0x3F0281F7, 0x3F19F1BD, 0x3F6664D7, 0x402406CF]
  | 10 => [0x3F019875, 0x3F0FA863, 0x3F3504F3, 0x3F8CF8DC, 0x404C8EFA]
  | 12 => [0x3F011AC1, 0x3F0A8BD4, 0x3F215729, 0x3F524353, 0x3FA73D75, 0x4075295A]
  | _ => []

/-- The condition of 43_cascade.md R162: `order = 0 or order[0] = 1 or order > 12`, `order` unsigned. -/
def orderInvalid (order : Word) : Bool := order == 0 || order.getLsbD 0 || decide (12 < order.toNat)

/-- The first sections replaced by fresh ones, one for each Q of the list; the others as they were (43_cascade.md R162). -/
def casSections (freq rate : F32) (qs : List F32) (old : Vector Section 6) : Vector Section 6 :=
  Vector.ofFn fun i : Fin 6 =>
    match qs[i.val]? with
    | some Q => freshSection (bqCoef freq rate Q .lpf)
    | none => old[i]

/-- The slot after `CASINIT` (43_cascade.md R162). -/
def casInitSlot (order : Word) (freq rate : F32) (c : CasSlot) : CasSlot :=
  if orderInvalid order then { c with valid := true, sections := 0 }
  else
    { valid := true
      sections := BitVec.ofNat 32 (order.toNat / 2)
      sec := casSections freq rate (qtab order.toNat) c.sec }

/-- The loop of 43_cascade.md R163: sections `i`, `i + 1`, ..., `n` of them, each fed the output before it. -/
def casLoop : (n i : Nat) → Vector Section 6 → F32 → F32 × Vector Section 6
  | 0, _, secs, v => (v, secs)
  | n + 1, i, secs, v =>
    if h : i < 6 then casLoop n (i + 1) (secs.set i (df2t secs[i] v).2) (df2t secs[i] v).1
    else (v, secs)

/-- The output and the slot after `CASAPPLY`; with zero sections the input comes back (43_cascade.md R163). -/
def casApply (c : CasSlot) (x : F32) : F32 × CasSlot :=
  ((casLoop c.sections.toNat 0 c.sec x).1, { c with sec := (casLoop c.sections.toNat 0 c.sec x).2 })

/-- `CASINIT` (43_cascade.md R162). -/
def execCasinit (sl : SlotNo) (rd ra rb rc : Reg) (s : State) : Result :=
  withSlot s.cas (.casinit sl rd ra rb rc) sl s fun c =>
    let c' := casInitSlot (readReg s ra) (readReg s rb) (readReg s rc) c
    complete (writeReg rd c'.sections (putCas sl c' s))

/-- `CASAPPLY` (43_cascade.md R163). -/
def execCasapply (sl : SlotNo) (rd ra : Reg) (s : State) : Result :=
  withSlot s.cas (.casapply sl rd ra) sl s fun c =>
    needValid c.valid (.casapply sl rd ra) sl s <|
      complete (writeReg rd (casApply c (readReg s ra)).1 (putCas sl (casApply c (readReg s ra)).2 s))

end Sys2Proof.Machine
end

