-- ==== Sys2Proof/Machine/Fir.lean ====
section
/-! DEFINITION. fir_convolver (45_fir.md R180 to R191). Addresses and lengths are unsigned numbers and never wrap
(40_numerics.md R111). -/

namespace Sys2Proof.Machine

/-- `prev(i)` (45_fir.md R180). -/
def firPrev (len i : Nat) : Nat := if 0 < i then i - 1 else len - 1

/-- `next(i)` (45_fir.md R180). -/
def firNext (len i : Nat) : Nat := if i + 1 < len then i + 1 else 0

/-- The address of `buf(i)` (45_fir.md R180). -/
def bufAddr (f : FirSlot) (i : Nat) : Nat := f.bufBase.toNat + i

/-- The address of `coef(i)` (45_fir.md R180). -/
def coefAddr (f : FirSlot) (i : Nat) : Nat := f.coefBase.toNat + i

/-- The fields after `FirInit` (45_fir.md R181). -/
def firInitSlot (bb bl cb cl : Word) : FirSlot :=
  { valid := true, bufBase := bb, coefBase := cb, movingSum := fZERO, index := 0, count := 0, bufLength := bl,
    coeffsLength := cl }

/-- `FirInit(F, bb, bl, cb, cl)` with its four checks in order (45_fir.md R181), in the command `i`. -/
def firInit (i : Instr) (sl : SlotNo) (bb bl cb cl : Word) (s : State) : Result :=
  if bl = 0 then raise .firConfig i 0 s
  else if bl.toNat < cl.toNat then raise .firConfig i cl s
  else if s.memWords < bb.toNat + bl.toNat then raise .memRange i bb s
  else if s.memWords < cb.toNat + cl.toNat then raise .memRange i cb s
  else complete (putFir sl (firInitSlot bb bl cb cl) (memZero bb.toNat bl.toNat s))

/-- The slot after one sample was written: `index` and `count` step (45_fir.md R184). -/
def firPushed (f : FirSlot) : FirSlot :=
  { f with
    index := BitVec.ofNat 32 (firNext f.bufLength.toNat f.index.toNat)
    count := BitVec.ofNat 32 (min (f.count.toNat + 1) f.bufLength.toNat) }

/-- The slot after one sample `x` replaced `old` and `movingSum` was kept: subtract first, then add (45_fir.md R185). -/
def firPushedAvg (f : FirSlot) (old x : F32) : FirSlot :=
  { firPushed f with movingSum := fadd (fsub f.movingSum old) x }

/-- The three state changes of `FIRUPD` (45_fir.md R184). -/
def firUpdate (sl : SlotNo) (f : FirSlot) (x : F32) (s : State) : State :=
  putFir sl (firPushed f) (memWrite (bufAddr f f.index.toNat) x s)

/-- The loop of `FIRAPPLY` (45_fir.md R186): `n` products left, the next coefficient is `coef(i)`, `idx` is the buffer
index before the step back, `acc` the sum so far. -/
def firConvolve (m : Memory) (f : FirSlot) : (n i idx : Nat) → F32 → F32
  | 0, _, _, acc => acc
  | n + 1, i, idx, acc =>
    let idx' := firPrev f.bufLength.toNat idx
    firConvolve m f n (i + 1) idx'
      (fadd acc (fmul (Memory.read m (coefAddr f i)) (Memory.read m (bufAddr f idx'))))

/-- The result of `FIRAPPLY` (45_fir.md R186). -/
def firOutput (m : Memory) (f : FirSlot) : F32 := firConvolve m f f.coeffsLength.toNat 0 f.index.toNat fZERO

/-- The loop of `FIRPAVG` (45_fir.md R187): the `n` samples before `idx`, newest first, added to `acc`. -/
def firSum (m : Memory) (f : FirSlot) : (n idx : Nat) → F32 → F32
  | 0, _, acc => acc
  | n + 1, idx, acc =>
    let idx' := firPrev f.bufLength.toNat idx
    firSum m f n idx' (fadd acc (Memory.read m (bufAddr f idx')))

/-- The result of `FIRPAVG` (45_fir.md R187). -/
def firPartialAverage (m : Memory) (f : FirSlot) (n : Word) : F32 :=
  fdiv (firSum m f n.toNat f.index.toNat fZERO) (u2f n)

/-- The address `FIRLAST` reads (45_fir.md R190). -/
def lastAddr (f : FirSlot) : Nat := bufAddr f (firPrev f.bufLength.toNat f.index.toNat)

/-- `FIRINIT` (45_fir.md R182). -/
def execFirinit (sl : SlotNo) (ra rb rc : Reg) (s : State) : Result :=
  withSlot s.fir (.firinit sl ra rb rc) sl s fun _ =>
    firInit (.firinit sl ra rb rc) sl (readReg s ra) (readReg s rb) (readReg s rc) (readReg s rb) s

/-- `FIRINIT2` (45_fir.md R183). -/
def execFirinit2 (sl : SlotNo) (ra rb rc re : Reg) (s : State) : Result :=
  withSlot s.fir (.firinit2 sl ra rb rc re) sl s fun _ =>
    firInit (.firinit2 sl ra rb rc re) sl (readReg s ra) (readReg s rb) (readReg s rc) (readReg s re) s

/-- `FIRUPD` (45_fir.md R184). -/
def execFirupd (sl : SlotNo) (ra : Reg) (s : State) : Result :=
  withSlot s.fir (.firupd sl ra) sl s fun f =>
    needValid f.valid (.firupd sl ra) sl s <|
      complete (firUpdate sl f (readReg s ra) s)

/-- `FIRUPDAVG` (45_fir.md R185). -/
def execFirupdavg (sl : SlotNo) (ra : Reg) (s : State) : Result :=
  withSlot s.fir (.firupdavg sl ra) sl s fun f =>
    needValid f.valid (.firupdavg sl ra) sl s <|
      complete (putFir sl (firPushedAvg f (memRead s (bufAddr f f.index.toNat)) (readReg s ra))
        (memWrite (bufAddr f f.index.toNat) (readReg s ra) s))

/-- `FIRAPPLY` (45_fir.md R186). -/
def execFirapply (sl : SlotNo) (rd : Reg) (s : State) : Result :=
  withSlot s.fir (.firapply sl rd) sl s fun f =>
    needValid f.valid (.firapply sl rd) sl s <|
      complete (writeReg rd (firOutput s.mem f) s)

/-- `FIRPAVG` (45_fir.md R187). -/
def execFirpavg (sl : SlotNo) (rd ra : Reg) (s : State) : Result :=
  withSlot s.fir (.firpavg sl rd ra) sl s fun f =>
    needValid f.valid (.firpavg sl rd ra) sl s <|
      if f.bufLength.toNat < (readReg s ra).toNat then raise .firRange (.firpavg sl rd ra) (readReg s ra) s
      else complete (writeReg rd (firPartialAverage s.mem f (readReg s ra)) s)

/-- `FIRMAVG` (45_fir.md R188). -/
def execFirmavg (sl : SlotNo) (rd : Reg) (s : State) : Result :=
  withSlot s.fir (.firmavg sl rd) sl s fun f =>
    needValid f.valid (.firmavg sl rd) sl s <|
      complete (writeReg rd (fdiv f.movingSum (u2f f.bufLength)) s)

/-- `FIRUPDAPPLY` (45_fir.md R189): the state changes of `FIRUPD`, then the loop of `FIRAPPLY` on the new state. -/
def execFirupdapply (sl : SlotNo) (rd ra : Reg) (s : State) : Result :=
  withSlot s.fir (.firupdapply sl rd ra) sl s fun f =>
    needValid f.valid (.firupdapply sl rd ra) sl s <|
      let s' := firUpdate sl f (readReg s ra) s
      complete (writeReg rd (firOutput s'.mem (firPushed f)) s')

/-- `FIRLAST` (45_fir.md R190). -/
def execFirlast (sl : SlotNo) (rd : Reg) (s : State) : Result :=
  withSlot s.fir (.firlast sl rd) sl s fun f =>
    needValid f.valid (.firlast sl rd) sl s <|
      complete (writeReg rd (memRead s (lastAddr f)) s)

end Sys2Proof.Machine
end

