-- ==== Sys2Proof/Machine/Pt1.lean ====
section
/-! DEFINITION. pt1_exponential_smoother (44_pt1.md R170 to R173). -/

namespace Sys2Proof.Machine

/-- The gain formula (44_pt1.md R171). -/
def pt1Gain (cut dt : F32) : F32 :=
  if fle cut fZERO then fONE
  else fdiv dt (fadd dt (fdiv fONE (fmul fTWO_PI cut)))

/-- The recurrence: the new state, which is the output (44_pt1.md R173). -/
def pt1Next (p : Pt1Slot) (x : F32) : F32 := fadd p.state (fmul p.k (fsub x p.state))

/-- `PT1GAIN` (44_pt1.md R171). It names no slot. -/
def execPt1gain (rd ra rb : Reg) (s : State) : Result :=
  complete (writeReg rd (pt1Gain (readReg s ra) (readReg s rb)) s)

/-- `PT1INIT` (44_pt1.md R172). -/
def execPt1init (sl : SlotNo) (ra : Reg) (s : State) : Result :=
  withSlot s.pt1 (.pt1init sl ra) sl s fun _ =>
    complete (putPt1 sl { valid := true, state := fZERO, k := readReg s ra } s)

/-- `PT1APPLY` (44_pt1.md R173). -/
def execPt1apply (sl : SlotNo) (rd ra : Reg) (s : State) : Result :=
  withSlot s.pt1 (.pt1apply sl rd ra) sl s fun p =>
    needValid p.valid (.pt1apply sl rd ra) sl s <|
      complete (writeReg rd (pt1Next p (readReg s ra)) (putPt1 sl { p with state := pt1Next p (readReg s ra) } s))

end Sys2Proof.Machine
end

