-- ==== Sys2Proof/Machine/Slew.lean ====
section
/-! DEFINITION. slew_rate_limiter (46_slew.md R200 to R202). -/

namespace Sys2Proof.Machine

/-- The output, which is the new state (46_slew.md R202): passed through unchanged, or moved by `slewLimit` in the
direction of the difference, a zero difference counted as upward. -/
def slewOut (c : SlewSlot) (x : F32) : F32 :=
  let d := fsub x c.state
  if fgt (fabs d) c.threshold then
    if flt d fZERO then fsub c.state c.slewLimit else fadd c.state c.slewLimit
  else x

/-- `SLEWINIT` (46_slew.md R201). -/
def execSlewinit (sl : SlotNo) (ra rb : Reg) (s : State) : Result :=
  withSlot s.slew (.slewinit sl ra rb) sl s fun _ =>
    complete (putSlew sl { valid := true, state := fZERO, slewLimit := readReg s ra, threshold := readReg s rb } s)

/-- `SLEWAPPLY` (46_slew.md R202). -/
def execSlewapply (sl : SlotNo) (rd ra : Reg) (s : State) : Result :=
  withSlot s.slew (.slewapply sl rd ra) sl s fun c =>
    needValid c.valid (.slewapply sl rd ra) sl s <|
      complete (writeReg rd (slewOut c (readReg s ra)) (putSlew sl { c with state := slewOut c (readReg s ra) } s))

end Sys2Proof.Machine
end

