-- ==== Sys2Proof/Machine/Dispatch.lean ====
section
/-! DEFINITION. One arm per command: its meaning. -/

namespace Sys2Proof.Machine

def exec (i : Instr) (s : State) : Host.Outcome State Fault Refusal :=
  match i with
  | .nop => Sys2Proof.Machine.execNop s
  | .lih rd imm16 => Sys2Proof.Machine.execLih rd imm16 s
  | .lil rd imm16 => Sys2Proof.Machine.execLil rd imm16 s
  | .mov rd ra => Sys2Proof.Machine.execMov rd ra s
  | .rdm rd ra => Sys2Proof.Machine.execRdm rd ra s
  | .wrm ra rb => Sys2Proof.Machine.execWrm ra rb s
  | .rds sl rd un fld => Sys2Proof.Machine.execRds sl rd un fld s
  | .wrs sl ra un fld => Sys2Proof.Machine.execWrs sl ra un fld s
  | .bqinitlpf sl ra rb => Sys2Proof.Machine.execBqinitlpf sl ra rb s
  | .bqinit sl ra rb rc ty => Sys2Proof.Machine.execBqinit sl ra rb rc ty s
  | .bqupd sl ra rb rc ty => Sys2Proof.Machine.execBqupd sl ra rb rc ty s
  | .bqdf1 sl rd ra => Sys2Proof.Machine.execBqdf1 sl rd ra s
  | .bqapply sl rd ra => Sys2Proof.Machine.execBqapply sl rd ra s
  | .notchq rd ra rb => Sys2Proof.Machine.execNotchq rd ra rb s
  | .bqrcfir2 sl ra => Sys2Proof.Machine.execBqrcfir2 sl ra s
  | .casinit sl rd ra rb rc => Sys2Proof.Machine.execCasinit sl rd ra rb rc s
  | .casapply sl rd ra => Sys2Proof.Machine.execCasapply sl rd ra s
  | .pt1gain rd ra rb => Sys2Proof.Machine.execPt1gain rd ra rb s
  | .pt1init sl ra => Sys2Proof.Machine.execPt1init sl ra s
  | .pt1apply sl rd ra => Sys2Proof.Machine.execPt1apply sl rd ra s
  | .firinit sl ra rb rc => Sys2Proof.Machine.execFirinit sl ra rb rc s
  | .firinit2 sl ra rb rc re => Sys2Proof.Machine.execFirinit2 sl ra rb rc re s
  | .firupd sl ra => Sys2Proof.Machine.execFirupd sl ra s
  | .firupdavg sl ra => Sys2Proof.Machine.execFirupdavg sl ra s
  | .firapply sl rd => Sys2Proof.Machine.execFirapply sl rd s
  | .firpavg sl rd ra => Sys2Proof.Machine.execFirpavg sl rd ra s
  | .firmavg sl rd => Sys2Proof.Machine.execFirmavg sl rd s
  | .firupdapply sl rd ra => Sys2Proof.Machine.execFirupdapply sl rd ra s
  | .firlast sl rd => Sys2Proof.Machine.execFirlast sl rd s
  | .slewinit sl ra rb => Sys2Proof.Machine.execSlewinit sl ra rb s
  | .slewapply sl rd ra => Sys2Proof.Machine.execSlewapply sl rd ra s

end Sys2Proof.Machine
end

