-- ==== Sys2Proof/Machine/Step.lean ====
section
/-! DEFINITION. One step of the sequencer (10_state.md R25, R28). -/

namespace Sys2Proof.Machine

/-- A faulted sequencer takes no word: its step answers the fault again (10_state.md R28, 60_exceptions.md R214). One
with no word waits, which changes nothing (R28; log entry 4). Otherwise the next word is taken and decoded; an illegal one
faults with `FINFO = FINST = w` (60_exceptions.md R211, R213), a command is executed; a fault taken is the fault outcome of
the step (R214; log entry 1). -/
def step (s : State) : Host.Outcome State Fault Refusal :=
  if faultBit s.status then .fault (.faulted s)
  else
    match takeWord s with
    | none => .next s
    | some (w, s') =>
      match decode w with
      | .error _ => stepOutcome (.next (takeFault .illegal w w s'))
      | .ok i => stepOutcome (exec i s')

/-- `s` with the command word `w` where the sequencer takes its next word: the head of the command queue, in place of
the word that stood there. A program comes to run by the host transferring its words (10_state.md R50; log entry 3). -/
def State.withFetchWord (s : State) (nbits w : Nat) : State :=
  { s with cmdq := BitVec.ofNat 32 (w % 2 ^ nbits) :: s.cmdq.tail }

end Sys2Proof.Machine
end

