-- ==== Sys2Proof/Machine/Ports.lean ====
section
/-! DEFINITION. The host's side (10_state.md R50 to R53, 60_exceptions.md R222, 70_reset_and_hazards.md R240 to R242):
the four interactions, each as a function on the state between two steps, or on the faulted state that a fault outcome
carries. -/

namespace Sys2Proof.Machine

/-- The `fault` line (10_state.md R52). -/
def faultLine (s : State) : Bool := faultBit s.status

/-- The `busy` line (10_state.md R52). Between two steps no command is executing, so it says whether words are queued. -/
def busy (s : State) : Bool := !s.cmdq.isEmpty

/-- `cmd_ready`: the queue of `CMDQ_DEPTH` words has room (10_state.md R50; log entry 15). -/
def cmdReady (s : State) : Bool := decide (s.cmdq.length < s.cmdqDepth)

/-- The host offers `w`: none while the queue has no room (the host keeps the word); else the state after the transfer,
the word last in the queue, or dropped if the sequencer is faulted (10_state.md R50, 60_exceptions.md R215). -/
def send (w : Word) (s : State) : Option State :=
  if !cmdReady s then none
  else if faultLine s then some s
  else some { s with cmdq := s.cmdq ++ [w] }

/-- The read port (10_state.md R51): none where the value is unspecified, that is for `x0` to `x15` and `SEQ` while
`busy = 1` and `fault = 0` (log entry 14). It has no side effect. -/
def hostRead (s : State) (addr : BitVec 5) : Option Word :=
  let stable := !busy s || faultLine s
  if addr.toNat < 16 then
    if stable then some (readReg s (addr.setWidth 4)) else none
  else
    match coreRegOf (addr.toNat - 16) with
    | none => some 0
    | some .seq => if stable then some s.seq else none
    | some r => some (readCore s r)

/-- `rst` while no command executes (10_state.md R53, 70_reset_and_hazards.md R241): every item of the state takes its
reset value, the parameters stay, data memory keeps its contents. -/
def hostReset (s : State) : State := { State.resetWith (configOf s) with mem := s.mem }

/-- `rst` while the next command executes (70_reset_and_hazards.md R242): the command is abandoned; of the words it
writes, those at the addresses `landed` hold their new value and the others their old one. Which ones land is not said,
so `landed` is an argument (log entry 16). -/
def hostResetDuring (landed : List Nat) (s : State) : State :=
  let after : Memory := match step s with
    | .next t => t.mem
    | .fault _ => s.mem
    | .refused _ => s.mem
  let mem := landed.foldl (fun m a => match Memory.written after a with
    | some v => Memory.write m a v
    | none => m) s.mem
  { State.resetWith (configOf s) with mem := mem }

end Sys2Proof.Machine
end

