-- ==== Sys2Proof/Safety.lean ====
section
/-! DEFINITION. The terms claims are stated in: which registers, slots and words a command may write, which check fails
first, what holds of every reachable state, and what a safe run is. None of it is used by the machine. -/

namespace Sys2Proof.Safety

open Sys2Proof.Machine

/-! ## What a command may write -/

/-- The operand register a command writes: the rows of 30_encoding.md R86 that use `rd`. -/
def destReg : Instr → Option Reg
  | .nop => none
  | .lih rd _ => some rd
  | .lil rd _ => some rd
  | .mov rd _ => some rd
  | .rdm rd _ => some rd
  | .wrm _ _ => none
  | .rds _ rd _ _ => some rd
  | .wrs _ _ _ _ => none
  | .bqinitlpf _ _ _ => none
  | .bqinit _ _ _ _ _ => none
  | .bqupd _ _ _ _ _ => none
  | .bqdf1 _ rd _ => some rd
  | .bqapply _ rd _ => some rd
  | .notchq rd _ _ => some rd
  | .bqrcfir2 _ _ => none
  | .casinit _ rd _ _ _ => some rd
  | .casapply _ rd _ => some rd
  | .pt1gain rd _ _ => some rd
  | .pt1init _ _ => none
  | .pt1apply _ rd _ => some rd
  | .firinit _ _ _ _ => none
  | .firinit2 _ _ _ _ _ => none
  | .firupd _ _ => none
  | .firupdavg _ _ => none
  | .firapply _ rd => some rd
  | .firpavg _ rd _ => some rd
  | .firmavg _ rd => some rd
  | .firupdapply _ rd _ => some rd
  | .firlast _ rd => some rd
  | .slewinit _ _ _ => none
  | .slewapply _ rd _ => some rd

/-- The five units that have slots (00_scope.md R1). -/
inductive UnitName where
  | bq | cas | pt1 | fir | slew
  deriving DecidableEq, Repr

/-- The unit of a unit number; none for the core registers and undefined numbers (10_state.md R37). -/
def unitOf (un : BitVec 4) : Option UnitName :=
  match un.toNat with
  | 1 => some .bq
  | 2 => some .cas
  | 3 => some .pt1
  | 4 => some .fir
  | 5 => some .slew
  | _ => none

/-- The slot a command names (10_state.md R39; 41_base.md R126, R127 for the state-space commands). -/
def namedSlot : Instr → Option (UnitName × SlotNo)
  | .nop => none
  | .lih _ _ => none
  | .lil _ _ => none
  | .mov _ _ => none
  | .rdm _ _ => none
  | .wrm _ _ => none
  | .rds sl _ un _ => (unitOf un).map (·, sl)
  | .wrs sl _ un _ => (unitOf un).map (·, sl)
  | .bqinitlpf sl _ _ => some (.bq, sl)
  | .bqinit sl _ _ _ _ => some (.bq, sl)
  | .bqupd sl _ _ _ _ => some (.bq, sl)
  | .bqdf1 sl _ _ => some (.bq, sl)
  | .bqapply sl _ _ => some (.bq, sl)
  | .notchq _ _ _ => none
  | .bqrcfir2 sl _ => some (.bq, sl)
  | .casinit sl _ _ _ _ => some (.cas, sl)
  | .casapply sl _ _ => some (.cas, sl)
  | .pt1gain _ _ _ => none
  | .pt1init sl _ => some (.pt1, sl)
  | .pt1apply sl _ _ => some (.pt1, sl)
  | .firinit sl _ _ _ => some (.fir, sl)
  | .firinit2 sl _ _ _ _ => some (.fir, sl)
  | .firupd sl _ => some (.fir, sl)
  | .firupdavg sl _ => some (.fir, sl)
  | .firapply sl _ => some (.fir, sl)
  | .firpavg sl _ _ => some (.fir, sl)
  | .firmavg sl _ => some (.fir, sl)
  | .firupdapply sl _ _ => some (.fir, sl)
  | .firlast sl _ => some (.fir, sl)
  | .slewinit sl _ _ => some (.slew, sl)
  | .slewapply sl _ _ => some (.slew, sl)

/-- The commands that write a field of the slot they name: the "written by" columns of 10_state.md R31 to R35. -/
def writtenSlot (i : Instr) : Option (UnitName × SlotNo) :=
  match i with
  | .rds _ _ _ _ => none
  | .wrs sl _ _ _ => some (.pt1, sl)
  | .firapply _ _ => none
  | .firpavg _ _ _ => none
  | .firmavg _ _ => none
  | .firlast _ _ => none
  | i => namedSlot i

/-- The commands that may write slot `n` of unit `u`. -/
def WritesSlot (i : Instr) (u : UnitName) (n : Nat) : Prop := ∃ sl, writtenSlot i = some (u, sl) ∧ sl.toNat = n

/-- The words a FIR command stores to in state `s`, as first address and number of words; the "writes" column of
20_memory.md R69. -/
def firStores (s : State) (sl : SlotNo) : Option (Nat × Nat) :=
  s.fir[sl.toNat]?.map fun f => (bufAddr f f.index.toNat, 1)

/-- The words a command stores to in state `s`, as first address and number of words; none for a command that writes no
memory (20_memory.md R69). -/
def stores (s : State) : Instr → Option (Nat × Nat)
  | .wrm ra _ => some ((readReg s ra).toNat, 1)
  | .firinit _ ra rb _ => some ((readReg s ra).toNat, (readReg s rb).toNat)
  | .firinit2 _ ra rb _ _ => some ((readReg s ra).toNat, (readReg s rb).toNat)
  | .firupd sl _ => firStores s sl
  | .firupdavg sl _ => firStores s sl
  | .firupdapply sl _ _ => firStores s sl
  | .nop => none
  | .lih _ _ => none
  | .lil _ _ => none
  | .mov _ _ => none
  | .rdm _ _ => none
  | .rds _ _ _ _ => none
  | .wrs _ _ _ _ => none
  | .bqinitlpf _ _ _ => none
  | .bqinit _ _ _ _ _ => none
  | .bqupd _ _ _ _ _ => none
  | .bqdf1 _ _ _ => none
  | .bqapply _ _ _ => none
  | .notchq _ _ _ => none
  | .bqrcfir2 _ _ => none
  | .casinit _ _ _ _ _ => none
  | .casapply _ _ _ => none
  | .pt1gain _ _ _ => none
  | .pt1init _ _ => none
  | .pt1apply _ _ _ => none
  | .firapply _ _ => none
  | .firpavg _ _ _ => none
  | .firmavg _ _ => none
  | .firlast _ _ => none
  | .slewinit _ _ _ => none
  | .slewapply _ _ _ => none

/-- `a` is one of the words `i` stores to in `s`. -/
def StoresTo (s : State) (i : Instr) (a : Nat) : Prop :=
  ∃ base n, stores s i = some (base, n) ∧ base ≤ a ∧ a < base + n

/-! ## What two states share -/

/-- The five fault registers (10_state.md R20 (c)). -/
def SameFaultRegs (s t : State) : Prop :=
  t.status = s.status ∧ t.cause = s.cause ∧ t.fseq = s.fseq ∧ t.finst = s.finst ∧ t.finfo = s.finfo

/-- Everything of the architectural state but the fault registers, and the parameters (10_state.md R20). -/
def SameButFaultRegs (s t : State) : Prop :=
  t.regs = s.regs ∧ t.seq = s.seq ∧ t.bq = s.bq ∧ t.cas = s.cas ∧ t.pt1 = s.pt1 ∧ t.fir = s.fir ∧ t.slew = s.slew ∧
  t.mem = s.mem ∧ t.memWords = s.memWords ∧ t.cmdqDepth = s.cmdqDepth

/-- Slot `n` of unit `u` is the same in both states. -/
def SameSlot (s t : State) (u : UnitName) (n : Nat) : Prop :=
  match u with
  | .bq => t.bq[n]? = s.bq[n]?
  | .cas => t.cas[n]? = s.cas[n]?
  | .pt1 => t.pt1[n]? = s.pt1[n]?
  | .fir => t.fir[n]? = s.fir[n]?
  | .slew => t.slew[n]? = s.slew[n]?

/-- The two states agree on everything but slots. -/
def SameOutsideSlots (s t : State) : Prop :=
  t.regs = s.regs ∧ t.seq = s.seq ∧ SameFaultRegs s t ∧ t.mem = s.mem ∧ t.cmdq = s.cmdq ∧ configOf t = configOf s

/-! ## The checks and their order (60_exceptions.md R211, R212) -/

/-- One check: whether it fails, and what the fault would record. -/
structure Check where
  fails : Bool
  cause : Cause
  info  : Word
  deriving DecidableEq, Repr

/-- `sl >= N` (60_exceptions.md R212, line 2). -/
def slotCheck (count : Nat) (sl : SlotNo) : Check := ⟨decide (count ≤ sl.toNat), .slotRange, slotInfo sl⟩

/-- `valid = 0` (60_exceptions.md R212, line 4). -/
def validCheck (valid : Option Bool) (sl : SlotNo) : Check := ⟨!valid.getD false, .notInit, slotInfo sl⟩

/-- `a >= MEM_WORDS` (60_exceptions.md R211, row 6, `RDM` and `WRM`). -/
def addrCheck (s : State) (a : Word) : Check := ⟨decide (s.memWords ≤ a.toNat), .memRange, a⟩

/-- `base + len > MEM_WORDS`, the sum without wrap (60_exceptions.md R211, row 6, the init commands). -/
def regionCheck (s : State) (base len : Word) : Check :=
  ⟨decide (s.memWords < base.toNat + len.toNat), .memRange, base⟩

/-- The slot count of a unit number, 1 for unit 0 (10_state.md R37). -/
def unitSlots (s : State) (un : BitVec 4) : Nat :=
  match un.toNat with
  | 0 => 1
  | 1 => s.bq.length
  | 2 => s.cas.length
  | 3 => s.pt1.length
  | 4 => s.fir.length
  | 5 => s.slew.length
  | _ => 0

/-- The checks a command makes, in the order of 60_exceptions.md R212. -/
def checks (s : State) (i : Instr) : List Check :=
  match i with
  | .nop => []
  | .lih _ _ => []
  | .lil _ _ => []
  | .mov _ _ => []
  | .rdm _ ra => [addrCheck s (readReg s ra)]
  | .wrm ra _ => [addrCheck s (readReg s ra)]
  | .rds sl _ un fld =>
    [⟨!fieldPairDefined un fld, .illegal, encode i⟩, slotCheck (unitSlots s un) sl]
  | .wrs sl _ un fld =>
    [⟨!fieldPairDefined un fld, .illegal, encode i⟩, slotCheck (unitSlots s un) sl,
      ⟨!(un == 3 && fld == 1), .stateAccess, fieldInfo un fld⟩]
  | .bqinitlpf sl _ _ => [slotCheck s.bq.length sl]
  | .bqinit sl _ _ _ _ => [slotCheck s.bq.length sl]
  | .bqupd sl _ _ _ _ => [slotCheck s.bq.length sl, validCheck (s.bq[sl.toNat]?.map (·.valid)) sl]
  | .bqdf1 sl _ _ => [slotCheck s.bq.length sl, validCheck (s.bq[sl.toNat]?.map (·.valid)) sl]
  | .bqapply sl _ _ => [slotCheck s.bq.length sl, validCheck (s.bq[sl.toNat]?.map (·.valid)) sl]
  | .notchq _ _ _ => []
  | .bqrcfir2 sl _ => [slotCheck s.bq.length sl]
  | .casinit sl _ _ _ _ => [slotCheck s.cas.length sl]
  | .casapply sl _ _ => [slotCheck s.cas.length sl, validCheck (s.cas[sl.toNat]?.map (·.valid)) sl]
  | .pt1gain _ _ _ => []
  | .pt1init sl _ => [slotCheck s.pt1.length sl]
  | .pt1apply sl _ _ => [slotCheck s.pt1.length sl, validCheck (s.pt1[sl.toNat]?.map (·.valid)) sl]
  | .firinit sl ra rb rc =>
    [slotCheck s.fir.length sl, ⟨readReg s rb == 0, .firConfig, 0⟩,
      regionCheck s (readReg s ra) (readReg s rb), regionCheck s (readReg s rc) (readReg s rb)]
  | .firinit2 sl ra rb rc re =>
    [slotCheck s.fir.length sl, ⟨readReg s rb == 0, .firConfig, 0⟩,
      ⟨decide ((readReg s rb).toNat < (readReg s re).toNat), .firConfig, readReg s re⟩,
      regionCheck s (readReg s ra) (readReg s rb), regionCheck s (readReg s rc) (readReg s re)]
  | .firupd sl _ => [slotCheck s.fir.length sl, validCheck (s.fir[sl.toNat]?.map (·.valid)) sl]
  | .firupdavg sl _ => [slotCheck s.fir.length sl, validCheck (s.fir[sl.toNat]?.map (·.valid)) sl]
  | .firapply sl _ => [slotCheck s.fir.length sl, validCheck (s.fir[sl.toNat]?.map (·.valid)) sl]
  | .firpavg sl _ ra =>
    [slotCheck s.fir.length sl, validCheck (s.fir[sl.toNat]?.map (·.valid)) sl,
      ⟨decide ((s.fir[sl.toNat]?.elim 0 (·.bufLength.toNat)) < (readReg s ra).toNat), .firRange, readReg s ra⟩]
  | .firmavg sl _ => [slotCheck s.fir.length sl, validCheck (s.fir[sl.toNat]?.map (·.valid)) sl]
  | .firupdapply sl _ _ => [slotCheck s.fir.length sl, validCheck (s.fir[sl.toNat]?.map (·.valid)) sl]
  | .firlast sl _ => [slotCheck s.fir.length sl, validCheck (s.fir[sl.toNat]?.map (·.valid)) sl]
  | .slewinit sl _ _ => [slotCheck s.slew.length sl]
  | .slewapply sl _ _ => [slotCheck s.slew.length sl, validCheck (s.slew[sl.toNat]?.map (·.valid)) sl]

/-- The first check of a command that fails (60_exceptions.md R212). -/
def firstFailure (s : State) (i : Instr) : Option Check := (checks s i).find? (·.fails)

/-- The first check that fails for a command word: decoding comes first (60_exceptions.md R212, line 1). -/
def wordFailure (s : State) (w : Word) : Option Check :=
  match decode w with
  | .error _ => some ⟨true, .illegal, w⟩
  | .ok i => firstFailure s i

/-- `t` is `s` after the fault `c` in the command with word `w`: the five assignments of 60_exceptions.md R213 and nothing
else of the architectural state. The queue is hidden state (10_state.md R50), left open here: what it holds after a fault
is stated apart (60_exceptions.md R215; log entry 2). -/
def FaultEntered (c : Cause) (w info : Word) (s t : State) : Prop :=
  t = { s with
    status := s.status ||| 1, cause := causeCode c, fseq := s.seq, finst := w, finfo := info, cmdq := t.cmdq }

/-- The command `i` takes the fault `c` in state `s`, with `FINFO = info` (60_exceptions.md R213). -/
def FaultsWith (c : Cause) (info : Word) (i : Instr) (s : State) : Prop :=
  ∃ t, exec i s = .next t ∧ FaultEntered c (encode i) info s t

/-- A word with this `op` and a bit outside the used fields of its row raises `Illegal` with `FINFO = w` (30_encoding.md
R89 (b)); `mask` is 0 in the used fields (R87). -/
def IllegalUnless (op : BitVec 8) (mask : Word) : Prop :=
  ∀ (s : State) (w : Word) (rest : List Word), faultBit s.status = false → s.cmdq = w :: rest →
    w.extractLsb' 24 8 = op → w &&& mask ≠ op ++ 0#24 →
    ∃ t, step s = .fault (.faulted t) ∧ FaultEntered .illegal w w s t

/-- `RDS` of the address (`un`, `sl`, `fld`) gives `v` (41_base.md R126). -/
def RdsGives (s : State) (un : BitVec 4) (sl : SlotNo) (fld : BitVec 8) (v : Word) : Prop :=
  ∀ rd : Reg, exec (.rds sl rd un fld) s = .next
    { s with regs := s.regs.set rd.toNat v rd.isLt, seq := s.seq + 1 }

/-- One section of 43_cascade.md R163's loop: `r` is the output of section `S` fed `v`, `S'` is `S` after it,
by the three arithmetic lines and two state writes of 42_biquad.md R147. -/
def IsDf2t (S : Section) (v r : F32) (S' : Section) : Prop :=
  r = fadd (fmul S.b0 v) S.x1 ∧
  S' = { S with x1 := fadd (fsub (fmul S.b1 v) (fmul S.a1 r)) S.x2, x2 := fsub (fmul S.b2 v) (fmul S.a2 r) }

/-- The address of the sample written `i + 1` updates ago, `i < bufLength`: `prev` applied `i + 1` times to `index`
(45_fir.md R180). -/
def sampleAddr (f : FirSlot) (i : Nat) : Nat :=
  f.bufBase.toNat + (f.index.toNat + f.bufLength.toNat - 1 - i) % f.bufLength.toNat

/-! ## What holds of every reachable state -/

/-- A slot that is not valid holds its reset values (10_state.md R37). -/
def BqOk (c : BqSlot) : Prop := c.valid = false → c = BqSlot.zero

/-- `sections` is at most 6; no cascade command gives `y1` or `y2` a value (10_state.md R32, R37, R38). -/
def CasOk (c : CasSlot) : Prop :=
  c.sections.toNat ≤ 6 ∧ (∀ i : Fin 6, c.sec[i].y1 = 0 ∧ c.sec[i].y2 = 0) ∧ (c.valid = false → c = CasSlot.zero)

/-- `state` may be pre-set by `WRS` in an invalid slot; `k` may not (10_state.md R37). -/
def Pt1Ok (c : Pt1Slot) : Prop := c.valid = false → c.k = 0

/-- The ranges of 10_state.md R34 and the two regions inside memory (45_fir.md R180). -/
def FirOk (memWords : Nat) (f : FirSlot) : Prop :=
  (f.valid = false → f = FirSlot.zero) ∧
  (f.valid = true →
    1 ≤ f.bufLength.toNat ∧ f.coeffsLength.toNat ≤ f.bufLength.toNat ∧ f.index.toNat < f.bufLength.toNat ∧
    f.count.toNat ≤ f.bufLength.toNat ∧ f.bufBase.toNat + f.bufLength.toNat ≤ memWords ∧
    f.coefBase.toNat + f.coeffsLength.toNat ≤ memWords)

/-- A slot that is not valid holds its reset values (10_state.md R37). -/
def SlewOk (c : SlewSlot) : Prop := c.valid = false → c = SlewSlot.zero

/-- Running: the fault registers are zero. Faulted: `FAULT` is the only bit of `STATUS`, the cause is one of the seven
codes, `SEQ = FSEQ`, no word is queued (10_state.md R36; 60_exceptions.md R211, R213, R215). -/
def FaultRegsOk (s : State) : Prop :=
  (s.status = 0 ∧ s.cause = 0 ∧ s.fseq = 0 ∧ s.finst = 0 ∧ s.finfo = 0) ∨
  (s.status = 1 ∧ (∃ c, s.cause = causeCode c) ∧ s.fseq = s.seq ∧ s.cmdq = [])

/-- The invariant of the machine. -/
structure Inv (s : State) : Prop where
  config : (configOf s).Legal
  bq     : ∀ c ∈ s.bq, BqOk c
  cas    : ∀ c ∈ s.cas, CasOk c
  pt1    : ∀ c ∈ s.pt1, Pt1Ok c
  fir    : ∀ f ∈ s.fir, FirOk s.memWords f
  slew   : ∀ c ∈ s.slew, SlewOk c
  fault  : FaultRegsOk s
  memWf  : Memory.wf s.mem = true
  memIn  : Memory.inRange s.memWords s.mem = true

/-! ## Safe runs -/

/-- `n` steps from `s` answer a next state: no fault is taken (60_exceptions.md R214: what a claim about a program must
establish), and `s` is not faulted itself. -/
def SafeRun (n : Nat) (s : State) : Prop := ∃ t, Sys2Proof.core.run n s = .next t ∧ faultBit t.status = false

/-! ## Exact values of binary32 patterns (40_numerics.md R100, R101) -/

/-- The real value of a finite pattern. -/
def f32Real (a : F32) : ℚ := (f32Val a : ℚ) / 2 ^ 149

/-- The place of a non-NaN pattern in the order of 40_numerics.md R106: its real value, `−inf` below and `+inf` above
every finite value. -/
def f32Order (a : F32) : WithBot (WithTop ℚ) :=
  if f32IsInf a then (if f32Neg a then ⊥ else ((⊤ : WithTop ℚ) : WithBot (WithTop ℚ)))
  else ((f32Real a : WithTop ℚ) : WithBot (WithTop ℚ))

/-- `w` is the exact value `r` rounded to binary32 by round-to-nearest, ties-to-even (40_numerics.md R101): infinity
with the sign of `r` from `(2 - 2^-24)·2^127` on; below that, no finite value is nearer, and where another is as near,
the fraction bit 0 of `w` is 0. -/
def RoundedTo (r : ℚ) (w : F32) : Prop :=
  if (2 - 1 / 2 ^ 24) * 2 ^ 127 ≤ |r| then w = signedInf (decide (r < 0))
  else
    f32IsFinite w = true ∧
    (∀ v : F32, f32IsFinite v = true → |r - f32Real w| ≤ |r - f32Real v|) ∧
    (∀ v : F32, f32IsFinite v = true → f32Real v ≠ f32Real w → |r - f32Real v| = |r - f32Real w| → w.getLsbD 0 = false)

end Sys2Proof.Safety
end

