-- ==== Sys2Proof/Certificates/Slice0/Obligations.lean ====
section
/-! DEFINITION. The statements for the provers. Each docstring names the rule of spec/ it formalises; a clause that rests
on the model's own choice names the log entry. Witnesses of the hypotheses are in Tests/Slice0.lean, under
`witness_<Name>`. -/

open Sys2Proof Sys2Proof.Machine Sys2Proof.Safety

/-! ## Encoding (30_encoding.md) -/

/-- R84, R86: decoding the word of a well-formed command gives the command back, every operand at every value. -/
def Obligations.DecodeEncode : Prop := ∀ i : Instr, WellFormed i = true → decode (encode i) = .ok i

/-- R84: a word that decodes is the one word of a well-formed command. -/
def Obligations.EncodeDecode : Prop :=
  ∀ (w : Word) (i : Instr), decode w = .ok i → WellFormed i = true ∧ encode i = w

/-- R84, R87: a word is a command of a row exactly if the row's mask and match select it and, for `RDS` and `WRS`, its
(`un`, `fld`) pair is defined; no word is selected by two rows. -/
def Obligations.DecodeByMask : Prop :=
  (∀ (w : Word) (op : Op),
    (∃ i, decode w = .ok i ∧ opOf i = op) ↔
      w &&& opMask op = opMatch op ∧
      ((op = .rds ∨ op = .wrs) → fieldPairDefined (w.extractLsb' 8 4) (w.extractLsb' 0 8) = true)) ∧
  (∀ (w : Word) (op op' : Op), w &&& opMask op = opMatch op → w &&& opMask op' = opMatch op' → op = op')

/-- R89: the illegal words are those of clauses (a), (b), (c), and executing one raises `Illegal` with `FINFO = w`. -/
def Obligations.IllegalWords : Prop :=
  (∀ w : Word, (∃ e, decode w = .error e) ↔
    (w.extractLsb' 24 8 ∉ ([0x01, 0x02, 0x03, 0x04, 0x05, 0x06, 0x07, 0x08, 0x10, 0x11, 0x12, 0x13, 0x14, 0x15, 0x16,
        0x20, 0x21, 0x30, 0x31, 0x32, 0x40, 0x41, 0x42, 0x43, 0x44, 0x45, 0x46, 0x47, 0x48, 0x50, 0x51] :
        List (BitVec 8))) ∨
    (∃ op, opByte op = w.extractLsb' 24 8 ∧ w &&& opMask op ≠ opMatch op) ∨
    ((w.extractLsb' 24 8 = 0x07 ∨ w.extractLsb' 24 8 = 0x08) ∧
      fieldPairDefined (w.extractLsb' 8 4) (w.extractLsb' 0 8) = false)) ∧
  (∀ (s : State) (w : Word) (rest : List Word) (e : DecodeError), faultBit s.status = false → s.cmdq = w :: rest →
    decode w = .error e →
    ∃ t, step s = .fault (.faulted t) ∧ FaultEntered .illegal w w s t) ∧
  (∃ e, decode 0x00000000 = .error e) ∧ (∃ e, decode 0xFFFFFFFF = .error e)

/-- R94: the worked encodings, each word with the command it stands for. -/
def Obligations.WorkedEncodings : Prop :=
  decode 0x01000000 = .ok .nop ∧
  decode 0x02013F00 = .ok (.lih 1 0x3F00) ∧
  decode 0x03010000 = .ok (.lil 1 0x0000) ∧
  decode 0x04021000 = .ok (.mov 2 1) ∧
  decode 0x06003400 = .ok (.wrm 3 4) ∧
  decode 0x07040101 = .ok (.rds 0 4 1 0x01) ∧
  decode 0x07190225 = .ok (.rds 1 9 2 0x25) ∧
  decode 0x08205301 = .ok (.wrs 2 5 3 0x01) ∧
  decode 0x11301261 = .ok (.bqinit 3 1 2 6 .notch) ∧
  decode 0x13043000 = .ok (.bqdf1 0 4 3) ∧
  decode 0x20141230 = .ok (.casinit 1 4 1 2 3) ∧
  decode 0x32054000 = .ok (.pt1apply 0 5 4) ∧
  decode 0x4130123B = .ok (.firinit2 3 1 2 3 11) ∧
  decode 0x51043000 = .ok (.slewapply 0 4 3)

/-! ## The sequencer and the fault (10_state.md, 60_exceptions.md) -/

/-- R25, R214: a running sequencer with a word that is a command executes it, the word taken from the queue; the state it
completes in is the next state, the one it faults in is carried by the fault outcome. -/
def Obligations.StepRunsCommand : Prop :=
  ∀ (s : State) (w : Word) (rest : List Word) (i : Instr), faultBit s.status = false → s.cmdq = w :: rest →
    decode w = .ok i → ∃ t, exec i { s with cmdq := rest } = .next t ∧
      (faultBit t.status = false → step s = .next t) ∧ (faultBit t.status = true → step s = .fault (.faulted t))

/-- R28: a faulted sequencer takes no word, its step is the fault outcome with the same state (R214); one with no word waits,
which changes nothing (log entry 4). -/
def Obligations.SequencerConditions : Prop :=
  ∀ s : State,
    (faultBit s.status = true → step s = .fault (.faulted s)) ∧
    (faultBit s.status = false → s.cmdq = [] → step s = .next s)

/-- R213: fault entry. The first check of R212 that fails for the word taken, decoding included, writes the five fault
registers and nothing else of the architectural state; `SEQ` stays. (What happens to the queue is in `CompleteOrFault`.)
R214: the fault is the fault outcome of that step; no run that answers a state has taken one, and once it is taken every
longer run answers it with the same fault registers. (The outcome holds the state of R213 as data: log entry 1.) -/
def Obligations.FaultEntry : Prop :=
  (causeCode .illegal = 1 ∧ causeCode .slotRange = 2 ∧ causeCode .stateAccess = 3 ∧ causeCode .notInit = 4 ∧
    causeCode .firConfig = 5 ∧ causeCode .memRange = 6 ∧ causeCode .firRange = 7) ∧
  (∀ (s : State) (w : Word) (rest : List Word) (c : Check), faultBit s.status = false → s.cmdq = w :: rest →
    wordFailure { s with cmdq := rest } w = some c →
    ∃ t, step s = .fault (.faulted t) ∧ FaultEntered c.cause w c.info s t ∧ faultBit t.status = true ∧ t.seq = t.fseq ∧
      (∀ n, Sys2Proof.core.run (n + 1) s = .fault (.faulted t)) ∧ step t = .fault (.faulted t)) ∧
  ∀ (n : Nat) (s t : State), faultBit s.status = false → Sys2Proof.core.run n s = .next t → faultBit t.status = false

/-- R9, R210: every command answers a next state; it has completed, `SEQ` advanced by 1 and the fault registers as they
were, or it has changed nothing but the fault registers. (That the queue is empty after a fault is R215 as read in log
entry 2.) -/
def Obligations.CompleteOrFault : Prop :=
  ∀ (i : Instr) (s : State), ∃ t, exec i s = .next t ∧
    ((t.seq = s.seq + 1 ∧ SameFaultRegs s t ∧ t.cmdq = s.cmdq) ∨
     (SameButFaultRegs s t ∧ faultBit t.status = true ∧ t.fseq = s.seq ∧ t.finst = encode i ∧ t.cmdq = [] ∧
        ∃ c, t.cause = causeCode c))

/-- R212: a command reports the first of its checks that fails, in the order of the cause codes, and completes if none
fails; decoding comes before all of them; they depend on the word, the operand registers, the slots and `MEM_WORDS`
alone. `Safety.checks` lists the checks of every command. -/
def Obligations.FirstFailingCheck : Prop :=
  (∀ (s : State) (w : Word) (rest : List Word) (e : DecodeError), faultBit s.status = false → s.cmdq = w :: rest →
    decode w = .error e →
    ∃ t, step s = .fault (.faulted t) ∧ FaultEntered .illegal w w s t) ∧
  ∀ (i : Instr) (s : State),
    (∀ c, firstFailure s i = some c → FaultsWith c.cause c.info i s) ∧
    (firstFailure s i = none → ∃ t, exec i s = .next t ∧ t.seq = s.seq + 1 ∧ SameFaultRegs s t ∧ t.cmdq = s.cmdq) ∧
    ((checks s i).map fun c => (causeCode c.cause).toNat).Pairwise (· ≤ ·) ∧
    ∀ s' : State, s'.regs = s.regs → s'.bq = s.bq → s'.cas = s.cas → s'.pt1 = s.pt1 → s'.fir = s.fir →
      s'.slew = s.slew → s'.memWords = s.memWords → checks s' i = checks s i

/-- R27, R253: a run over the `n` queued words ends within `n` steps, in the state where `SEQ` has advanced `n` times and
no word remains, or with the fault outcome of the first faulted state, whose `SEQ = FSEQ` is the index of the faulting
word; the words before that one have completed. -/
def Obligations.RunEnds : Prop :=
  ∀ s : State, faultBit s.status = false →
    (∃ t, Sys2Proof.core.run s.cmdq.length s = .next t ∧ faultBit t.status = false ∧ t.cmdq = [] ∧
      t.seq = s.seq + BitVec.ofNat 32 s.cmdq.length) ∨
    (∃ k t u, k < s.cmdq.length ∧ Sys2Proof.core.run k s = .next u ∧ faultBit u.status = false ∧
      Sys2Proof.core.run (k + 1) s = .fault (.faulted t) ∧ faultBit t.status = true ∧
      t.fseq = s.seq + BitVec.ofNat 32 k ∧ t.seq = t.fseq ∧ some t.finst = s.cmdq[k]?)

/-! ## Frames and whole-machine rules -/

/-- R22: a command writes no operand register but the one its row names as `rd`. -/
def Obligations.RegisterFrame : Prop :=
  ∀ (i : Instr) (s t : State), exec i s = .next t → ∀ r : Reg, destReg i ≠ some r → readReg t r = readReg s r

/-- R39 (writes), R30: a command writes no slot but the one it names, and only if it is one of the commands the "written
by" columns of R31 to R35 name; the numbers of slots and words never change. -/
def Obligations.SlotFrame : Prop :=
  ∀ (i : Instr) (s t : State), exec i s = .next t →
    (∀ (u : UnitName) (n : Nat), ¬WritesSlot i u n → SameSlot s t u n) ∧ configOf t = configOf s

/-- R39 (reads): a command's result does not depend on any slot but the one it names: from two states that agree on that
slot and outside the slots it gives two states that agree on that slot and outside the slots. -/
def Obligations.SlotIndependence : Prop :=
  ∀ (i : Instr) (s s' t t' : State), SameOutsideSlots s s' →
    (∀ u sl, namedSlot i = some (u, sl) → SameSlot s s' u sl.toNat) →
    exec i s = .next t → exec i s' = .next t' →
    SameOutsideSlots t t' ∧ ∀ u sl, namedSlot i = some (u, sl) → SameSlot t t' u sl.toNat

/-- R69, the "writes" column: a command changes no memory word but those it stores to, at the addresses `Safety.stores`
computes from the state the command starts in. -/
def Obligations.MemoryFrame : Prop :=
  ∀ (i : Instr) (s t : State), exec i s = .next t → ∀ a : Nat, ¬StoresTo s i a → memRead t a = memRead s a

/-- R64, R71: `RDM` gives what the last `WRM` to its address stored, all 32 bits, also with a `WRM` to another address in
between. -/
def Obligations.StoreThenLoad : Prop :=
  ∀ (s : State) (ra rb rc rd re : Reg),
    (readReg s ra).toNat < s.memWords → (readReg s rc).toNat < s.memWords → readReg s rc ≠ readReg s ra →
    ∃ t u, exec (.wrm ra rb) s = .next t ∧ exec (.wrm rc rd) t = .next u ∧
      exec (.rdm re ra) u = .next { u with regs := u.regs.set re.toNat (readReg s rb) re.isLt, seq := u.seq + 1 }

/-- R30: `valid` is set by init commands and never cleared by a command. -/
def Obligations.ValidNeverCleared : Prop :=
  ∀ (i : Instr) (s t : State), exec i s = .next t → ∀ n : Nat,
    ((∃ c, s.bq[n]? = some c ∧ c.valid = true) → ∃ c, t.bq[n]? = some c ∧ c.valid = true) ∧
    ((∃ c, s.cas[n]? = some c ∧ c.valid = true) → ∃ c, t.cas[n]? = some c ∧ c.valid = true) ∧
    ((∃ c, s.pt1[n]? = some c ∧ c.valid = true) → ∃ c, t.pt1[n]? = some c ∧ c.valid = true) ∧
    ((∃ c, s.fir[n]? = some c ∧ c.valid = true) → ∃ c, t.fir[n]? = some c ∧ c.valid = true) ∧
    ((∃ c, s.slew[n]? = some c ∧ c.valid = true) → ∃ c, t.slew[n]? = some c ∧ c.valid = true)

/-- R31 to R35, the "written by" columns, field by field: where a command leaves a field with another value, it is one of
the commands named for that field (that it names that slot is `SlotFrame`). -/
def Obligations.FieldWriters : Prop :=
  ∀ (i : Instr) (s t : State), exec i s = .next t → ∀ n : Nat,
    (∀ c d, s.bq[n]? = some c → t.bq[n]? = some d →
      (c.valid ≠ d.valid → opOf i = .bqinitlpf ∨ opOf i = .bqinit ∨ opOf i = .bqrcfir2) ∧
      ((c.sec.b0, c.sec.b1, c.sec.b2, c.sec.a1, c.sec.a2) ≠ (d.sec.b0, d.sec.b1, d.sec.b2, d.sec.a1, d.sec.a2) →
        opOf i = .bqinitlpf ∨ opOf i = .bqinit ∨ opOf i = .bqupd ∨ opOf i = .bqrcfir2) ∧
      ((c.sec.x1, c.sec.x2) ≠ (d.sec.x1, d.sec.x2) →
        opOf i = .bqinitlpf ∨ opOf i = .bqinit ∨ opOf i = .bqrcfir2 ∨ opOf i = .bqdf1 ∨ opOf i = .bqapply) ∧
      ((c.sec.y1, c.sec.y2) ≠ (d.sec.y1, d.sec.y2) →
        opOf i = .bqinitlpf ∨ opOf i = .bqinit ∨ opOf i = .bqrcfir2 ∨ opOf i = .bqdf1)) ∧
    (∀ c d, s.cas[n]? = some c → t.cas[n]? = some d →
      ((c.valid, c.sections) ≠ (d.valid, d.sections) → opOf i = .casinit) ∧
      (∀ j : Fin 6, (c.sec[j].b0, c.sec[j].b1, c.sec[j].b2, c.sec[j].a1, c.sec[j].a2, c.sec[j].y1, c.sec[j].y2) ≠
          (d.sec[j].b0, d.sec[j].b1, d.sec[j].b2, d.sec[j].a1, d.sec[j].a2, d.sec[j].y1, d.sec[j].y2) →
        opOf i = .casinit) ∧
      (∀ j : Fin 6, (c.sec[j].x1, c.sec[j].x2) ≠ (d.sec[j].x1, d.sec[j].x2) →
        (opOf i = .casinit ∨ opOf i = .casapply) ∧ j.val < d.sections.toNat)) ∧
    (∀ c d, s.pt1[n]? = some c → t.pt1[n]? = some d →
      ((c.valid, c.k) ≠ (d.valid, d.k) → opOf i = .pt1init) ∧
      (c.state ≠ d.state → opOf i = .pt1init ∨ opOf i = .pt1apply ∨ opOf i = .wrs)) ∧
    (∀ c d, s.fir[n]? = some c → t.fir[n]? = some d →
      ((c.valid, c.bufBase, c.coefBase, c.bufLength, c.coeffsLength) ≠
          (d.valid, d.bufBase, d.coefBase, d.bufLength, d.coeffsLength) → opOf i = .firinit ∨ opOf i = .firinit2) ∧
      (c.movingSum ≠ d.movingSum → opOf i = .firinit ∨ opOf i = .firinit2 ∨ opOf i = .firupdavg) ∧
      ((c.index, c.count) ≠ (d.index, d.count) → opOf i = .firinit ∨ opOf i = .firinit2 ∨ opOf i = .firupd ∨
        opOf i = .firupdavg ∨ opOf i = .firupdapply)) ∧
    (∀ c d, s.slew[n]? = some c → t.slew[n]? = some d →
      ((c.valid, c.slewLimit, c.threshold) ≠ (d.valid, d.slewLimit, d.threshold) → opOf i = .slewinit) ∧
      (c.state ≠ d.state → opOf i = .slewinit ∨ opOf i = .slewapply))

/-! ## The invariant -/

/-- The state after reset of every legal configuration meets the invariant. -/
def Obligations.ResetInv : Prop := (∀ c : Config, c.Legal → Inv (State.resetWith c)) ∧ Inv State.reset

/-- Every step keeps the invariant: slot fields in the ranges of R32, R34, R38, regions inside memory (R180), invalid
slots at their reset values (R37), the fault registers consistent (R36, R213), memory in its canonical form. It holds of
the next state, and of the faulted state that a fault outcome carries. -/
def Obligations.StepKeepsInv : Prop :=
  ∀ s t : State, Inv s → (step s = .next t → Inv t) ∧ (step s = .fault (.faulted t) → Inv t)

/-- The host's interactions keep the invariant too (R50, R53, R241, R242). -/
def Obligations.HostKeepsInv : Prop :=
  ∀ s : State, Inv s →
    (∀ w t, send w s = some t → Inv t) ∧ Inv (hostReset s) ∧ ∀ landed, Inv (hostResetDuring landed s)

/-- R66, R180: where the invariant holds, a command that makes no fault stores inside data memory, and a valid FIR slot's
samples and coefficients lie inside it. -/
def Obligations.AddressesInRange : Prop :=
  ∀ s : State, Inv s →
    (∀ i a, firstFailure s i = none → StoresTo s i a → a < s.memWords) ∧
    (∀ f ∈ s.fir, f.valid = true →
      (∀ k < f.bufLength.toNat, bufAddr f k < s.memWords ∧ sampleAddr f k < s.memWords) ∧
      (∀ k < f.coeffsLength.toNat, coefAddr f k < s.memWords) ∧ lastAddr f < s.memWords)

/-! ## Reset and the host's ports -/

/-- R40, R24: after reset every register, every fault register and every field of every slot of the state space is 0, the
queue is empty, no word of memory has been written, and the sequencer waits. -/
def Obligations.ResetContents : Prop :=
  ∀ c : Config,
    let s := State.resetWith c
    (∀ r, readReg s r = 0x00000000) ∧
    s.seq = 0 ∧ s.status = 0 ∧ s.cause = 0 ∧ s.fseq = 0 ∧ s.finst = 0 ∧ s.finfo = 0 ∧
    (∀ f n v, readField s f n = some v → v = 0 ∨ f = .core .coreid ∨ f = .core .cfgSlots ∨ f = .core .cfgMem) ∧
    (s.bq.length = c.nBq ∧ s.cas.length = c.nCas ∧ s.pt1.length = c.nPt1 ∧ s.fir.length = c.nFir ∧
      s.slew.length = c.nSlew) ∧
    s.cmdq = [] ∧ (∀ a, memRead s a = Config.memInit a) ∧ step s = .next s

/-- R241: reset from any state gives every item its reset value, keeps data memory and the constants, and leaves
`busy = 0`, `fault = 0`, `cmd_ready = 1`. -/
def Obligations.HostResetState : Prop :=
  ∀ s : State, 1 ≤ s.cmdqDepth →
    let t := hostReset s
    (∀ r, readReg t r = 0x00000000) ∧ t.seq = 0 ∧ t.status = 0 ∧ t.cause = 0 ∧ t.fseq = 0 ∧ t.finst = 0 ∧ t.finfo = 0 ∧
    (∀ b ∈ t.bq, b = ⟨false, ⟨0, 0, 0, 0, 0, 0, 0, 0, 0⟩⟩) ∧
    (∀ b ∈ t.cas, b.valid = false ∧ b.sections = 0 ∧ ∀ i : Fin 6, b.sec[i] = ⟨0, 0, 0, 0, 0, 0, 0, 0, 0⟩) ∧
    (∀ b ∈ t.pt1, b = ⟨false, 0, 0⟩) ∧
    (∀ b ∈ t.fir, b = ⟨false, 0, 0, 0, 0, 0, 0, 0⟩) ∧
    (∀ b ∈ t.slew, b = ⟨false, 0, 0, 0⟩) ∧
    (∀ a, memRead t a = memRead s a) ∧ configOf t = configOf s ∧
    busy t = false ∧ faultLine t = false ∧ cmdReady t = true

/-- R242: after a reset during a command every word of memory holds its old value, or is one of the words that command
writes and holds its new value; everything else is as after any reset. Which words land is the argument (log entry 16). -/
def Obligations.ResetMidCommand : Prop :=
  ∀ (s : State) (landed : List Nat),
    let t := hostResetDuring landed s
    { t with mem := s.mem } = hostReset s ∧
    ∀ a, memRead t a = memRead s a ∨
      ∃ w rest i u, s.cmdq = w :: rest ∧ decode w = .ok i ∧ StoresTo s i a ∧ step s = .next u ∧
        memRead t a = memRead u a

/-- R51: what the read port gives. Where the spec calls the value unspecified the model gives none (log entry 14). -/
def Obligations.ReadPort : Prop :=
  ∀ s : State,
    ((busy s = false ∨ faultLine s = true) →
      (∀ r : Reg, hostRead s (r.setWidth 5) = some (readReg s r)) ∧ hostRead s 22 = some s.seq) ∧
    ((busy s = true ∧ faultLine s = false) →
      (∀ r : Reg, hostRead s (r.setWidth 5) = none) ∧ hostRead s 22 = none) ∧
    hostRead s 16 = some 0x42464331 ∧ hostRead s 17 = some s.status ∧ hostRead s 18 = some s.cause ∧
    hostRead s 19 = some s.fseq ∧ hostRead s 20 = some s.finst ∧ hostRead s 21 = some s.finfo ∧
    hostRead s 23 = some (cfgSlots s) ∧ hostRead s 24 = some (cfgMem s) ∧
    ∀ a : BitVec 5, 25 ≤ a.toNat → hostRead s a = some 0

/-- R50, R52, R215: words enter the queue in order while it has room (log entry 15) and are dropped after a fault; the
status lines. -/
def Obligations.CommandPort : Prop :=
  ∀ (s : State) (w : Word),
    (s.cmdqDepth ≤ s.cmdq.length → send w s = none) ∧
    (s.cmdq.length < s.cmdqDepth → faultBit s.status = false → send w s = some { s with cmdq := s.cmdq ++ [w] }) ∧
    (s.cmdq.length < s.cmdqDepth → faultBit s.status = true → send w s = some s) ∧
    (busy s = true ↔ s.cmdq ≠ []) ∧ (faultLine s = true ↔ s.status.getLsbD 0 = true)

/-! ## Arithmetic (40_numerics.md) -/

/-- R101: for finite operands whose exact result is defined and non-zero, the four operations give it rounded to nearest,
ties to even, with infinity from `(2 - 2^-24)·2^127` on; `fsub(a, b)` is `fadd(a, fneg(b))`. -/
def Obligations.RoundedArithmetic : Prop :=
  ∀ a b : F32,
    (f32IsFinite a = true → f32IsFinite b = true →
      (f32Real a + f32Real b ≠ 0 → RoundedTo (f32Real a + f32Real b) (fadd a b)) ∧
      (f32Real a - f32Real b ≠ 0 → RoundedTo (f32Real a - f32Real b) (fsub a b)) ∧
      (f32Real a * f32Real b ≠ 0 → RoundedTo (f32Real a * f32Real b) (fmul a b)) ∧
      (f32Real b ≠ 0 → f32Real a / f32Real b ≠ 0 → RoundedTo (f32Real a / f32Real b) (fdiv a b))) ∧
    fsub a b = fadd a (fneg b)

/-- R102, row by row. -/
def Obligations.SpecialResults : Prop :=
  ∀ x y : F32, f32IsNaN x = false → f32IsNaN y = false →
    let sx := f32Neg x != f32Neg y
    (f32IsFinite x = true → f32IsFinite y = true → f32Real x + f32Real y = 0 →
      fadd x y = if x = 0x80000000 ∧ y = 0x80000000 then 0x80000000 else 0x00000000) ∧
    (f32IsFinite x = true → fsub x x = 0x00000000) ∧
    (f32IsFinite y = true → fadd 0x7F800000 y = 0x7F800000 ∧ fadd 0xFF800000 y = 0xFF800000 ∧
      fadd y 0x7F800000 = 0x7F800000 ∧ fadd y 0xFF800000 = 0xFF800000) ∧
    fadd 0x7F800000 0x7F800000 = 0x7F800000 ∧ fadd 0xFF800000 0xFF800000 = 0xFF800000 ∧
    fadd 0x7F800000 0xFF800000 = 0x7FC00000 ∧ fadd 0xFF800000 0x7F800000 = 0x7FC00000 ∧
    fsub 0x7F800000 0x7F800000 = 0x7FC00000 ∧ fsub 0xFF800000 0xFF800000 = 0x7FC00000 ∧
    (((f32IsFinite x = true ∧ f32IsFinite y = true) ∨ (f32Mag x ≠ 0 ∧ f32Mag y ≠ 0)) → f32Neg (fmul x y) = sx) ∧
    (f32Mag x = 0 → f32IsFinite y = true →
      fmul x y = (if sx then 0x80000000 else 0x00000000) ∧ fmul y x = (if sx then 0x80000000 else 0x00000000)) ∧
    (f32IsInf x = true → f32Mag y ≠ 0 →
      fmul x y = (if sx then 0xFF800000 else 0x7F800000) ∧ fmul y x = (if sx then 0xFF800000 else 0x7F800000)) ∧
    (f32Mag x = 0 → f32IsInf y = true → fmul x y = 0x7FC00000 ∧ fmul y x = 0x7FC00000) ∧
    (f32IsFinite y = true → f32Mag y ≠ 0 → f32IsFinite x = true → f32Neg (fdiv x y) = sx) ∧
    (f32IsFinite y = true → f32Mag y ≠ 0 → f32Mag x = 0 → fdiv x y = if sx then 0x80000000 else 0x00000000) ∧
    (f32Mag y = 0 → f32Mag x ≠ 0 → fdiv x y = if sx then 0xFF800000 else 0x7F800000) ∧
    (f32Mag x = 0 → f32Mag y = 0 → fdiv x y = 0x7FC00000) ∧
    (f32IsInf x = true → f32IsInf y = true → fdiv x y = 0x7FC00000) ∧
    (f32IsFinite x = true → f32IsInf y = true → fdiv x y = if sx then 0x80000000 else 0x00000000) ∧
    (f32IsInf x = true → f32IsFinite y = true → fdiv x y = if sx then 0xFF800000 else 0x7F800000)

/-- R103: a NaN operand or an invalid operation of R102 gives the canonical quiet NaN, and no operation gives any other NaN.
A NaN in a recursive filter state stays: in a PT1 state; in a moving sum; in any of the four DF1 fields, from where the
output and `y1` are NaN at once; in the DF2T field `x1`, in `x2` one sample later, and so in every section of a cascade,
from where it reaches the output. -/
def Obligations.CanonicalNan : Prop :=
  (∀ a b : F32, (f32IsNaN a = true ∨ f32IsNaN b = true) →
    fadd a b = 0x7FC00000 ∧ fsub a b = 0x7FC00000 ∧ fmul a b = 0x7FC00000 ∧ fdiv a b = 0x7FC00000) ∧
  (∀ a b : F32,
    (f32IsInf a = true → f32IsInf b = true → f32Neg a ≠ f32Neg b → fadd a b = 0x7FC00000) ∧
    (f32IsInf a = true → f32IsInf b = true → f32Neg a = f32Neg b → fsub a b = 0x7FC00000) ∧
    (f32Mag a = 0 → f32IsInf b = true → fmul a b = 0x7FC00000 ∧ fmul b a = 0x7FC00000) ∧
    (f32Mag a = 0 → f32Mag b = 0 → fdiv a b = 0x7FC00000) ∧
    (f32IsInf a = true → f32IsInf b = true → fdiv a b = 0x7FC00000)) ∧
  (∀ a : F32, f32IsNaN a = true → sinf a = 0x7FC00000 ∧ cosf a = 0x7FC00000) ∧
  (∀ a b : F32,
    (f32IsNaN (fadd a b) = true → fadd a b = 0x7FC00000) ∧ (f32IsNaN (fsub a b) = true → fsub a b = 0x7FC00000) ∧
    (f32IsNaN (fmul a b) = true → fmul a b = 0x7FC00000) ∧ (f32IsNaN (fdiv a b) = true → fdiv a b = 0x7FC00000) ∧
    (f32IsNaN (sinf a) = true → sinf a = 0x7FC00000) ∧ (f32IsNaN (cosf a) = true → cosf a = 0x7FC00000)) ∧
  (∀ (p : Pt1Slot) (x : F32), f32IsNaN p.state = true → pt1Next p x = 0x7FC00000) ∧
  (∀ (f : FirSlot) (old x : F32), f32IsNaN f.movingSum = true → (firPushedAvg f old x).movingSum = 0x7FC00000) ∧
  (∀ (S : Section) (x : F32),
    (f32IsNaN S.x1 = true ∨ f32IsNaN S.x2 = true ∨ f32IsNaN S.y1 = true ∨ f32IsNaN S.y2 = true) →
    (df1 S x).1 = 0x7FC00000 ∧ f32IsNaN (df1 S x).2.y1 = true) ∧
  (∀ (S : Section) (x : F32),
    (f32IsNaN S.x1 = true → (df2t S x).1 = 0x7FC00000 ∧ f32IsNaN (df2t S x).2.x1 = true) ∧
    (f32IsNaN S.x2 = true → f32IsNaN (df2t S x).2.x1 = true)) ∧
  (∀ (c : CasSlot) (x : F32) (j : Fin 6), c.sections.toNat ≤ 6 → j.val < c.sections.toNat →
    (f32IsNaN c.sec[j].x1 = true →
      (casApply c x).1 = 0x7FC00000 ∧
      ∀ k : Fin 6, j ≤ k → k.val < c.sections.toNat → f32IsNaN (casApply c x).2.sec[k].x1 = true) ∧
    (f32IsNaN c.sec[j].x2 = true → f32IsNaN (casApply c x).2.sec[j].x1 = true))

/-- R105: `fneg` inverts bit 31, `fabs` clears it, and both keep every other bit, on every pattern. -/
def Obligations.SignBitOperations : Prop :=
  ∀ (a : F32) (k : Nat), k < 32 →
    (fneg a).getLsbD k = (if k = 31 then !a.getLsbD 31 else a.getLsbD k) ∧
    (fabs a).getLsbD k = (if k = 31 then false else a.getLsbD k)

/-- R106: false on NaN; otherwise the order of the values, `−0.0` equal to `+0.0`, the infinities at the ends. -/
def Obligations.Comparisons : Prop :=
  ∀ a b : F32,
    ((f32IsNaN a = true ∨ f32IsNaN b = true) → fgt a b = false ∧ flt a b = false ∧ fle a b = false) ∧
    (f32IsNaN a = false → f32IsNaN b = false →
      (fgt a b = true ↔ f32Order a > f32Order b) ∧ (flt a b = true ↔ f32Order a < f32Order b) ∧
      (fle a b = true ↔ f32Order a ≤ f32Order b)) ∧
    f32Order 0x80000000 = f32Order 0x00000000

/-- R109: `SINF` and `COSF` have properties (b), (c), (d); (a) holds because they are functions of the operand. And the
model assumes nothing more: every function with (b), (c), (d) is the cut of itself. -/
def Obligations.SineCosine : Prop :=
  (∀ a : F32, f32IsFinite a = false → sinf a = 0x7FC00000 ∧ cosf a = 0x7FC00000) ∧
  (∀ a : F32, f32IsFinite a = true →
    (f32IsNaN (sinf a) = false ∧ f32IsFinite (sinf a) = true ∧ |f32Real (sinf a)| ≤ 1) ∧
    (f32IsNaN (cosf a) = false ∧ f32IsFinite (cosf a) = true ∧ |f32Real (cosf a)| ≤ 1)) ∧
  sinf 0x00000000 = 0x00000000 ∧ cosf 0x00000000 = 0x3F800000 ∧
  (∀ (f : F32 → F32) (z : F32), f 0x00000000 = z → (∀ a, f32IsFinite a = false → f a = 0x7FC00000) →
    (∀ a, f32IsFinite a = true → f32IsFinite (f a) = true ∧ |f32Real (f a)| ≤ 1) → ∀ a, trigOf f z a = f a)

/-- R110: `u2f(n)` is the exact integer rounded, exact up to 2^24, with the three values the rule names. -/
def Obligations.UnsignedConversion : Prop :=
  (∀ n : Word, n ≠ 0 → RoundedTo (n.toNat : ℚ) (u2f n)) ∧
  (∀ n : Word, n.toNat ≤ 2 ^ 24 → f32IsFinite (u2f n) = true ∧ f32Real (u2f n) = (n.toNat : ℚ)) ∧
  u2f 0 = 0x00000000 ∧ u2f 16777217 = 0x4B800000 ∧ u2f 4294967295 = 0x4F800000

/-! ## Base commands (41_base.md) -/

/-- R120 to R123: `NOP`, `LIH`, `LIL`, `MOV`, with their encodings. They complete in every state. -/
def Obligations.MoveCommands : Prop :=
  ∀ (rd ra : Reg) (imm : BitVec 16) (s : State),
    IllegalUnless 0x01 0xFFFFFFFF ∧ IllegalUnless 0x02 0xFFF00000 ∧
    encode .nop = 0x01000000 ∧ encode (.lih rd imm) = 0x02#8 ++ 0#4 ++ rd ++ imm ∧
    IllegalUnless 0x03 0xFFF00000 ∧ IllegalUnless 0x04 0xFFF00FFF ∧
    encode (.lil rd imm) = 0x03#8 ++ 0#4 ++ rd ++ imm ∧ encode (.mov rd ra) = 0x04#8 ++ 0#4 ++ rd ++ ra ++ 0#12 ∧
    exec .nop s = .next { s with seq := s.seq + 1 } ∧
    exec (.lih rd imm) s = .next { s with regs := s.regs.set rd.toNat (imm ++ 0x0000#16) rd.isLt, seq := s.seq + 1 } ∧
    exec (.lil rd imm) s = .next
      { s with regs := s.regs.set rd.toNat ((readReg s rd).extractLsb' 16 16 ++ imm) rd.isLt, seq := s.seq + 1 } ∧
    exec (.mov rd ra) s = .next { s with regs := s.regs.set rd.toNat (readReg s ra) rd.isLt, seq := s.seq + 1 }

/-- R124, R125: `RDM`, `WRM`, with their encodings and their one check. -/
def Obligations.MemoryCommands : Prop :=
  ∀ (rd ra rb : Reg) (s : State),
    IllegalUnless 0x05 0xFFF00FFF ∧ IllegalUnless 0x06 0xFFFF00FF ∧
    encode (.rdm rd ra) = 0x05#8 ++ 0#4 ++ rd ++ ra ++ 0#12 ∧ encode (.wrm ra rb) = 0x06#8 ++ 0#8 ++ ra ++ rb ++ 0#8 ∧
    (s.memWords ≤ (readReg s ra).toNat →
      FaultsWith .memRange (readReg s ra) (.rdm rd ra) s ∧ FaultsWith .memRange (readReg s ra) (.wrm ra rb) s) ∧
    ((readReg s ra).toNat < s.memWords →
      exec (.rdm rd ra) s = .next
        { s with regs := s.regs.set rd.toNat (memRead s (readReg s ra).toNat) rd.isLt, seq := s.seq + 1 } ∧
      ∃ t, exec (.wrm ra rb) s = .next t ∧ { t with mem := s.mem } = { s with seq := s.seq + 1 } ∧
        ∀ a, memRead t a = if a = (readReg s ra).toNat then readReg s rb else memRead s a)

/-- R126 with the table of 10_state.md R36 and R37: the defined pairs, the value of each, `Illegal` on every other pair,
`SlotRange` on a slot the unit does not have. -/
def Obligations.ReadStateSpace : Prop :=
  ∀ (s : State) (sl : SlotNo),
    IllegalUnless 0x07 0xFF00F000 ∧
    (∀ rd un fld, encode (.rds sl rd un fld) = 0x07#8 ++ sl ++ rd ++ 0#4 ++ un ++ fld) ∧
    (∀ (un : BitVec 4) (fld : BitVec 8), fieldPairDefined un fld = true ↔
      (un = 0 ∧ fld.toNat ≤ 8) ∨ (un = 1 ∧ fld.toNat ≤ 9) ∨
      (un = 2 ∧ (fld.toNat ≤ 1 ∨ ∃ i < 6, ∃ j, 1 ≤ j ∧ j ≤ 9 ∧ fld.toNat = 16 * (i + 1) + j)) ∨
      (un = 3 ∧ fld.toNat ≤ 2) ∨ (un = 4 ∧ fld.toNat ≤ 7) ∨ (un = 5 ∧ fld.toNat ≤ 3)) ∧
    (∀ rd un fld, fieldPairDefined un fld = false →
      FaultsWith .illegal (encode (.rds sl rd un fld)) (.rds sl rd un fld) s) ∧
    (∀ rd un fld, fieldPairDefined un fld = true → unitSlots s un ≤ sl.toNat →
      FaultsWith .slotRange (sl.setWidth 32) (.rds sl rd un fld) s) ∧
    (RdsGives s 0 0 0x00 0x42464331 ∧ RdsGives s 0 0 0x01 s.status ∧ RdsGives s 0 0 0x02 s.cause ∧
      RdsGives s 0 0 0x03 s.fseq ∧ RdsGives s 0 0 0x04 s.finst ∧ RdsGives s 0 0 0x05 s.finfo ∧
      RdsGives s 0 0 0x06 s.seq ∧
      ((configOf s).Legal → RdsGives s 0 0 0x07 (BitVec.ofNat 32 (s.bq.length + 2 ^ 5 * s.cas.length +
        2 ^ 10 * s.pt1.length + 2 ^ 15 * s.fir.length + 2 ^ 20 * s.slew.length))) ∧
      RdsGives s 0 0 0x08 (BitVec.ofNat 32 s.memWords)) ∧
    (∀ b, s.bq[sl.toNat]? = some b →
      RdsGives s 1 sl 0x00 (if b.valid then 1 else 0) ∧ RdsGives s 1 sl 0x01 b.sec.b0 ∧
      RdsGives s 1 sl 0x02 b.sec.b1 ∧ RdsGives s 1 sl 0x03 b.sec.b2 ∧ RdsGives s 1 sl 0x04 b.sec.a1 ∧
      RdsGives s 1 sl 0x05 b.sec.a2 ∧ RdsGives s 1 sl 0x06 b.sec.x1 ∧ RdsGives s 1 sl 0x07 b.sec.x2 ∧
      RdsGives s 1 sl 0x08 b.sec.y1 ∧ RdsGives s 1 sl 0x09 b.sec.y2) ∧
    (∀ c, s.cas[sl.toNat]? = some c →
      RdsGives s 2 sl 0x00 (if c.valid then 1 else 0) ∧ RdsGives s 2 sl 0x01 c.sections ∧
      ∀ i : Fin 6,
        let fld (j : Nat) : BitVec 8 := BitVec.ofNat 8 (0x10 * (i.val + 1) + j)
        RdsGives s 2 sl (fld 1) c.sec[i].b0 ∧ RdsGives s 2 sl (fld 2) c.sec[i].b1 ∧
        RdsGives s 2 sl (fld 3) c.sec[i].b2 ∧ RdsGives s 2 sl (fld 4) c.sec[i].a1 ∧
        RdsGives s 2 sl (fld 5) c.sec[i].a2 ∧ RdsGives s 2 sl (fld 6) c.sec[i].x1 ∧
        RdsGives s 2 sl (fld 7) c.sec[i].x2 ∧ RdsGives s 2 sl (fld 8) c.sec[i].y1 ∧
        RdsGives s 2 sl (fld 9) c.sec[i].y2) ∧
    (∀ p, s.pt1[sl.toNat]? = some p →
      RdsGives s 3 sl 0x00 (if p.valid then 1 else 0) ∧ RdsGives s 3 sl 0x01 p.state ∧ RdsGives s 3 sl 0x02 p.k) ∧
    (∀ f, s.fir[sl.toNat]? = some f →
      RdsGives s 4 sl 0x00 (if f.valid then 1 else 0) ∧ RdsGives s 4 sl 0x01 f.bufBase ∧
      RdsGives s 4 sl 0x02 f.coefBase ∧ RdsGives s 4 sl 0x03 f.movingSum ∧ RdsGives s 4 sl 0x04 f.index ∧
      RdsGives s 4 sl 0x05 f.count ∧ RdsGives s 4 sl 0x06 f.bufLength ∧ RdsGives s 4 sl 0x07 f.coeffsLength) ∧
    (∀ c, s.slew[sl.toNat]? = some c →
      RdsGives s 5 sl 0x00 (if c.valid then 1 else 0) ∧ RdsGives s 5 sl 0x01 c.state ∧
      RdsGives s 5 sl 0x02 c.slewLimit ∧ RdsGives s 5 sl 0x03 c.threshold)

/-- R127: `WRS`, its three checks in order and its one write. -/
def Obligations.WriteStateSpace : Prop :=
  ∀ (sl : SlotNo) (ra : Reg) (un : BitVec 4) (fld : BitVec 8) (s : State),
    IllegalUnless 0x08 0xFF0F0000 ∧
    encode (.wrs sl ra un fld) = 0x08#8 ++ sl ++ 0#4 ++ ra ++ un ++ fld ∧
    (fieldPairDefined un fld = false → FaultsWith .illegal (encode (.wrs sl ra un fld)) (.wrs sl ra un fld) s) ∧
    (fieldPairDefined un fld = true → unitSlots s un ≤ sl.toNat →
      FaultsWith .slotRange (sl.setWidth 32) (.wrs sl ra un fld) s) ∧
    (fieldPairDefined un fld = true → sl.toNat < unitSlots s un → ¬(un = 3 ∧ fld = 0x01) →
      FaultsWith .stateAccess (BitVec.ofNat 32 (un.toNat * 256 + fld.toNat)) (.wrs sl ra un fld) s) ∧
    (∀ p, s.pt1[sl.toNat]? = some p →
      exec (.wrs sl ra 3 0x01) s = .next
        { s with pt1 := s.pt1.set sl.toNat { p with state := readReg s ra }, seq := s.seq + 1 })

/-! ## Biquad (42_biquad.md) -/

/-- R141: the coefficient derivation, each row in the order of its pseudocode; `LPF1` does not read `Q`. -/
def Obligations.CoefficientDerivation : Prop :=
  ∀ freq rate Q Q' : F32,
    let omega := fdiv (fmul 0x40C90FDB freq) rate
    let sn := sinf omega
    let cs := cosf omega
    let quot (a0 b : F32) : F32 := fdiv b a0
    (let K := fdiv sn (fadd 0x3F800000 cs)
      let ra0 := fadd K 0x3F800000
      bqCoef freq rate Q .lpf1 =
          ⟨quot ra0 K, quot ra0 K, quot ra0 0x00000000, quot ra0 (fsub K 0x3F800000), quot ra0 0x00000000⟩ ∧
        bqCoef freq rate Q .lpf1 = bqCoef freq rate Q' .lpf1) ∧
    (let alpha := fdiv sn (fmul 0x40000000 Q)
      let ra0 := fadd 0x3F800000 alpha
      let ra1 := fmul 0xC0000000 cs
      let ra2 := fsub 0x3F800000 alpha
      let rb1 := fsub 0x3F800000 cs
      let rb0 := fmul rb1 0x3F000000
      bqCoef freq rate Q .lpf = ⟨quot ra0 rb0, quot ra0 rb1, quot ra0 rb0, quot ra0 ra1, quot ra0 ra2⟩ ∧
        bqCoef freq rate Q .notch =
          ⟨quot ra0 0x3F800000, quot ra0 (fmul 0xC0000000 cs), quot ra0 0x3F800000, quot ra0 ra1, quot ra0 ra2⟩ ∧
        bqCoef freq rate Q .bpf =
          ⟨quot ra0 alpha, quot ra0 0x00000000, quot ra0 (fneg alpha), quot ra0 ra1, quot ra0 ra2⟩)

/-- R142, R143 with the checks of R140: `BQINITLPF` and `BQINIT`, with the type codes of R88. -/
def Obligations.BiquadInit : Prop :=
  ∀ (sl : SlotNo) (ra rb rc : Reg) (ty : FilterType) (s : State),
    let fresh (c : Coefs) : BqSlot := ⟨true, ⟨c.b0, c.b1, c.b2, c.a1, c.a2, 0, 0, 0, 0⟩⟩
    IllegalUnless 0x10 0xFF0F00FF ∧
    encode (.bqinitlpf sl ra rb) = 0x10#8 ++ sl ++ 0#4 ++ ra ++ rb ++ 0#8 ∧
    IllegalUnless 0x11 0xFF0F000C ∧
    encode (.bqinit sl ra rb rc .lpf) = 0x11#8 ++ sl ++ 0#4 ++ ra ++ rb ++ rc ++ 0#4 ∧
    encode (.bqinit sl ra rb rc .notch) = 0x11#8 ++ sl ++ 0#4 ++ ra ++ rb ++ rc ++ 1#4 ∧
    encode (.bqinit sl ra rb rc .bpf) = 0x11#8 ++ sl ++ 0#4 ++ ra ++ rb ++ rc ++ 2#4 ∧
    encode (.bqinit sl ra rb rc .lpf1) = 0x11#8 ++ sl ++ 0#4 ++ ra ++ rb ++ rc ++ 3#4 ∧
    (s.bq.length ≤ sl.toNat → FaultsWith .slotRange (sl.setWidth 32) (.bqinitlpf sl ra rb) s ∧
      FaultsWith .slotRange (sl.setWidth 32) (.bqinit sl ra rb rc ty) s) ∧
    (sl.toNat < s.bq.length →
      exec (.bqinitlpf sl ra rb) s = .next
        { s with bq := s.bq.set sl.toNat (fresh (bqCoef (readReg s ra) (readReg s rb) 0x3F3504F3 .lpf)),
                 seq := s.seq + 1 } ∧
      exec (.bqinit sl ra rb rc ty) s = .next
        { s with bq := s.bq.set sl.toNat (fresh (bqCoef (readReg s ra) (readReg s rb) (readReg s rc) ty)),
                 seq := s.seq + 1 })

/-- R144: `BQUPD` gives new coefficients and keeps the four state fields and `valid`; the type codes of R88. -/
def Obligations.BiquadUpdate : Prop :=
  ∀ (sl : SlotNo) (ra rb rc : Reg) (ty : FilterType) (s : State),
    IllegalUnless 0x12 0xFF0F000C ∧
    encode (.bqupd sl ra rb rc .lpf) = 0x12#8 ++ sl ++ 0#4 ++ ra ++ rb ++ rc ++ 0#4 ∧
    encode (.bqupd sl ra rb rc .notch) = 0x12#8 ++ sl ++ 0#4 ++ ra ++ rb ++ rc ++ 1#4 ∧
    encode (.bqupd sl ra rb rc .bpf) = 0x12#8 ++ sl ++ 0#4 ++ ra ++ rb ++ rc ++ 2#4 ∧
    encode (.bqupd sl ra rb rc .lpf1) = 0x12#8 ++ sl ++ 0#4 ++ ra ++ rb ++ rc ++ 3#4 ∧
    (s.bq.length ≤ sl.toNat → FaultsWith .slotRange (sl.setWidth 32) (.bqupd sl ra rb rc ty) s) ∧
    (∀ b, s.bq[sl.toNat]? = some b → b.valid = false →
      FaultsWith .notInit (sl.setWidth 32) (.bqupd sl ra rb rc ty) s) ∧
    (∀ b, s.bq[sl.toNat]? = some b → b.valid = true →
      let c := bqCoef (readReg s ra) (readReg s rb) (readReg s rc) ty
      exec (.bqupd sl ra rb rc ty) s = .next
        { s with
          bq := s.bq.set sl.toNat
            ⟨true, ⟨c.b0, c.b1, c.b2, c.a1, c.a2, b.sec.x1, b.sec.x2, b.sec.y1, b.sec.y2⟩⟩
          seq := s.seq + 1 })

/-- R145: `BQRCFIR2`. -/
def Obligations.BiquadRcfir2 : Prop :=
  ∀ (sl : SlotNo) (ra : Reg) (s : State),
    let k := readReg s ra
    IllegalUnless 0x16 0xFF0F0FFF ∧
    encode (.bqrcfir2 sl ra) = 0x16#8 ++ sl ++ 0#4 ++ ra ++ 0#12 ∧
    (s.bq.length ≤ sl.toNat → FaultsWith .slotRange (sl.setWidth 32) (.bqrcfir2 sl ra) s) ∧
    (sl.toNat < s.bq.length →
      exec (.bqrcfir2 sl ra) s = .next
        { s with
          bq := s.bq.set sl.toNat
            ⟨true, ⟨fmul k 0x3F000000, fmul k 0x3F000000, 0, fneg (fsub 0x3F800000 k), 0, 0, 0, 0, 0⟩⟩
          seq := s.seq + 1 })

/-- R146: `BQDF1`, the direct-form-1 recurrence in the order of its pseudocode. -/
def Obligations.BiquadDf1 : Prop :=
  ∀ (sl : SlotNo) (rd ra : Reg) (s : State),
    IllegalUnless 0x13 0xFF000FFF ∧
    encode (.bqdf1 sl rd ra) = 0x13#8 ++ sl ++ rd ++ ra ++ 0#12 ∧
    (s.bq.length ≤ sl.toNat → FaultsWith .slotRange (sl.setWidth 32) (.bqdf1 sl rd ra) s) ∧
    (∀ b, s.bq[sl.toNat]? = some b → b.valid = false →
      FaultsWith .notInit (sl.setWidth 32) (.bqdf1 sl rd ra) s) ∧
    (∀ b, s.bq[sl.toNat]? = some b → b.valid = true →
      let S := b.sec
      let x := readReg s ra
      let t := fsub (fsub (fadd (fadd (fmul S.b0 x) (fmul S.b1 S.x1)) (fmul S.b2 S.x2)) (fmul S.a1 S.y1))
        (fmul S.a2 S.y2)
      exec (.bqdf1 sl rd ra) s = .next
        { s with
          regs := s.regs.set rd.toNat t rd.isLt
          bq := s.bq.set sl.toNat ⟨true, ⟨S.b0, S.b1, S.b2, S.a1, S.a2, x, S.x1, t, S.y1⟩⟩
          seq := s.seq + 1 })

/-- R147: `BQAPPLY`, the direct-form-2-transposed recurrence in the order of its pseudocode. -/
def Obligations.BiquadApply : Prop :=
  ∀ (sl : SlotNo) (rd ra : Reg) (s : State),
    IllegalUnless 0x14 0xFF000FFF ∧
    encode (.bqapply sl rd ra) = 0x14#8 ++ sl ++ rd ++ ra ++ 0#12 ∧
    (s.bq.length ≤ sl.toNat → FaultsWith .slotRange (sl.setWidth 32) (.bqapply sl rd ra) s) ∧
    (∀ b, s.bq[sl.toNat]? = some b → b.valid = false →
      FaultsWith .notInit (sl.setWidth 32) (.bqapply sl rd ra) s) ∧
    (∀ b, s.bq[sl.toNat]? = some b → b.valid = true → ∃ r S', IsDf2t b.sec (readReg s ra) r S' ∧
      exec (.bqapply sl rd ra) s = .next
        { s with
          regs := s.regs.set rd.toNat r rd.isLt
          bq := s.bq.set sl.toNat ⟨true, S'⟩
          seq := s.seq + 1 })

/-- R148: `NOTCHQ` completes in every state with the value of the formula (log entry 12 for `c ≤ f`). -/
def Obligations.NotchQuality : Prop :=
  ∀ (rd ra rb : Reg) (s : State),
    let c := readReg s ra
    let f := readReg s rb
    IllegalUnless 0x15 0xFFF000FF ∧
    encode (.notchq rd ra rb) = 0x15#8 ++ 0#4 ++ rd ++ ra ++ rb ++ 0#8 ∧
    exec (.notchq rd ra rb) s = .next
      { s with
        regs := s.regs.set rd.toNat (fdiv (fmul c f) (fsub (fmul c c) (fmul f f))) rd.isLt
        seq := s.seq + 1 }

/-! ## Cascade (43_cascade.md) -/

/-- R161, R162: `CASINIT`. An order that is zero, odd or above 12 configures no section and leaves the section fields; a
valid one gives section `i` the coefficients of the `i`-th Q of its row of `QTAB` and zero state, for `i < order/2`. -/
def Obligations.CascadeInit : Prop :=
  (qtab 2 = [0x3F3504F3] ∧ qtab 4 = [0x3F0A8BD4, 0x3FA73D75] ∧ qtab 6 = [0x3F0483EE, 0x3F3504F3, 0x3FF746EA] ∧
    qtab 8 = [0x3F0281F7, 0x3F19F1BD, 0x3F6664D7, 0x402406CF] ∧
    qtab 10 = [0x3F019875, 0x3F0FA863, 0x3F3504F3, 0x3F8CF8DC, 0x404C8EFA] ∧
    qtab 12 = [0x3F011AC1, 0x3F0A8BD4, 0x3F215729, 0x3F524353, 0x3FA73D75, 0x4075295A]) ∧
  ∀ (sl : SlotNo) (rd ra rb rc : Reg) (s : State),
    let order := (readReg s ra).toNat
    IllegalUnless 0x20 0xFF00000F ∧
    encode (.casinit sl rd ra rb rc) = 0x20#8 ++ sl ++ rd ++ ra ++ rb ++ rc ++ 0#4 ∧
    (s.cas.length ≤ sl.toNat → FaultsWith .slotRange (sl.setWidth 32) (.casinit sl rd ra rb rc) s) ∧
    (∀ c, s.cas[sl.toNat]? = some c → (order = 0 ∨ order % 2 = 1 ∨ 12 < order) →
      exec (.casinit sl rd ra rb rc) s = .next
        { s with
          regs := s.regs.set rd.toNat 0 rd.isLt
          cas := s.cas.set sl.toNat { c with valid := true, sections := 0 }
          seq := s.seq + 1 }) ∧
    (∀ c, s.cas[sl.toNat]? = some c → order ≠ 0 → order % 2 = 0 → order ≤ 12 →
      (qtab order).length = order / 2 ∧
      ∃ sec' : Vector Section 6,
        exec (.casinit sl rd ra rb rc) s = .next
          { s with
            regs := s.regs.set rd.toNat (BitVec.ofNat 32 (order / 2)) rd.isLt
            cas := s.cas.set sl.toNat ⟨true, BitVec.ofNat 32 (order / 2), sec'⟩
            seq := s.seq + 1 } ∧
        ∀ i : Fin 6,
          (∀ Q, (qtab order)[i.val]? = some Q →
            let k := bqCoef (readReg s rb) (readReg s rc) Q .lpf
            sec'[i] = ⟨k.b0, k.b1, k.b2, k.a1, k.a2, 0, 0, 0, 0⟩) ∧
          ((qtab order)[i.val]? = none → sec'[i] = c.sec[i]))

/-- R163: `CASAPPLY` feeds the input through the sections in order, each output the next input; with no section the 32
input bits come back. A slot's `sections` is at most 6 (R32). -/
def Obligations.CascadeApply : Prop :=
  ∀ (sl : SlotNo) (rd ra : Reg) (s : State),
    IllegalUnless 0x21 0xFF000FFF ∧
    encode (.casapply sl rd ra) = 0x21#8 ++ sl ++ rd ++ ra ++ 0#12 ∧
    (s.cas.length ≤ sl.toNat → FaultsWith .slotRange (sl.setWidth 32) (.casapply sl rd ra) s) ∧
    (∀ c, s.cas[sl.toNat]? = some c → c.valid = false →
      FaultsWith .notInit (sl.setWidth 32) (.casapply sl rd ra) s) ∧
    (∀ c, s.cas[sl.toNat]? = some c → c.valid = true → c.sections = 0 →
      exec (.casapply sl rd ra) s = .next
        { s with regs := s.regs.set rd.toNat (readReg s ra) rd.isLt, seq := s.seq + 1 }) ∧
    (∀ c, s.cas[sl.toNat]? = some c → c.valid = true → c.sections.toNat ≤ 6 →
      ∃ (v : Nat → F32) (sec' : Vector Section 6),
        v 0 = readReg s ra ∧
        (∀ i : Fin 6, i.val < c.sections.toNat → IsDf2t c.sec[i] (v i.val) (v (i.val + 1)) sec'[i]) ∧
        (∀ i : Fin 6, c.sections.toNat ≤ i.val → sec'[i] = c.sec[i]) ∧
        exec (.casapply sl rd ra) s = .next
          { s with
            regs := s.regs.set rd.toNat (v c.sections.toNat) rd.isLt
            cas := s.cas.set sl.toNat { c with sec := sec' }
            seq := s.seq + 1 })

/-! ## PT1 (44_pt1.md) -/

/-- R171: `PT1GAIN` completes in every state. -/
def Obligations.Pt1Gain : Prop :=
  ∀ (rd ra rb : Reg) (s : State),
    let cut := readReg s ra
    let dt := readReg s rb
    IllegalUnless 0x30 0xFFF000FF ∧
    encode (.pt1gain rd ra rb) = 0x30#8 ++ 0#4 ++ rd ++ ra ++ rb ++ 0#8 ∧
    (fle cut 0x00000000 = true → exec (.pt1gain rd ra rb) s = .next
      { s with regs := s.regs.set rd.toNat 0x3F800000 rd.isLt, seq := s.seq + 1 }) ∧
    (fle cut 0x00000000 = false → exec (.pt1gain rd ra rb) s = .next
      { s with
        regs := s.regs.set rd.toNat (fdiv dt (fadd dt (fdiv 0x3F800000 (fmul 0x40C90FDB cut)))) rd.isLt
        seq := s.seq + 1 })

/-- R172: `PT1INIT`. -/
def Obligations.Pt1Init : Prop :=
  ∀ (sl : SlotNo) (ra : Reg) (s : State),
    IllegalUnless 0x31 0xFF0F0FFF ∧
    encode (.pt1init sl ra) = 0x31#8 ++ sl ++ 0#4 ++ ra ++ 0#12 ∧
    (s.pt1.length ≤ sl.toNat → FaultsWith .slotRange (sl.setWidth 32) (.pt1init sl ra) s) ∧
    (sl.toNat < s.pt1.length →
      exec (.pt1init sl ra) s = .next
        { s with pt1 := s.pt1.set sl.toNat ⟨true, 0x00000000, readReg s ra⟩, seq := s.seq + 1 })

/-- R173: `PT1APPLY`. -/
def Obligations.Pt1Apply : Prop :=
  ∀ (sl : SlotNo) (rd ra : Reg) (s : State),
    IllegalUnless 0x32 0xFF000FFF ∧
    encode (.pt1apply sl rd ra) = 0x32#8 ++ sl ++ rd ++ ra ++ 0#12 ∧
    (s.pt1.length ≤ sl.toNat → FaultsWith .slotRange (sl.setWidth 32) (.pt1apply sl rd ra) s) ∧
    (∀ p, s.pt1[sl.toNat]? = some p → p.valid = false →
      FaultsWith .notInit (sl.setWidth 32) (.pt1apply sl rd ra) s) ∧
    (∀ p, s.pt1[sl.toNat]? = some p → p.valid = true →
      let n := fadd p.state (fmul p.k (fsub (readReg s ra) p.state))
      exec (.pt1apply sl rd ra) s = .next
        { s with
          regs := s.regs.set rd.toNat n rd.isLt
          pt1 := s.pt1.set sl.toNat ⟨true, n, p.k⟩
          seq := s.seq + 1 })

/-! ## FIR (45_fir.md) -/

/-- R181, R182, R183: `FIRINIT` and `FIRINIT2`: the four checks in order, then the buffer zeroed and the slot set.
`FIRINIT` is `FIRINIT2` with `coeffsLength = bufLength`. -/
def Obligations.FirInitialise : Prop :=
  ∀ (sl : SlotNo) (ra rb rc re : Reg) (s : State),
    let bb := readReg s ra
    let bl := readReg s rb
    let cb := readReg s rc
    let Spec (i : Instr) (cl : Word) : Prop :=
      (s.fir.length ≤ sl.toNat → FaultsWith .slotRange (sl.setWidth 32) i s) ∧
      (sl.toNat < s.fir.length →
        (bl = 0 → FaultsWith .firConfig 0 i s) ∧
        (bl ≠ 0 → bl.toNat < cl.toNat → FaultsWith .firConfig cl i s) ∧
        (bl ≠ 0 → cl.toNat ≤ bl.toNat → s.memWords < bb.toNat + bl.toNat → FaultsWith .memRange bb i s) ∧
        (bl ≠ 0 → cl.toNat ≤ bl.toNat → bb.toNat + bl.toNat ≤ s.memWords → s.memWords < cb.toNat + cl.toNat →
          FaultsWith .memRange cb i s) ∧
        (bl ≠ 0 → cl.toNat ≤ bl.toNat → bb.toNat + bl.toNat ≤ s.memWords → cb.toNat + cl.toNat ≤ s.memWords →
          ∃ t, exec i s = .next t ∧
            { t with mem := s.mem } =
              { s with fir := s.fir.set sl.toNat ⟨true, bb, cb, 0x00000000, 0, 0, bl, cl⟩, seq := s.seq + 1 } ∧
            ∀ a, memRead t a = if bb.toNat ≤ a ∧ a < bb.toNat + bl.toNat then 0x00000000 else memRead s a))
    IllegalUnless 0x40 0xFF0F000F ∧
    encode (.firinit sl ra rb rc) = 0x40#8 ++ sl ++ 0#4 ++ ra ++ rb ++ rc ++ 0#4 ∧
    IllegalUnless 0x41 0xFF0F0000 ∧
    encode (.firinit2 sl ra rb rc re) = 0x41#8 ++ sl ++ 0#4 ++ ra ++ rb ++ rc ++ re ∧
    Spec (.firinit sl ra rb rc) bl ∧ Spec (.firinit2 sl ra rb rc re) (readReg s re)

/-- R184: `FIRUPD` writes the sample at `index`, steps `index` and `count`, and touches nothing else. -/
def Obligations.FirUpdate : Prop :=
  ∀ (sl : SlotNo) (ra : Reg) (s : State),
    IllegalUnless 0x42 0xFF0F0FFF ∧
    encode (.firupd sl ra) = 0x42#8 ++ sl ++ 0#4 ++ ra ++ 0#12 ∧
    (s.fir.length ≤ sl.toNat → FaultsWith .slotRange (sl.setWidth 32) (.firupd sl ra) s) ∧
    (∀ f, s.fir[sl.toNat]? = some f → f.valid = false → FaultsWith .notInit (sl.setWidth 32) (.firupd sl ra) s) ∧
    (∀ f, s.fir[sl.toNat]? = some f → f.valid = true → ∃ t, exec (.firupd sl ra) s = .next t ∧
      { t with mem := s.mem } =
        { s with
          fir := s.fir.set sl.toNat
            { f with
              index := if f.index.toNat + 1 < f.bufLength.toNat then f.index + 1 else 0
              count := if f.count.toNat + 1 < f.bufLength.toNat then f.count + 1 else f.bufLength }
          seq := s.seq + 1 } ∧
      ∀ a, memRead t a = if a = f.bufBase.toNat + f.index.toNat then readReg s ra else memRead s a)

/-- R185: `FIRUPDAVG`, as `FIRUPD`, and `movingSum` loses the replaced sample and then gains the new one. -/
def Obligations.FirUpdateAverage : Prop :=
  ∀ (sl : SlotNo) (ra : Reg) (s : State),
    IllegalUnless 0x43 0xFF0F0FFF ∧
    encode (.firupdavg sl ra) = 0x43#8 ++ sl ++ 0#4 ++ ra ++ 0#12 ∧
    (s.fir.length ≤ sl.toNat → FaultsWith .slotRange (sl.setWidth 32) (.firupdavg sl ra) s) ∧
    (∀ f, s.fir[sl.toNat]? = some f → f.valid = false →
      FaultsWith .notInit (sl.setWidth 32) (.firupdavg sl ra) s) ∧
    (∀ f, s.fir[sl.toNat]? = some f → f.valid = true → ∃ t, exec (.firupdavg sl ra) s = .next t ∧
      { t with mem := s.mem } =
        { s with
          fir := s.fir.set sl.toNat
            { f with
              movingSum :=
                fadd (fsub f.movingSum (memRead s (f.bufBase.toNat + f.index.toNat))) (readReg s ra)
              index := if f.index.toNat + 1 < f.bufLength.toNat then f.index + 1 else 0
              count := if f.count.toNat + 1 < f.bufLength.toNat then f.count + 1 else f.bufLength }
          seq := s.seq + 1 } ∧
      ∀ a, memRead t a = if a = f.bufBase.toNat + f.index.toNat then readReg s ra else memRead s a)

/-- R186: `FIRAPPLY` is the convolution sum: the products of coefficient `i` and the sample written `i + 1` updates ago,
added in the order `i = 0, 1, 2, ...` from `+0.0`. `FirOk` is what holds of every slot a run reaches. -/
def Obligations.FirConvolution : Prop :=
  ∀ (sl : SlotNo) (rd : Reg) (s : State),
    IllegalUnless 0x44 0xFF00FFFF ∧
    encode (.firapply sl rd) = 0x44#8 ++ sl ++ rd ++ 0#16 ∧
    (s.fir.length ≤ sl.toNat → FaultsWith .slotRange (sl.setWidth 32) (.firapply sl rd) s) ∧
    (∀ f, s.fir[sl.toNat]? = some f → f.valid = false →
      FaultsWith .notInit (sl.setWidth 32) (.firapply sl rd) s) ∧
    (∀ f, s.fir[sl.toNat]? = some f → f.valid = true → FirOk s.memWords f →
      exec (.firapply sl rd) s = .next
        { s with
          regs := s.regs.set rd.toNat
            ((List.range f.coeffsLength.toNat).foldl (fun acc i =>
              fadd acc (fmul (memRead s (f.coefBase.toNat + i)) (memRead s (sampleAddr f i)))) 0x00000000) rd.isLt
          seq := s.seq + 1 })

/-- R187: `FIRPAVG` is the sum of the `n` newest samples, newest first from `+0.0`, divided by `u2f(n)`. -/
def Obligations.FirPartialAverage : Prop :=
  ∀ (sl : SlotNo) (rd ra : Reg) (s : State),
    let n := readReg s ra
    IllegalUnless 0x45 0xFF000FFF ∧
    encode (.firpavg sl rd ra) = 0x45#8 ++ sl ++ rd ++ ra ++ 0#12 ∧
    (s.fir.length ≤ sl.toNat → FaultsWith .slotRange (sl.setWidth 32) (.firpavg sl rd ra) s) ∧
    (∀ f, s.fir[sl.toNat]? = some f → f.valid = false →
      FaultsWith .notInit (sl.setWidth 32) (.firpavg sl rd ra) s) ∧
    (∀ f, s.fir[sl.toNat]? = some f → f.valid = true → f.bufLength.toNat < n.toNat →
      FaultsWith .firRange n (.firpavg sl rd ra) s) ∧
    (∀ f, s.fir[sl.toNat]? = some f → f.valid = true → FirOk s.memWords f → n.toNat ≤ f.bufLength.toNat →
      exec (.firpavg sl rd ra) s = .next
        { s with
          regs := s.regs.set rd.toNat
            (fdiv ((List.range n.toNat).foldl (fun acc i => fadd acc (memRead s (sampleAddr f i))) 0x00000000)
              (u2f n)) rd.isLt
          seq := s.seq + 1 })

/-- R188: `FIRMAVG` divides `movingSum` by `bufLength`. -/
def Obligations.FirMovingAverage : Prop :=
  ∀ (sl : SlotNo) (rd : Reg) (s : State),
    IllegalUnless 0x46 0xFF00FFFF ∧
    encode (.firmavg sl rd) = 0x46#8 ++ sl ++ rd ++ 0#16 ∧
    (s.fir.length ≤ sl.toNat → FaultsWith .slotRange (sl.setWidth 32) (.firmavg sl rd) s) ∧
    (∀ f, s.fir[sl.toNat]? = some f → f.valid = false →
      FaultsWith .notInit (sl.setWidth 32) (.firmavg sl rd) s) ∧
    (∀ f, s.fir[sl.toNat]? = some f → f.valid = true →
      exec (.firmavg sl rd) s = .next
        { s with regs := s.regs.set rd.toNat (fdiv f.movingSum (u2f f.bufLength)) rd.isLt, seq := s.seq + 1 })

/-- R189: the result and final state of `FIRUPDAPPLY` are exactly those of `FIRUPD` followed by `FIRAPPLY`; only `SEQ`
differs. -/
def Obligations.FirUpdateApply : Prop :=
  ∀ (sl : SlotNo) (rd ra : Reg) (s : State),
    IllegalUnless 0x47 0xFF000FFF ∧
    encode (.firupdapply sl rd ra) = 0x47#8 ++ sl ++ rd ++ ra ++ 0#12 ∧
    (s.fir.length ≤ sl.toNat → FaultsWith .slotRange (sl.setWidth 32) (.firupdapply sl rd ra) s) ∧
    (∀ f, s.fir[sl.toNat]? = some f → f.valid = false →
      FaultsWith .notInit (sl.setWidth 32) (.firupdapply sl rd ra) s) ∧
    (∀ f, s.fir[sl.toNat]? = some f → f.valid = true → ∃ t u,
      exec (.firupd sl ra) s = .next t ∧ exec (.firapply sl rd) t = .next u ∧
      exec (.firupdapply sl rd ra) s = .next { u with seq := s.seq + 1 })

/-- R190: `FIRLAST` gives the newest sample, all 32 bits. -/
def Obligations.FirLastInput : Prop :=
  ∀ (sl : SlotNo) (rd : Reg) (s : State),
    IllegalUnless 0x48 0xFF00FFFF ∧
    encode (.firlast sl rd) = 0x48#8 ++ sl ++ rd ++ 0#16 ∧
    (s.fir.length ≤ sl.toNat → FaultsWith .slotRange (sl.setWidth 32) (.firlast sl rd) s) ∧
    (∀ f, s.fir[sl.toNat]? = some f → f.valid = false →
      FaultsWith .notInit (sl.setWidth 32) (.firlast sl rd) s) ∧
    (∀ f, s.fir[sl.toNat]? = some f → f.valid = true →
      let prev := if 0 < f.index.toNat then f.index.toNat - 1 else f.bufLength.toNat - 1
      exec (.firlast sl rd) s = .next
        { s with regs := s.regs.set rd.toNat (memRead s (f.bufBase.toNat + prev)) rd.isLt, seq := s.seq + 1 })

/-! ## Slew (46_slew.md) -/

/-- R201: `SLEWINIT`. -/
def Obligations.SlewInit : Prop :=
  ∀ (sl : SlotNo) (ra rb : Reg) (s : State),
    IllegalUnless 0x50 0xFF0F00FF ∧
    encode (.slewinit sl ra rb) = 0x50#8 ++ sl ++ 0#4 ++ ra ++ rb ++ 0#8 ∧
    (s.slew.length ≤ sl.toNat → FaultsWith .slotRange (sl.setWidth 32) (.slewinit sl ra rb) s) ∧
    (sl.toNat < s.slew.length →
      exec (.slewinit sl ra rb) s = .next
        { s with slew := s.slew.set sl.toNat ⟨true, 0x00000000, readReg s ra, readReg s rb⟩, seq := s.seq + 1 })

/-- R202: `SLEWAPPLY`: limited downward, limited upward, passed through. -/
def Obligations.SlewApply : Prop :=
  ∀ (sl : SlotNo) (rd ra : Reg) (s : State),
    IllegalUnless 0x51 0xFF000FFF ∧
    encode (.slewapply sl rd ra) = 0x51#8 ++ sl ++ rd ++ ra ++ 0#12 ∧
    (s.slew.length ≤ sl.toNat → FaultsWith .slotRange (sl.setWidth 32) (.slewapply sl rd ra) s) ∧
    (∀ c, s.slew[sl.toNat]? = some c → c.valid = false →
      FaultsWith .notInit (sl.setWidth 32) (.slewapply sl rd ra) s) ∧
    (∀ c, s.slew[sl.toNat]? = some c → c.valid = true →
      let d := fsub (readReg s ra) c.state
      let Gives (out : F32) : Prop :=
        exec (.slewapply sl rd ra) s = .next
          { s with
            regs := s.regs.set rd.toNat out rd.isLt
            slew := s.slew.set sl.toNat { c with state := out }
            seq := s.seq + 1 }
      (fgt (fabs d) c.threshold = true → flt d 0x00000000 = true → Gives (fsub c.state c.slewLimit)) ∧
      (fgt (fabs d) c.threshold = true → flt d 0x00000000 = false → Gives (fadd c.state c.slewLimit)) ∧
      (fgt (fabs d) c.threshold = false → Gives (readReg s ra)))
end

