-- ==== Sys2Proof/Laws/Cascade.lean ====
section
/-! SUPPORT. Everything the loop of `CASAPPLY` does, said once. -/

namespace Sys2Proof.Machine

open Sys2Proof.Safety

/-- Sections `i` to `i + n - 1` are each fed the output before them, the others stay: `v` is the chain of values. -/
theorem casLoop_spec (n i : Nat) (secs : Vector Section 6) (x : F32) (h : i + n ≤ 6) :
    ∃ v : Nat → F32, v i = x ∧ (casLoop n i secs x).1 = v (i + n) ∧
      (∀ j : Fin 6, i ≤ j.val → j.val < i + n →
        IsDf2t secs[j] (v j.val) (v (j.val + 1)) (casLoop n i secs x).2[j]) ∧
      ∀ j : Fin 6, (j.val < i ∨ i + n ≤ j.val) → (casLoop n i secs x).2[j] = secs[j] := by
  induction n generalizing i secs x with
  | zero => exact ⟨fun _ => x, rfl, rfl, fun j h1 h2 => by omega, fun j _ => rfl⟩
  | succ n ih =>
    have e : casLoop (n + 1) i secs x =
        casLoop n (i + 1) (secs.set i (df2t secs[i] x).2) (df2t secs[i] x).1 := by
      rw [casLoop]; exact dif_pos (by omega)
    simp only [e]
    obtain ⟨v, hv, hout, hin, hrest⟩ := ih (i + 1) (secs.set i (df2t secs[i] x).2) (df2t secs[i] x).1 (by omega)
    refine ⟨fun k => if k = i then x else v k, by simp, ?_, ?_, ?_⟩
    · rw [hout]
      simp only [show i + (n + 1) ≠ i by omega, if_false]
      congr 1; omega
    · intro j h1 h2
      rcases Nat.eq_or_lt_of_le h1 with hj | hj
      · rw [hrest j (Or.inl (by omega))]
        subst hj
        simp only [if_true, show j.val + 1 ≠ j.val by omega, if_false, hv, Fin.getElem_fin,
          Vector.getElem_set_self]
        exact ⟨rfl, rfl⟩
      · have := hin j (by omega) (by omega)
        simp only [show j.val ≠ i by omega, show j.val + 1 ≠ i by omega, if_false, Fin.getElem_fin] at this ⊢
        rwa [Vector.getElem_set_ne _ _ (by omega)] at this
    · intro j hj
      rw [hrest j (by omega)]
      simp only [Fin.getElem_fin]
      exact Vector.getElem_set_ne _ _ (by omega)

end Sys2Proof.Machine
end

