-- ==== Sys2Proof/Laws/Decode.lean ====
section
/-! SUPPORT. The parts of decoding and encoding are inverse to each other. -/

namespace Sys2Proof

/-- Cutting a word and joining its fields gives the word back. -/
theorem wordOf_fieldsOf (w : Word) : wordOf (fieldsOf w) = w := by
  apply BitVec.eq_of_getLsbD_eq
  intro k hk
  simp only [wordOf, fieldsOf, BitVec.getLsbD_append, BitVec.getLsbD_extractLsb']
  interval_cases k <;> simp

/-- Joining fields and cutting the word gives the fields back. -/
theorem fieldsOf_wordOf (f : Fields) : fieldsOf (wordOf f) = f := by
  obtain ⟨op, sl, rd, ra, rb, rc, re⟩ := f
  simp only [wordOf, fieldsOf, Fields.mk.injEq]
  refine ⟨?_, ?_, ?_, ?_, ?_, ?_, ?_⟩ <;>
  · apply BitVec.eq_of_getLsbD_eq
    intro k hk
    simp only [BitVec.getLsbD_append, BitVec.getLsbD_extractLsb']
    interval_cases k <;> simp

/-- The bitwise and of two words, field by field. -/
theorem wordOf_and (f g : Fields) : wordOf f &&& wordOf g =
    wordOf ⟨f.op &&& g.op, f.sl &&& g.sl, f.rd &&& g.rd, f.ra &&& g.ra, f.rb &&& g.rb, f.rc &&& g.rc, f.re &&& g.re⟩ := by
  apply BitVec.eq_of_getLsbD_eq
  intro k hk
  simp only [wordOf, BitVec.getLsbD_and, BitVec.getLsbD_append]
  interval_cases k <;> simp

@[simp] theorem opOfByte_opByte (op : Op) : opOfByte (opByte op) = some op := by cases op <;> rfl

theorem opByte_of_opOfByte {b : BitVec 8} {op : Op} (h : opOfByte b = some op) : opByte op = b := by
  revert op
  revert b
  decide

@[simp] theorem typeOfCode_typeCode (ty : FilterType) : typeOfCode (typeCode ty) = some ty := by cases ty <;> rfl

theorem typeCode_of_typeOfCode {re : BitVec 4} {ty : FilterType} (h : typeOfCode re = some ty) : typeCode ty = re := by
  revert ty
  revert re
  decide

/-- The four nibbles of a 16-bit immediate. -/
theorem imm16_nibbles (imm : BitVec 16) :
    imm.extractLsb' 12 4 ++ imm.extractLsb' 8 4 ++ imm.extractLsb' 4 4 ++ imm.extractLsb' 0 4 = imm := by
  apply BitVec.eq_of_getLsbD_eq
  intro k hk
  simp only [BitVec.getLsbD_append, BitVec.getLsbD_extractLsb']
  interval_cases k <;> simp

/-- The two nibbles of an 8-bit field number. -/
theorem fld_nibbles (fld : BitVec 8) : fld.extractLsb' 4 4 ++ fld.extractLsb' 0 4 = fld := by
  apply BitVec.eq_of_getLsbD_eq
  intro k hk
  simp only [BitVec.getLsbD_append, BitVec.getLsbD_extractLsb']
  interval_cases k <;> simp

/-- A 16-bit immediate made of four nibbles has those nibbles. -/
theorem imm16_parts (a b c d : BitVec 4) :
    (a ++ b ++ c ++ d).extractLsb' 12 4 = a ∧ (a ++ b ++ c ++ d).extractLsb' 8 4 = b ∧
    (a ++ b ++ c ++ d).extractLsb' 4 4 = c ∧ (a ++ b ++ c ++ d).extractLsb' 0 4 = d := by
  refine ⟨?_, ?_, ?_, ?_⟩ <;>
  · apply BitVec.eq_of_getLsbD_eq
    intro k hk
    simp only [BitVec.getLsbD_append, BitVec.getLsbD_extractLsb']
    interval_cases k <;> simp

/-- An 8-bit field number made of two nibbles has those nibbles. -/
theorem fld_parts (a b : BitVec 4) : (a ++ b).extractLsb' 4 4 = a ∧ (a ++ b).extractLsb' 0 4 = b := by
  refine ⟨?_, ?_⟩ <;>
  · apply BitVec.eq_of_getLsbD_eq
    intro k hk
    simp only [BitVec.getLsbD_append, BitVec.getLsbD_extractLsb']
    interval_cases k <;> simp

/-! ## Inversion of the decoder's three checks -/

theorem whenZero_eq_ok {op : Op} {z : Bool} {i j : Instr} : whenZero op z i = .ok j ↔ z = true ∧ i = j := by
  cases z <;> simp [whenZero]

theorem withType_eq_ok {op : Op} {re : BitVec 4} {k : FilterType → Except DecodeError Instr} {j : Instr} :
    withType op re k = .ok j ↔ ∃ ty, typeOfCode re = some ty ∧ k ty = .ok j := by
  unfold withType
  cases typeOfCode re <;> simp

theorem whenField_eq_ok {un : BitVec 4} {fld : BitVec 8} {r : Except DecodeError Instr} {j : Instr} :
    whenField un fld r = .ok j ↔ fieldPairDefined un fld = true ∧ r = .ok j := by
  unfold whenField
  cases r with
  | error e => simp
  | ok i => by_cases h : fieldPairDefined un fld = true <;> simp [h]

/-- A decoded word has a row, and that row's decoding gave the command. -/
theorem decode_eq_ok {w : Word} {i : Instr} :
    decode w = .ok i ↔ ∃ op, opOfByte (fieldsOf w).op = some op ∧ decodeRow op (fieldsOf w) = .ok i := by
  unfold decode
  cases opOfByte (fieldsOf w).op <;> simp

end Sys2Proof
end

