-- ==== Sys2Proof/Laws/Memory.lean ====
section
/-! SUPPORT. Data memory: a read after a write, the canonical form, the range, the zeroing loop (20_memory.md R64, R66;
45_fir.md R181). -/

namespace Sys2Proof.Machine

/-! ## Read after write -/

@[simp] theorem Memory.written_write_same (m : Memory) (a : Nat) (v : Word) :
    Memory.written (Memory.write m a v) a = some v := by
  induction m with
  | nil => simp [Memory.write, Memory.written]
  | cons c m ih =>
    obtain ⟨b, w⟩ := c
    unfold Memory.write
    split
    · simp [Memory.written]
    · split
      · simp [Memory.written]
      · rename_i h
        simp [Memory.written, h, ih]

theorem Memory.written_write_other {a b : Nat} (h : b ≠ a) (m : Memory) (v : Word) :
    Memory.written (Memory.write m a v) b = Memory.written m b := by
  induction m with
  | nil => simp [Memory.write, Memory.written, h]
  | cons c m ih =>
    obtain ⟨d, w⟩ := c
    unfold Memory.write
    split
    · simp [Memory.written, h]
    · split
      · rename_i h2
        subst h2
        simp [Memory.written, h]
      · simp [Memory.written, ih]

@[simp] theorem Memory.read_write_same (m : Memory) (a : Nat) (v : Word) :
    Memory.read (Memory.write m a v) a = v := by
  simp [Memory.read]

theorem Memory.read_write_other {a b : Nat} (h : b ≠ a) (m : Memory) (v : Word) :
    Memory.read (Memory.write m a v) b = Memory.read m b := by
  simp [Memory.read, Memory.written_write_other h]

/-! ## The zeroing loop -/

theorem Memory.written_zero (m : Memory) (base n a : Nat) :
    Memory.written (Memory.zero m base n) a =
      if base ≤ a ∧ a < base + n then some 0 else Memory.written m a := by
  induction n with
  | zero => simp [Memory.zero]; try omega
  | succ n ih =>
    by_cases h : a = base + n
    · subst h
      simp [Memory.zero]
    · rw [Memory.zero, Memory.written_write_other h, ih]
      congr 1
      simp only [eq_iff_iff]
      omega

theorem Memory.read_zero_inside (m : Memory) {base n a : Nat} (h₁ : base ≤ a) (h₂ : a < base + n) :
    Memory.read (Memory.zero m base n) a = 0 := by
  simp [Memory.read, Memory.written_zero, h₁, h₂]

theorem Memory.read_zero_outside (m : Memory) {base n a : Nat} (h : ¬(base ≤ a ∧ a < base + n)) :
    Memory.read (Memory.zero m base n) a = Memory.read m a := by
  simp [Memory.read, Memory.written_zero, h]

/-! ## The canonical form -/

/-- The form as a statement about the list: the first address is below every later one, and the rest has the form. -/
theorem Memory.wf_iff_pairwise (m : Memory) : Memory.wf m = true ↔ m.Pairwise (·.1 < ·.1) := by
  induction m with
  | nil => simp [Memory.wf]
  | cons c m ih =>
    cases m with
    | nil => simp [Memory.wf]
    | cons d m =>
      obtain ⟨a, v⟩ := c
      obtain ⟨b, w⟩ := d
      simp only [Memory.wf, Bool.and_eq_true, decide_eq_true_eq, ih, List.pairwise_cons, List.mem_cons]
      constructor
      · rintro ⟨hab, hm⟩
        refine ⟨?_, hm⟩
        rintro x (rfl | hx)
        · exact hab
        · exact lt_trans hab (hm.1 x hx)
      · rintro ⟨hab, hm⟩
        exact ⟨hab (b, w) (Or.inl rfl), hm⟩

/-- The cells after a write are the new cell and old cells at other addresses. -/
theorem Memory.mem_write {m : Memory} {a : Nat} {v : Word} {c : Nat × Word} (h : c ∈ Memory.write m a v) :
    c = (a, v) ∨ c ∈ m := by
  induction m with
  | nil => simpa [Memory.write] using h
  | cons d m ih =>
    obtain ⟨b, w⟩ := d
    unfold Memory.write at h
    split at h
    · simpa using h
    · split at h
      · rcases List.mem_cons.1 h with h | h
        · exact Or.inl h
        · exact Or.inr (List.mem_cons_of_mem _ h)
      · rcases List.mem_cons.1 h with h | h
        · exact Or.inr (h ▸ List.mem_cons_self)
        · exact (ih h).imp_right (List.mem_cons_of_mem _)

/-- A write keeps the canonical form. -/
theorem Memory.wf_write {m : Memory} (h : Memory.wf m = true) (a : Nat) (v : Word) :
    Memory.wf (Memory.write m a v) = true := by
  rw [Memory.wf_iff_pairwise] at h ⊢
  induction m with
  | nil => simp [Memory.write]
  | cons d m ih =>
    obtain ⟨b, w⟩ := d
    rw [List.pairwise_cons] at h
    unfold Memory.write
    split
    · rename_i hab
      refine List.pairwise_cons.2 ⟨?_, List.pairwise_cons.2 h⟩
      intro c hc
      rcases List.mem_cons.1 hc with rfl | hc
      · exact hab
      · exact lt_trans hab (h.1 c hc)
    · split
      · rename_i hab
        subst hab
        exact List.pairwise_cons.2 h
      · refine List.pairwise_cons.2 ⟨?_, ih h.2⟩
        intro c hc
        rcases Memory.mem_write hc with rfl | hc
        · simp only
          omega
        · exact h.1 c hc

/-- The zeroing loop keeps the canonical form. -/
theorem Memory.wf_zero {m : Memory} (h : Memory.wf m = true) (base n : Nat) :
    Memory.wf (Memory.zero m base n) = true := by
  induction n with
  | zero => exact h
  | succ n ih => exact Memory.wf_write ih _ _

/-- A write inside memory keeps every written word inside memory. -/
theorem Memory.inRange_write {k : Nat} {m : Memory} (h : Memory.inRange k m = true) {a : Nat} (ha : a < k) (v : Word) :
    Memory.inRange k (Memory.write m a v) = true := by
  simp only [Memory.inRange, List.all_eq_true, decide_eq_true_eq] at h ⊢
  intro c hc
  rcases Memory.mem_write hc with rfl | hc
  · exact ha
  · exact h c hc

/-- So does the zeroing loop on a region inside memory. -/
theorem Memory.inRange_zero {k : Nat} {m : Memory} (h : Memory.inRange k m = true) {base n : Nat} (hn : base + n ≤ k) :
    Memory.inRange k (Memory.zero m base n) = true := by
  induction n with
  | zero => exact h
  | succ n ih => exact Memory.inRange_write (ih (by omega)) (by omega) _

/-- Nothing is written below the first listed address. -/
theorem Memory.written_below {m : Memory} {a : Nat} (h : ∀ c ∈ m, a < c.1) : Memory.written m a = none := by
  induction m with
  | nil => rfl
  | cons d m ih =>
    obtain ⟨b, w⟩ := d
    have hb : a < b := h (b, w) List.mem_cons_self
    simp only [Memory.written, Nat.ne_of_lt hb, if_false]
    exact ih fun c hc => h c (List.mem_cons_of_mem _ hc)

/-- Memories in canonical form with the same written words are the same list. -/
theorem Memory.ext_of_written {m m' : Memory} (h : Memory.wf m = true) (h' : Memory.wf m' = true)
    (e : ∀ a, Memory.written m a = Memory.written m' a) : m = m' := by
  rw [Memory.wf_iff_pairwise] at h h'
  induction m generalizing m' with
  | nil =>
    cases m' with
    | nil => rfl
    | cons c m' => have := e c.1; simp [Memory.written] at this
  | cons c m ih =>
    cases m' with
    | nil => have := e c.1; simp [Memory.written] at this
    | cons d m' =>
      obtain ⟨a, v⟩ := c
      obtain ⟨b, w⟩ := d
      rw [List.pairwise_cons] at h h'
      have hab : a = b := by
        rcases Nat.lt_trichotomy a b with hlt | heq | hgt
        · have := e a
          rw [Memory.written_below (m := (b, w) :: m')] at this
          · simp [Memory.written] at this
          · intro x hx
            rcases List.mem_cons.1 hx with rfl | hx
            · exact hlt
            · exact lt_trans hlt (h'.1 x hx)
        · exact heq
        · have := e b
          rw [Memory.written_below (m := (a, v) :: m)] at this
          · simp [Memory.written] at this
          · intro x hx
            rcases List.mem_cons.1 hx with rfl | hx
            · exact hgt
            · exact lt_trans hgt (h.1 x hx)
      subst hab
      have hv : v = w := by simpa [Memory.written] using e a
      subst hv
      congr 1
      refine ih h.2 h'.2 fun x => ?_
      by_cases hx : x = a
      · subst hx
        rw [Memory.written_below h.1, Memory.written_below h'.1]
      · simpa [Memory.written, hx] using e x

end Sys2Proof.Machine
end

