-- ==== Sys2Proof/Laws/State.lean ====
section
/-! SUPPORT. What each update of the state does to each field: one lemma a field, true by unfolding, so that no later
proof unfolds a record update. Then what the updates do to a register, a word of memory and the parameters. -/

namespace Sys2Proof.Machine

/-! ## writeReg -/

@[simp] theorem writeReg_regs (r : Reg) (v : Word) (s : State) : (writeReg r v s).regs = s.regs.set r.toNat v r.isLt := rfl
@[simp] theorem writeReg_seq (r : Reg) (v : Word) (s : State) : (writeReg r v s).seq = s.seq := rfl
@[simp] theorem writeReg_status (r : Reg) (v : Word) (s : State) : (writeReg r v s).status = s.status := rfl
@[simp] theorem writeReg_cause (r : Reg) (v : Word) (s : State) : (writeReg r v s).cause = s.cause := rfl
@[simp] theorem writeReg_fseq (r : Reg) (v : Word) (s : State) : (writeReg r v s).fseq = s.fseq := rfl
@[simp] theorem writeReg_finst (r : Reg) (v : Word) (s : State) : (writeReg r v s).finst = s.finst := rfl
@[simp] theorem writeReg_finfo (r : Reg) (v : Word) (s : State) : (writeReg r v s).finfo = s.finfo := rfl
@[simp] theorem writeReg_bq (r : Reg) (v : Word) (s : State) : (writeReg r v s).bq = s.bq := rfl
@[simp] theorem writeReg_cas (r : Reg) (v : Word) (s : State) : (writeReg r v s).cas = s.cas := rfl
@[simp] theorem writeReg_pt1 (r : Reg) (v : Word) (s : State) : (writeReg r v s).pt1 = s.pt1 := rfl
@[simp] theorem writeReg_fir (r : Reg) (v : Word) (s : State) : (writeReg r v s).fir = s.fir := rfl
@[simp] theorem writeReg_slew (r : Reg) (v : Word) (s : State) : (writeReg r v s).slew = s.slew := rfl
@[simp] theorem writeReg_mem (r : Reg) (v : Word) (s : State) : (writeReg r v s).mem = s.mem := rfl
@[simp] theorem writeReg_cmdq (r : Reg) (v : Word) (s : State) : (writeReg r v s).cmdq = s.cmdq := rfl
@[simp] theorem writeReg_memWords (r : Reg) (v : Word) (s : State) : (writeReg r v s).memWords = s.memWords := rfl
@[simp] theorem writeReg_cmdqDepth (r : Reg) (v : Word) (s : State) : (writeReg r v s).cmdqDepth = s.cmdqDepth := rfl

/-! ## advance -/

@[simp] theorem advance_regs (s : State) : (advance s).regs = s.regs := rfl
@[simp] theorem advance_seq (s : State) : (advance s).seq = s.seq + 1 := rfl
@[simp] theorem advance_status (s : State) : (advance s).status = s.status := rfl
@[simp] theorem advance_cause (s : State) : (advance s).cause = s.cause := rfl
@[simp] theorem advance_fseq (s : State) : (advance s).fseq = s.fseq := rfl
@[simp] theorem advance_finst (s : State) : (advance s).finst = s.finst := rfl
@[simp] theorem advance_finfo (s : State) : (advance s).finfo = s.finfo := rfl
@[simp] theorem advance_bq (s : State) : (advance s).bq = s.bq := rfl
@[simp] theorem advance_cas (s : State) : (advance s).cas = s.cas := rfl
@[simp] theorem advance_pt1 (s : State) : (advance s).pt1 = s.pt1 := rfl
@[simp] theorem advance_fir (s : State) : (advance s).fir = s.fir := rfl
@[simp] theorem advance_slew (s : State) : (advance s).slew = s.slew := rfl
@[simp] theorem advance_mem (s : State) : (advance s).mem = s.mem := rfl
@[simp] theorem advance_cmdq (s : State) : (advance s).cmdq = s.cmdq := rfl
@[simp] theorem advance_memWords (s : State) : (advance s).memWords = s.memWords := rfl
@[simp] theorem advance_cmdqDepth (s : State) : (advance s).cmdqDepth = s.cmdqDepth := rfl

/-! ## takeFault -/

@[simp] theorem takeFault_regs (c : Cause) (w info : Word) (s : State) : (takeFault c w info s).regs = s.regs := rfl
@[simp] theorem takeFault_seq (c : Cause) (w info : Word) (s : State) : (takeFault c w info s).seq = s.seq := rfl
@[simp] theorem takeFault_status (c : Cause) (w info : Word) (s : State) : (takeFault c w info s).status = setFaultBit s.status := rfl
@[simp] theorem takeFault_cause (c : Cause) (w info : Word) (s : State) : (takeFault c w info s).cause = causeCode c := rfl
@[simp] theorem takeFault_fseq (c : Cause) (w info : Word) (s : State) : (takeFault c w info s).fseq = s.seq := rfl
@[simp] theorem takeFault_finst (c : Cause) (w info : Word) (s : State) : (takeFault c w info s).finst = w := rfl
@[simp] theorem takeFault_finfo (c : Cause) (w info : Word) (s : State) : (takeFault c w info s).finfo = info := rfl
@[simp] theorem takeFault_bq (c : Cause) (w info : Word) (s : State) : (takeFault c w info s).bq = s.bq := rfl
@[simp] theorem takeFault_cas (c : Cause) (w info : Word) (s : State) : (takeFault c w info s).cas = s.cas := rfl
@[simp] theorem takeFault_pt1 (c : Cause) (w info : Word) (s : State) : (takeFault c w info s).pt1 = s.pt1 := rfl
@[simp] theorem takeFault_fir (c : Cause) (w info : Word) (s : State) : (takeFault c w info s).fir = s.fir := rfl
@[simp] theorem takeFault_slew (c : Cause) (w info : Word) (s : State) : (takeFault c w info s).slew = s.slew := rfl
@[simp] theorem takeFault_mem (c : Cause) (w info : Word) (s : State) : (takeFault c w info s).mem = s.mem := rfl
@[simp] theorem takeFault_cmdq (c : Cause) (w info : Word) (s : State) : (takeFault c w info s).cmdq = [] := rfl
@[simp] theorem takeFault_memWords (c : Cause) (w info : Word) (s : State) : (takeFault c w info s).memWords = s.memWords := rfl
@[simp] theorem takeFault_cmdqDepth (c : Cause) (w info : Word) (s : State) : (takeFault c w info s).cmdqDepth = s.cmdqDepth := rfl

/-! ## memWrite -/

@[simp] theorem memWrite_regs (a : Nat) (v : Word) (s : State) : (memWrite a v s).regs = s.regs := rfl
@[simp] theorem memWrite_seq (a : Nat) (v : Word) (s : State) : (memWrite a v s).seq = s.seq := rfl
@[simp] theorem memWrite_status (a : Nat) (v : Word) (s : State) : (memWrite a v s).status = s.status := rfl
@[simp] theorem memWrite_cause (a : Nat) (v : Word) (s : State) : (memWrite a v s).cause = s.cause := rfl
@[simp] theorem memWrite_fseq (a : Nat) (v : Word) (s : State) : (memWrite a v s).fseq = s.fseq := rfl
@[simp] theorem memWrite_finst (a : Nat) (v : Word) (s : State) : (memWrite a v s).finst = s.finst := rfl
@[simp] theorem memWrite_finfo (a : Nat) (v : Word) (s : State) : (memWrite a v s).finfo = s.finfo := rfl
@[simp] theorem memWrite_bq (a : Nat) (v : Word) (s : State) : (memWrite a v s).bq = s.bq := rfl
@[simp] theorem memWrite_cas (a : Nat) (v : Word) (s : State) : (memWrite a v s).cas = s.cas := rfl
@[simp] theorem memWrite_pt1 (a : Nat) (v : Word) (s : State) : (memWrite a v s).pt1 = s.pt1 := rfl
@[simp] theorem memWrite_fir (a : Nat) (v : Word) (s : State) : (memWrite a v s).fir = s.fir := rfl
@[simp] theorem memWrite_slew (a : Nat) (v : Word) (s : State) : (memWrite a v s).slew = s.slew := rfl
@[simp] theorem memWrite_mem (a : Nat) (v : Word) (s : State) : (memWrite a v s).mem = Memory.write s.mem a v := rfl
@[simp] theorem memWrite_cmdq (a : Nat) (v : Word) (s : State) : (memWrite a v s).cmdq = s.cmdq := rfl
@[simp] theorem memWrite_memWords (a : Nat) (v : Word) (s : State) : (memWrite a v s).memWords = s.memWords := rfl
@[simp] theorem memWrite_cmdqDepth (a : Nat) (v : Word) (s : State) : (memWrite a v s).cmdqDepth = s.cmdqDepth := rfl

/-! ## memZero -/

@[simp] theorem memZero_regs (base n : Nat) (s : State) : (memZero base n s).regs = s.regs := rfl
@[simp] theorem memZero_seq (base n : Nat) (s : State) : (memZero base n s).seq = s.seq := rfl
@[simp] theorem memZero_status (base n : Nat) (s : State) : (memZero base n s).status = s.status := rfl
@[simp] theorem memZero_cause (base n : Nat) (s : State) : (memZero base n s).cause = s.cause := rfl
@[simp] theorem memZero_fseq (base n : Nat) (s : State) : (memZero base n s).fseq = s.fseq := rfl
@[simp] theorem memZero_finst (base n : Nat) (s : State) : (memZero base n s).finst = s.finst := rfl
@[simp] theorem memZero_finfo (base n : Nat) (s : State) : (memZero base n s).finfo = s.finfo := rfl
@[simp] theorem memZero_bq (base n : Nat) (s : State) : (memZero base n s).bq = s.bq := rfl
@[simp] theorem memZero_cas (base n : Nat) (s : State) : (memZero base n s).cas = s.cas := rfl
@[simp] theorem memZero_pt1 (base n : Nat) (s : State) : (memZero base n s).pt1 = s.pt1 := rfl
@[simp] theorem memZero_fir (base n : Nat) (s : State) : (memZero base n s).fir = s.fir := rfl
@[simp] theorem memZero_slew (base n : Nat) (s : State) : (memZero base n s).slew = s.slew := rfl
@[simp] theorem memZero_mem (base n : Nat) (s : State) : (memZero base n s).mem = Memory.zero s.mem base n := rfl
@[simp] theorem memZero_cmdq (base n : Nat) (s : State) : (memZero base n s).cmdq = s.cmdq := rfl
@[simp] theorem memZero_memWords (base n : Nat) (s : State) : (memZero base n s).memWords = s.memWords := rfl
@[simp] theorem memZero_cmdqDepth (base n : Nat) (s : State) : (memZero base n s).cmdqDepth = s.cmdqDepth := rfl

/-! ## putBq -/

@[simp] theorem putBq_regs (sl : SlotNo) (c : BqSlot) (s : State) : (putBq sl c s).regs = s.regs := rfl
@[simp] theorem putBq_seq (sl : SlotNo) (c : BqSlot) (s : State) : (putBq sl c s).seq = s.seq := rfl
@[simp] theorem putBq_status (sl : SlotNo) (c : BqSlot) (s : State) : (putBq sl c s).status = s.status := rfl
@[simp] theorem putBq_cause (sl : SlotNo) (c : BqSlot) (s : State) : (putBq sl c s).cause = s.cause := rfl
@[simp] theorem putBq_fseq (sl : SlotNo) (c : BqSlot) (s : State) : (putBq sl c s).fseq = s.fseq := rfl
@[simp] theorem putBq_finst (sl : SlotNo) (c : BqSlot) (s : State) : (putBq sl c s).finst = s.finst := rfl
@[simp] theorem putBq_finfo (sl : SlotNo) (c : BqSlot) (s : State) : (putBq sl c s).finfo = s.finfo := rfl
@[simp] theorem putBq_bq (sl : SlotNo) (c : BqSlot) (s : State) : (putBq sl c s).bq = s.bq.set sl.toNat c := rfl
@[simp] theorem putBq_cas (sl : SlotNo) (c : BqSlot) (s : State) : (putBq sl c s).cas = s.cas := rfl
@[simp] theorem putBq_pt1 (sl : SlotNo) (c : BqSlot) (s : State) : (putBq sl c s).pt1 = s.pt1 := rfl
@[simp] theorem putBq_fir (sl : SlotNo) (c : BqSlot) (s : State) : (putBq sl c s).fir = s.fir := rfl
@[simp] theorem putBq_slew (sl : SlotNo) (c : BqSlot) (s : State) : (putBq sl c s).slew = s.slew := rfl
@[simp] theorem putBq_mem (sl : SlotNo) (c : BqSlot) (s : State) : (putBq sl c s).mem = s.mem := rfl
@[simp] theorem putBq_cmdq (sl : SlotNo) (c : BqSlot) (s : State) : (putBq sl c s).cmdq = s.cmdq := rfl
@[simp] theorem putBq_memWords (sl : SlotNo) (c : BqSlot) (s : State) : (putBq sl c s).memWords = s.memWords := rfl
@[simp] theorem putBq_cmdqDepth (sl : SlotNo) (c : BqSlot) (s : State) : (putBq sl c s).cmdqDepth = s.cmdqDepth := rfl

/-! ## putCas -/

@[simp] theorem putCas_regs (sl : SlotNo) (c : CasSlot) (s : State) : (putCas sl c s).regs = s.regs := rfl
@[simp] theorem putCas_seq (sl : SlotNo) (c : CasSlot) (s : State) : (putCas sl c s).seq = s.seq := rfl
@[simp] theorem putCas_status (sl : SlotNo) (c : CasSlot) (s : State) : (putCas sl c s).status = s.status := rfl
@[simp] theorem putCas_cause (sl : SlotNo) (c : CasSlot) (s : State) : (putCas sl c s).cause = s.cause := rfl
@[simp] theorem putCas_fseq (sl : SlotNo) (c : CasSlot) (s : State) : (putCas sl c s).fseq = s.fseq := rfl
@[simp] theorem putCas_finst (sl : SlotNo) (c : CasSlot) (s : State) : (putCas sl c s).finst = s.finst := rfl
@[simp] theorem putCas_finfo (sl : SlotNo) (c : CasSlot) (s : State) : (putCas sl c s).finfo = s.finfo := rfl
@[simp] theorem putCas_bq (sl : SlotNo) (c : CasSlot) (s : State) : (putCas sl c s).bq = s.bq := rfl
@[simp] theorem putCas_cas (sl : SlotNo) (c : CasSlot) (s : State) : (putCas sl c s).cas = s.cas.set sl.toNat c := rfl
@[simp] theorem putCas_pt1 (sl : SlotNo) (c : CasSlot) (s : State) : (putCas sl c s).pt1 = s.pt1 := rfl
@[simp] theorem putCas_fir (sl : SlotNo) (c : CasSlot) (s : State) : (putCas sl c s).fir = s.fir := rfl
@[simp] theorem putCas_slew (sl : SlotNo) (c : CasSlot) (s : State) : (putCas sl c s).slew = s.slew := rfl
@[simp] theorem putCas_mem (sl : SlotNo) (c : CasSlot) (s : State) : (putCas sl c s).mem = s.mem := rfl
@[simp] theorem putCas_cmdq (sl : SlotNo) (c : CasSlot) (s : State) : (putCas sl c s).cmdq = s.cmdq := rfl
@[simp] theorem putCas_memWords (sl : SlotNo) (c : CasSlot) (s : State) : (putCas sl c s).memWords = s.memWords := rfl
@[simp] theorem putCas_cmdqDepth (sl : SlotNo) (c : CasSlot) (s : State) : (putCas sl c s).cmdqDepth = s.cmdqDepth := rfl

/-! ## putPt1 -/

@[simp] theorem putPt1_regs (sl : SlotNo) (c : Pt1Slot) (s : State) : (putPt1 sl c s).regs = s.regs := rfl
@[simp] theorem putPt1_seq (sl : SlotNo) (c : Pt1Slot) (s : State) : (putPt1 sl c s).seq = s.seq := rfl
@[simp] theorem putPt1_status (sl : SlotNo) (c : Pt1Slot) (s : State) : (putPt1 sl c s).status = s.status := rfl
@[simp] theorem putPt1_cause (sl : SlotNo) (c : Pt1Slot) (s : State) : (putPt1 sl c s).cause = s.cause := rfl
@[simp] theorem putPt1_fseq (sl : SlotNo) (c : Pt1Slot) (s : State) : (putPt1 sl c s).fseq = s.fseq := rfl
@[simp] theorem putPt1_finst (sl : SlotNo) (c : Pt1Slot) (s : State) : (putPt1 sl c s).finst = s.finst := rfl
@[simp] theorem putPt1_finfo (sl : SlotNo) (c : Pt1Slot) (s : State) : (putPt1 sl c s).finfo = s.finfo := rfl
@[simp] theorem putPt1_bq (sl : SlotNo) (c : Pt1Slot) (s : State) : (putPt1 sl c s).bq = s.bq := rfl
@[simp] theorem putPt1_cas (sl : SlotNo) (c : Pt1Slot) (s : State) : (putPt1 sl c s).cas = s.cas := rfl
@[simp] theorem putPt1_pt1 (sl : SlotNo) (c : Pt1Slot) (s : State) : (putPt1 sl c s).pt1 = s.pt1.set sl.toNat c := rfl
@[simp] theorem putPt1_fir (sl : SlotNo) (c : Pt1Slot) (s : State) : (putPt1 sl c s).fir = s.fir := rfl
@[simp] theorem putPt1_slew (sl : SlotNo) (c : Pt1Slot) (s : State) : (putPt1 sl c s).slew = s.slew := rfl
@[simp] theorem putPt1_mem (sl : SlotNo) (c : Pt1Slot) (s : State) : (putPt1 sl c s).mem = s.mem := rfl
@[simp] theorem putPt1_cmdq (sl : SlotNo) (c : Pt1Slot) (s : State) : (putPt1 sl c s).cmdq = s.cmdq := rfl
@[simp] theorem putPt1_memWords (sl : SlotNo) (c : Pt1Slot) (s : State) : (putPt1 sl c s).memWords = s.memWords := rfl
@[simp] theorem putPt1_cmdqDepth (sl : SlotNo) (c : Pt1Slot) (s : State) : (putPt1 sl c s).cmdqDepth = s.cmdqDepth := rfl

/-! ## putFir -/

@[simp] theorem putFir_regs (sl : SlotNo) (c : FirSlot) (s : State) : (putFir sl c s).regs = s.regs := rfl
@[simp] theorem putFir_seq (sl : SlotNo) (c : FirSlot) (s : State) : (putFir sl c s).seq = s.seq := rfl
@[simp] theorem putFir_status (sl : SlotNo) (c : FirSlot) (s : State) : (putFir sl c s).status = s.status := rfl
@[simp] theorem putFir_cause (sl : SlotNo) (c : FirSlot) (s : State) : (putFir sl c s).cause = s.cause := rfl
@[simp] theorem putFir_fseq (sl : SlotNo) (c : FirSlot) (s : State) : (putFir sl c s).fseq = s.fseq := rfl
@[simp] theorem putFir_finst (sl : SlotNo) (c : FirSlot) (s : State) : (putFir sl c s).finst = s.finst := rfl
@[simp] theorem putFir_finfo (sl : SlotNo) (c : FirSlot) (s : State) : (putFir sl c s).finfo = s.finfo := rfl
@[simp] theorem putFir_bq (sl : SlotNo) (c : FirSlot) (s : State) : (putFir sl c s).bq = s.bq := rfl
@[simp] theorem putFir_cas (sl : SlotNo) (c : FirSlot) (s : State) : (putFir sl c s).cas = s.cas := rfl
@[simp] theorem putFir_pt1 (sl : SlotNo) (c : FirSlot) (s : State) : (putFir sl c s).pt1 = s.pt1 := rfl
@[simp] theorem putFir_fir (sl : SlotNo) (c : FirSlot) (s : State) : (putFir sl c s).fir = s.fir.set sl.toNat c := rfl
@[simp] theorem putFir_slew (sl : SlotNo) (c : FirSlot) (s : State) : (putFir sl c s).slew = s.slew := rfl
@[simp] theorem putFir_mem (sl : SlotNo) (c : FirSlot) (s : State) : (putFir sl c s).mem = s.mem := rfl
@[simp] theorem putFir_cmdq (sl : SlotNo) (c : FirSlot) (s : State) : (putFir sl c s).cmdq = s.cmdq := rfl
@[simp] theorem putFir_memWords (sl : SlotNo) (c : FirSlot) (s : State) : (putFir sl c s).memWords = s.memWords := rfl
@[simp] theorem putFir_cmdqDepth (sl : SlotNo) (c : FirSlot) (s : State) : (putFir sl c s).cmdqDepth = s.cmdqDepth := rfl

/-! ## putSlew -/

@[simp] theorem putSlew_regs (sl : SlotNo) (c : SlewSlot) (s : State) : (putSlew sl c s).regs = s.regs := rfl
@[simp] theorem putSlew_seq (sl : SlotNo) (c : SlewSlot) (s : State) : (putSlew sl c s).seq = s.seq := rfl
@[simp] theorem putSlew_status (sl : SlotNo) (c : SlewSlot) (s : State) : (putSlew sl c s).status = s.status := rfl
@[simp] theorem putSlew_cause (sl : SlotNo) (c : SlewSlot) (s : State) : (putSlew sl c s).cause = s.cause := rfl
@[simp] theorem putSlew_fseq (sl : SlotNo) (c : SlewSlot) (s : State) : (putSlew sl c s).fseq = s.fseq := rfl
@[simp] theorem putSlew_finst (sl : SlotNo) (c : SlewSlot) (s : State) : (putSlew sl c s).finst = s.finst := rfl
@[simp] theorem putSlew_finfo (sl : SlotNo) (c : SlewSlot) (s : State) : (putSlew sl c s).finfo = s.finfo := rfl
@[simp] theorem putSlew_bq (sl : SlotNo) (c : SlewSlot) (s : State) : (putSlew sl c s).bq = s.bq := rfl
@[simp] theorem putSlew_cas (sl : SlotNo) (c : SlewSlot) (s : State) : (putSlew sl c s).cas = s.cas := rfl
@[simp] theorem putSlew_pt1 (sl : SlotNo) (c : SlewSlot) (s : State) : (putSlew sl c s).pt1 = s.pt1 := rfl
@[simp] theorem putSlew_fir (sl : SlotNo) (c : SlewSlot) (s : State) : (putSlew sl c s).fir = s.fir := rfl
@[simp] theorem putSlew_slew (sl : SlotNo) (c : SlewSlot) (s : State) : (putSlew sl c s).slew = s.slew.set sl.toNat c := rfl
@[simp] theorem putSlew_mem (sl : SlotNo) (c : SlewSlot) (s : State) : (putSlew sl c s).mem = s.mem := rfl
@[simp] theorem putSlew_cmdq (sl : SlotNo) (c : SlewSlot) (s : State) : (putSlew sl c s).cmdq = s.cmdq := rfl
@[simp] theorem putSlew_memWords (sl : SlotNo) (c : SlewSlot) (s : State) : (putSlew sl c s).memWords = s.memWords := rfl
@[simp] theorem putSlew_cmdqDepth (sl : SlotNo) (c : SlewSlot) (s : State) : (putSlew sl c s).cmdqDepth = s.cmdqDepth := rfl

/-! ## Registers -/

@[simp] theorem readReg_writeReg_same (r : Reg) (v : Word) (s : State) : readReg (writeReg r v s) r = v := by
  simp [readReg, writeReg]

theorem readReg_writeReg_other {r q : Reg} (h : q ≠ r) (v : Word) (s : State) :
    readReg (writeReg r v s) q = readReg s q := by
  have : r.toNat ≠ q.toNat := fun e => h (BitVec.eq_of_toNat_eq e.symm)
  simp [readReg, writeReg, this]

@[simp] theorem readReg_advance (q : Reg) (s : State) : readReg (advance s) q = readReg s q := rfl
@[simp] theorem readReg_takeFault (q : Reg) (c : Cause) (w info : Word) (s : State) : readReg (takeFault c w info s) q = readReg s q := rfl
@[simp] theorem readReg_memWrite (q : Reg) (a : Nat) (v : Word) (s : State) : readReg (memWrite a v s) q = readReg s q := rfl
@[simp] theorem readReg_memZero (q : Reg) (base n : Nat) (s : State) : readReg (memZero base n s) q = readReg s q := rfl
@[simp] theorem readReg_putBq (q : Reg) (sl : SlotNo) (c : BqSlot) (s : State) : readReg (putBq sl c s) q = readReg s q := rfl
@[simp] theorem readReg_putCas (q : Reg) (sl : SlotNo) (c : CasSlot) (s : State) : readReg (putCas sl c s) q = readReg s q := rfl
@[simp] theorem readReg_putPt1 (q : Reg) (sl : SlotNo) (c : Pt1Slot) (s : State) : readReg (putPt1 sl c s) q = readReg s q := rfl
@[simp] theorem readReg_putFir (q : Reg) (sl : SlotNo) (c : FirSlot) (s : State) : readReg (putFir sl c s) q = readReg s q := rfl
@[simp] theorem readReg_putSlew (q : Reg) (sl : SlotNo) (c : SlewSlot) (s : State) : readReg (putSlew sl c s) q = readReg s q := rfl

/-! ## Memory words -/

@[simp] theorem memRead_writeReg (a' : Nat) (r : Reg) (v : Word) (s : State) : memRead (writeReg r v s) a' = memRead s a' := rfl
@[simp] theorem memRead_advance (a' : Nat) (s : State) : memRead (advance s) a' = memRead s a' := rfl
@[simp] theorem memRead_takeFault (a' : Nat) (c : Cause) (w info : Word) (s : State) : memRead (takeFault c w info s) a' = memRead s a' := rfl
@[simp] theorem memRead_putBq (a' : Nat) (sl : SlotNo) (c : BqSlot) (s : State) : memRead (putBq sl c s) a' = memRead s a' := rfl
@[simp] theorem memRead_putCas (a' : Nat) (sl : SlotNo) (c : CasSlot) (s : State) : memRead (putCas sl c s) a' = memRead s a' := rfl
@[simp] theorem memRead_putPt1 (a' : Nat) (sl : SlotNo) (c : Pt1Slot) (s : State) : memRead (putPt1 sl c s) a' = memRead s a' := rfl
@[simp] theorem memRead_putFir (a' : Nat) (sl : SlotNo) (c : FirSlot) (s : State) : memRead (putFir sl c s) a' = memRead s a' := rfl
@[simp] theorem memRead_putSlew (a' : Nat) (sl : SlotNo) (c : SlewSlot) (s : State) : memRead (putSlew sl c s) a' = memRead s a' := rfl

/-! ## Parameters: every update keeps them -/

@[simp] theorem configOf_writeReg (r : Reg) (v : Word) (s : State) : configOf (writeReg r v s) = configOf s := rfl
@[simp] theorem configOf_advance (s : State) : configOf (advance s) = configOf s := rfl
@[simp] theorem configOf_takeFault (c : Cause) (w info : Word) (s : State) : configOf (takeFault c w info s) = configOf s := rfl
@[simp] theorem configOf_memWrite (a : Nat) (v : Word) (s : State) : configOf (memWrite a v s) = configOf s := rfl
@[simp] theorem configOf_memZero (base n : Nat) (s : State) : configOf (memZero base n s) = configOf s := rfl
@[simp] theorem configOf_putBq (sl : SlotNo) (c : BqSlot) (s : State) : configOf (putBq sl c s) = configOf s := by simp [configOf]
@[simp] theorem configOf_putCas (sl : SlotNo) (c : CasSlot) (s : State) : configOf (putCas sl c s) = configOf s := by simp [configOf]
@[simp] theorem configOf_putPt1 (sl : SlotNo) (c : Pt1Slot) (s : State) : configOf (putPt1 sl c s) = configOf s := by simp [configOf]
@[simp] theorem configOf_putFir (sl : SlotNo) (c : FirSlot) (s : State) : configOf (putFir sl c s) = configOf s := by simp [configOf]
@[simp] theorem configOf_putSlew (sl : SlotNo) (c : SlewSlot) (s : State) : configOf (putSlew sl c s) = configOf s := by simp [configOf]

end Sys2Proof.Machine
end

