-- ==== Sys2Proof/Laws/Ops.lean ====
section
/-! SUPPORT. Everything the shared operations of Machine/Ops.lean can do, said once. -/

namespace Sys2Proof.Machine

/-! ## Completing and faulting -/

@[simp] theorem complete_eq_next {s t : State} : complete s = .next t ↔ advance s = t := by simp [complete]

@[simp] theorem raise_eq_next {c : Cause} {i : Instr} {info : Word} {s t : State} :
    raise c i info s = .next t ↔ takeFault c (encode i) info s = t := by simp [raise]

/-- The two answers of a check: it fails and the fault is taken, or the rest answers. -/
theorem withSlot_eq_next {α : Type} {slots : List α} {i : Instr} {sl : SlotNo} {s t : State} {k : α → Result} :
    withSlot slots i sl s k = .next t ↔
      (slots[sl.toNat]? = none ∧ takeFault .slotRange (encode i) (slotInfo sl) s = t) ∨
      ∃ a, slots[sl.toNat]? = some a ∧ k a = .next t := by
  unfold withSlot
  cases h : slots[sl.toNat]? <;> simp

theorem withSlot_some {α : Type} {slots : List α} {sl : SlotNo} {a : α} (h : slots[sl.toNat]? = some a) (i : Instr)
    (s : State) (k : α → Result) : withSlot slots i sl s k = k a := by simp [withSlot, h]

theorem withSlot_none {α : Type} {slots : List α} {sl : SlotNo} (h : slots.length ≤ sl.toNat) (i : Instr)
    (s : State) (k : α → Result) : withSlot slots i sl s k = raise .slotRange i (slotInfo sl) s := by
  simp [withSlot, List.getElem?_eq_none h]

theorem needValid_eq_next {valid : Bool} {i : Instr} {sl : SlotNo} {s t : State} {k : Result} :
    needValid valid i sl s k = .next t ↔
      (valid = false ∧ takeFault .notInit (encode i) (slotInfo sl) s = t) ∨ (valid = true ∧ k = .next t) := by
  cases valid <;> simp [needValid]

@[simp] theorem needValid_true (i : Instr) (sl : SlotNo) (s : State) (k : Result) : needValid true i sl s k = k := rfl

@[simp] theorem needValid_false (i : Instr) (sl : SlotNo) (s : State) (k : Result) :
    needValid false i sl s k = raise .notInit i (slotInfo sl) s := rfl

theorem needAddr_eq_next {a : Word} {i : Instr} {s t : State} {k : Result} :
    needAddr a i s k = .next t ↔
      (s.memWords ≤ a.toNat ∧ takeFault .memRange (encode i) a s = t) ∨ (a.toNat < s.memWords ∧ k = .next t) := by
  by_cases h : a.toNat < s.memWords
  · simp [needAddr, h, Nat.not_le.2 h]
  · simp [needAddr, h, Nat.not_lt.1 h]

/-! ## Memory through the state -/

@[simp] theorem memRead_memWrite_same (a : Nat) (v : Word) (s : State) : memRead (memWrite a v s) a = v := by
  simp [memRead]

theorem memRead_memWrite_other {a b : Nat} (h : b ≠ a) (v : Word) (s : State) :
    memRead (memWrite a v s) b = memRead s b := by
  simp [memRead, Memory.read_write_other h]

theorem memRead_memZero_inside (s : State) {base n a : Nat} (h₁ : base ≤ a) (h₂ : a < base + n) :
    memRead (memZero base n s) a = 0 := by
  simp [memRead, Memory.read_zero_inside s.mem h₁ h₂]

theorem memRead_memZero_outside (s : State) {base n a : Nat} (h : ¬(base ≤ a ∧ a < base + n)) :
    memRead (memZero base n s) a = memRead s a := by
  simp [memRead, Memory.read_zero_outside s.mem h]

/-! ## Status and causes -/

@[simp] theorem faultBit_setFaultBit (w : Word) : faultBit (setFaultBit w) = true := by
  simp [faultBit, setFaultBit]

theorem causeCode_injective {c d : Cause} (h : causeCode c = causeCode d) : c = d := by
  cases c <;> cases d <;> first | rfl | exact absurd h (by decide)

/-- The codes are 1 to 7 (60_exceptions.md R211). -/
theorem causeCode_range (c : Cause) : 1 ≤ (causeCode c).toNat ∧ (causeCode c).toNat ≤ 7 := by
  cases c <;> decide

end Sys2Proof.Machine
end

