-- ==== Sys2Proof/Laws/Exec.lean ====
section
/-! SUPPORT. Everything a command can do, one lemma per command: where `exec` answers a next state, that state is the
one after a fault, or the completed state with the checks the command passed. A proof about all commands splits on the
command and cites these; it does not unfold a meaning. -/

namespace Sys2Proof.Machine

/-- The state after some fault was taken in the command `i`. -/
def Faulted (i : Instr) (s t : State) : Prop := ∃ c info, t = takeFault c (encode i) info s

theorem exec_nop_cases {s t : State} (h : exec .nop s = .next t) :
    t = advance s := by
  simp only [exec, execNop, complete_eq_next] at h
  exact h.symm

theorem exec_lih_cases {rd : Reg} {imm16 : BitVec 16} {s t : State} (h : exec (.lih rd imm16) s = .next t) :
    t = advance (writeReg rd (immHigh imm16) s) := by
  simp only [exec, execLih, complete_eq_next] at h
  exact h.symm

theorem exec_lil_cases {rd : Reg} {imm16 : BitVec 16} {s t : State} (h : exec (.lil rd imm16) s = .next t) :
    t = advance (writeReg rd (immLow (readReg s rd) imm16) s) := by
  simp only [exec, execLil, complete_eq_next] at h
  exact h.symm

theorem exec_mov_cases {rd ra : Reg} {s t : State} (h : exec (.mov rd ra) s = .next t) :
    t = advance (writeReg rd (readReg s ra) s) := by
  simp only [exec, execMov, complete_eq_next] at h
  exact h.symm

theorem exec_rdm_cases {rd ra : Reg} {s t : State} (h : exec (.rdm rd ra) s = .next t) :
    Faulted (.rdm rd ra) s t ∨
      ((readReg s ra).toNat < s.memWords ∧ t = 
        advance (writeReg rd (memRead s (readReg s ra).toNat) s)) := by
  simp only [exec, execRdm, needAddr_eq_next, complete_eq_next] at h
  rcases h with ⟨_, h⟩ | ⟨h1, h⟩
  · exact Or.inl ⟨_, _, h.symm⟩
  · exact Or.inr ⟨h1, h.symm⟩

theorem exec_wrm_cases {ra rb : Reg} {s t : State} (h : exec (.wrm ra rb) s = .next t) :
    Faulted (.wrm ra rb) s t ∨
      ((readReg s ra).toNat < s.memWords ∧ t = 
        advance (memWrite (readReg s ra).toNat (readReg s rb) s)) := by
  simp only [exec, execWrm, needAddr_eq_next, complete_eq_next] at h
  rcases h with ⟨_, h⟩ | ⟨h1, h⟩
  · exact Or.inl ⟨_, _, h.symm⟩
  · exact Or.inr ⟨h1, h.symm⟩

theorem exec_rds_cases {sl : SlotNo} {rd : Reg} {un : BitVec 4} {fld : BitVec 8} {s t : State}
    (h : exec (.rds sl rd un fld) s = .next t) :
    Faulted (.rds sl rd un fld) s t ∨
      ∃ f v, fieldOf un fld = some f ∧ readField s f sl.toNat = some v ∧ t = advance (writeReg rd v s) := by
  simp only [exec, execRds] at h
  split at h
  · exact Or.inl ⟨_, _, (raise_eq_next.1 h).symm⟩
  · split at h
    · exact Or.inl ⟨_, _, (raise_eq_next.1 h).symm⟩
    · exact Or.inr ⟨_, _, by assumption, by assumption, (complete_eq_next.1 h).symm⟩

theorem exec_wrs_cases {sl : SlotNo} {ra : Reg} {un : BitVec 4} {fld : BitVec 8} {s t : State}
    (h : exec (.wrs sl ra un fld) s = .next t) :
    Faulted (.wrs sl ra un fld) s t ∨
      ∃ p, fieldOf un fld = some .pt1State ∧ s.pt1[sl.toNat]? = some p ∧
        t = advance (putPt1 sl { p with state := readReg s ra } s) := by
  simp only [exec, execWrs] at h
  split at h
  · exact Or.inl ⟨_, _, (raise_eq_next.1 h).symm⟩
  · rename_i f hf
    split at h
    · exact Or.inl ⟨_, _, (raise_eq_next.1 h).symm⟩
    · rename_i hn
      split at h
      · rename_i hw
        have hf' : f = .pt1State := by simpa [fieldWritable] using hw
        subst hf'
        have hlt : sl.toNat < s.pt1.length := by simpa [fieldSlots] using hn
        refine Or.inr ⟨s.pt1[sl.toNat], hf, List.getElem?_eq_getElem hlt, ?_⟩
        rw [← complete_eq_next.1 h, writePt1State, List.getElem?_eq_getElem hlt]
      · exact Or.inl ⟨_, _, (raise_eq_next.1 h).symm⟩

theorem exec_bqinitlpf_cases {sl : SlotNo} {ra rb : Reg} {s t : State} (h : exec (.bqinitlpf sl ra rb) s = .next t) :
    Faulted (.bqinitlpf sl ra rb) s t ∨
      ∃ b, s.bq[sl.toNat]? = some b ∧ t = 
        advance (initBq sl (bqCoef (readReg s ra) (readReg s rb) fINV_SQRT2 .lpf) s) := by
  simp only [exec, execBqinitlpf, withSlot_eq_next, complete_eq_next] at h
  rcases h with ⟨_, h⟩ | ⟨b, hb, h⟩
  · exact Or.inl ⟨_, _, h.symm⟩
  · exact Or.inr ⟨b, hb, h.symm⟩

theorem exec_bqinit_cases {sl : SlotNo} {ra rb rc : Reg} {ty : FilterType} {s t : State} (h : exec (.bqinit sl ra rb rc ty) s = .next t) :
    Faulted (.bqinit sl ra rb rc ty) s t ∨
      ∃ b, s.bq[sl.toNat]? = some b ∧ t = 
        advance (initBq sl (bqCoef (readReg s ra) (readReg s rb) (readReg s rc) ty) s) := by
  simp only [exec, execBqinit, withSlot_eq_next, complete_eq_next] at h
  rcases h with ⟨_, h⟩ | ⟨b, hb, h⟩
  · exact Or.inl ⟨_, _, h.symm⟩
  · exact Or.inr ⟨b, hb, h.symm⟩

theorem exec_bqupd_cases {sl : SlotNo} {ra rb rc : Reg} {ty : FilterType} {s t : State} (h : exec (.bqupd sl ra rb rc ty) s = .next t) :
    Faulted (.bqupd sl ra rb rc ty) s t ∨
      ∃ b, s.bq[sl.toNat]? = some b ∧ b.valid = true ∧ t = 
        advance (putBq sl { b with sec := retune (bqCoef (readReg s ra) (readReg s rb) (readReg s rc) ty) b.sec } s) := by
  simp only [exec, execBqupd, withSlot_eq_next, needValid_eq_next, complete_eq_next] at h
  rcases h with ⟨_, h⟩ | ⟨b, hb, ⟨_, h⟩ | ⟨hv, h⟩⟩
  · exact Or.inl ⟨_, _, h.symm⟩
  · exact Or.inl ⟨_, _, h.symm⟩
  · exact Or.inr ⟨b, hb, hv, h.symm⟩

theorem exec_bqrcfir2_cases {sl : SlotNo} {ra : Reg} {s t : State} (h : exec (.bqrcfir2 sl ra) s = .next t) :
    Faulted (.bqrcfir2 sl ra) s t ∨
      ∃ b, s.bq[sl.toNat]? = some b ∧ t = 
        advance (initBq sl (rcfir2Coefs (readReg s ra)) s) := by
  simp only [exec, execBqrcfir2, withSlot_eq_next, complete_eq_next] at h
  rcases h with ⟨_, h⟩ | ⟨b, hb, h⟩
  · exact Or.inl ⟨_, _, h.symm⟩
  · exact Or.inr ⟨b, hb, h.symm⟩

theorem exec_bqdf1_cases {sl : SlotNo} {rd ra : Reg} {s t : State} (h : exec (.bqdf1 sl rd ra) s = .next t) :
    Faulted (.bqdf1 sl rd ra) s t ∨
      ∃ b, s.bq[sl.toNat]? = some b ∧ b.valid = true ∧ t = 
        advance (writeReg rd (df1 b.sec (readReg s ra)).1
          (putBq sl { b with sec := (df1 b.sec (readReg s ra)).2 } s)) := by
  simp only [exec, execBqdf1, withSlot_eq_next, needValid_eq_next, complete_eq_next] at h
  rcases h with ⟨_, h⟩ | ⟨b, hb, ⟨_, h⟩ | ⟨hv, h⟩⟩
  · exact Or.inl ⟨_, _, h.symm⟩
  · exact Or.inl ⟨_, _, h.symm⟩
  · exact Or.inr ⟨b, hb, hv, h.symm⟩

theorem exec_bqapply_cases {sl : SlotNo} {rd ra : Reg} {s t : State} (h : exec (.bqapply sl rd ra) s = .next t) :
    Faulted (.bqapply sl rd ra) s t ∨
      ∃ b, s.bq[sl.toNat]? = some b ∧ b.valid = true ∧ t = 
        advance (writeReg rd (df2t b.sec (readReg s ra)).1
          (putBq sl { b with sec := (df2t b.sec (readReg s ra)).2 } s)) := by
  simp only [exec, execBqapply, withSlot_eq_next, needValid_eq_next, complete_eq_next] at h
  rcases h with ⟨_, h⟩ | ⟨b, hb, ⟨_, h⟩ | ⟨hv, h⟩⟩
  · exact Or.inl ⟨_, _, h.symm⟩
  · exact Or.inl ⟨_, _, h.symm⟩
  · exact Or.inr ⟨b, hb, hv, h.symm⟩

theorem exec_notchq_cases {rd ra rb : Reg} {s t : State} (h : exec (.notchq rd ra rb) s = .next t) :
    t = advance (writeReg rd (notchQ (readReg s ra) (readReg s rb)) s) := by
  simp only [exec, execNotchq, complete_eq_next] at h
  exact h.symm

theorem exec_casinit_cases {sl : SlotNo} {rd ra rb rc : Reg} {s t : State} (h : exec (.casinit sl rd ra rb rc) s = .next t) :
    Faulted (.casinit sl rd ra rb rc) s t ∨
      ∃ b, s.cas[sl.toNat]? = some b ∧ t = 
        advance (writeReg rd (casInitSlot (readReg s ra) (readReg s rb) (readReg s rc) b).sections
          (putCas sl (casInitSlot (readReg s ra) (readReg s rb) (readReg s rc) b) s)) := by
  simp only [exec, execCasinit, withSlot_eq_next, complete_eq_next] at h
  rcases h with ⟨_, h⟩ | ⟨b, hb, h⟩
  · exact Or.inl ⟨_, _, h.symm⟩
  · exact Or.inr ⟨b, hb, h.symm⟩

theorem exec_casapply_cases {sl : SlotNo} {rd ra : Reg} {s t : State} (h : exec (.casapply sl rd ra) s = .next t) :
    Faulted (.casapply sl rd ra) s t ∨
      ∃ b, s.cas[sl.toNat]? = some b ∧ b.valid = true ∧ t = 
        advance (writeReg rd (casApply b (readReg s ra)).1
          (putCas sl (casApply b (readReg s ra)).2 s)) := by
  simp only [exec, execCasapply, withSlot_eq_next, needValid_eq_next, complete_eq_next] at h
  rcases h with ⟨_, h⟩ | ⟨b, hb, ⟨_, h⟩ | ⟨hv, h⟩⟩
  · exact Or.inl ⟨_, _, h.symm⟩
  · exact Or.inl ⟨_, _, h.symm⟩
  · exact Or.inr ⟨b, hb, hv, h.symm⟩

theorem exec_pt1gain_cases {rd ra rb : Reg} {s t : State} (h : exec (.pt1gain rd ra rb) s = .next t) :
    t = advance (writeReg rd (pt1Gain (readReg s ra) (readReg s rb)) s) := by
  simp only [exec, execPt1gain, complete_eq_next] at h
  exact h.symm

theorem exec_pt1init_cases {sl : SlotNo} {ra : Reg} {s t : State} (h : exec (.pt1init sl ra) s = .next t) :
    Faulted (.pt1init sl ra) s t ∨
      ∃ b, s.pt1[sl.toNat]? = some b ∧ t = 
        advance (putPt1 sl { valid := true, state := fZERO, k := readReg s ra } s) := by
  simp only [exec, execPt1init, withSlot_eq_next, complete_eq_next] at h
  rcases h with ⟨_, h⟩ | ⟨b, hb, h⟩
  · exact Or.inl ⟨_, _, h.symm⟩
  · exact Or.inr ⟨b, hb, h.symm⟩

theorem exec_pt1apply_cases {sl : SlotNo} {rd ra : Reg} {s t : State} (h : exec (.pt1apply sl rd ra) s = .next t) :
    Faulted (.pt1apply sl rd ra) s t ∨
      ∃ b, s.pt1[sl.toNat]? = some b ∧ b.valid = true ∧ t = 
        advance (writeReg rd (pt1Next b (readReg s ra))
          (putPt1 sl { b with state := pt1Next b (readReg s ra) } s)) := by
  simp only [exec, execPt1apply, withSlot_eq_next, needValid_eq_next, complete_eq_next] at h
  rcases h with ⟨_, h⟩ | ⟨b, hb, ⟨_, h⟩ | ⟨hv, h⟩⟩
  · exact Or.inl ⟨_, _, h.symm⟩
  · exact Or.inl ⟨_, _, h.symm⟩
  · exact Or.inr ⟨b, hb, hv, h.symm⟩

/-- `FirInit`: a fault, or the four checks passed (45_fir.md R181). -/
theorem firInit_cases {i : Instr} {sl : SlotNo} {bb bl cb cl : Word} {s t : State}
    (h : firInit i sl bb bl cb cl s = .next t) :
    Faulted i s t ∨
      (bl ≠ 0 ∧ cl.toNat ≤ bl.toNat ∧ bb.toNat + bl.toNat ≤ s.memWords ∧ cb.toNat + cl.toNat ≤ s.memWords ∧
        t = advance (putFir sl (firInitSlot bb bl cb cl) (memZero bb.toNat bl.toNat s))) := by
  unfold firInit at h
  split at h
  · exact Or.inl ⟨_, _, (raise_eq_next.1 h).symm⟩
  · split at h
    · exact Or.inl ⟨_, _, (raise_eq_next.1 h).symm⟩
    · split at h
      · exact Or.inl ⟨_, _, (raise_eq_next.1 h).symm⟩
      · split at h
        · exact Or.inl ⟨_, _, (raise_eq_next.1 h).symm⟩
        · exact Or.inr ⟨by assumption, by omega, by omega, by omega, (complete_eq_next.1 h).symm⟩

theorem exec_firinit_cases {sl : SlotNo} {ra rb rc : Reg} {s t : State} (h : exec (.firinit sl ra rb rc) s = .next t) :
    Faulted (.firinit sl ra rb rc) s t ∨
      ((∃ b, s.fir[sl.toNat]? = some b) ∧ readReg s rb ≠ 0 ∧ (readReg s rb).toNat ≤ (readReg s rb).toNat ∧
        (readReg s ra).toNat + (readReg s rb).toNat ≤ s.memWords ∧
        (readReg s rc).toNat + (readReg s rb).toNat ≤ s.memWords ∧
        t = advance (putFir sl (firInitSlot (readReg s ra) (readReg s rb) (readReg s rc) (readReg s rb))
          (memZero (readReg s ra).toNat (readReg s rb).toNat s))) := by
  simp only [exec, execFirinit, withSlot_eq_next] at h
  rcases h with ⟨_, h⟩ | ⟨b, hb, h⟩
  · exact Or.inl ⟨_, _, h.symm⟩
  · exact (firInit_cases h).imp_right fun h => ⟨⟨b, hb⟩, h⟩

theorem exec_firinit2_cases {sl : SlotNo} {ra rb rc re : Reg} {s t : State} (h : exec (.firinit2 sl ra rb rc re) s = .next t) :
    Faulted (.firinit2 sl ra rb rc re) s t ∨
      ((∃ b, s.fir[sl.toNat]? = some b) ∧ readReg s rb ≠ 0 ∧ (readReg s re).toNat ≤ (readReg s rb).toNat ∧
        (readReg s ra).toNat + (readReg s rb).toNat ≤ s.memWords ∧
        (readReg s rc).toNat + (readReg s re).toNat ≤ s.memWords ∧
        t = advance (putFir sl (firInitSlot (readReg s ra) (readReg s rb) (readReg s rc) (readReg s re))
          (memZero (readReg s ra).toNat (readReg s rb).toNat s))) := by
  simp only [exec, execFirinit2, withSlot_eq_next] at h
  rcases h with ⟨_, h⟩ | ⟨b, hb, h⟩
  · exact Or.inl ⟨_, _, h.symm⟩
  · exact (firInit_cases h).imp_right fun h => ⟨⟨b, hb⟩, h⟩

theorem exec_firupd_cases {sl : SlotNo} {ra : Reg} {s t : State} (h : exec (.firupd sl ra) s = .next t) :
    Faulted (.firupd sl ra) s t ∨
      ∃ b, s.fir[sl.toNat]? = some b ∧ b.valid = true ∧ t = 
        advance (firUpdate sl b (readReg s ra) s) := by
  simp only [exec, execFirupd, withSlot_eq_next, needValid_eq_next, complete_eq_next] at h
  rcases h with ⟨_, h⟩ | ⟨b, hb, ⟨_, h⟩ | ⟨hv, h⟩⟩
  · exact Or.inl ⟨_, _, h.symm⟩
  · exact Or.inl ⟨_, _, h.symm⟩
  · exact Or.inr ⟨b, hb, hv, h.symm⟩

theorem exec_firupdavg_cases {sl : SlotNo} {ra : Reg} {s t : State} (h : exec (.firupdavg sl ra) s = .next t) :
    Faulted (.firupdavg sl ra) s t ∨
      ∃ b, s.fir[sl.toNat]? = some b ∧ b.valid = true ∧ t = 
        advance (putFir sl (firPushedAvg b (memRead s (bufAddr b b.index.toNat)) (readReg s ra))
          (memWrite (bufAddr b b.index.toNat) (readReg s ra) s)) := by
  simp only [exec, execFirupdavg, withSlot_eq_next, needValid_eq_next, complete_eq_next] at h
  rcases h with ⟨_, h⟩ | ⟨b, hb, ⟨_, h⟩ | ⟨hv, h⟩⟩
  · exact Or.inl ⟨_, _, h.symm⟩
  · exact Or.inl ⟨_, _, h.symm⟩
  · exact Or.inr ⟨b, hb, hv, h.symm⟩

theorem exec_firapply_cases {sl : SlotNo} {rd : Reg} {s t : State} (h : exec (.firapply sl rd) s = .next t) :
    Faulted (.firapply sl rd) s t ∨
      ∃ b, s.fir[sl.toNat]? = some b ∧ b.valid = true ∧ t = 
        advance (writeReg rd (firOutput s.mem b) s) := by
  simp only [exec, execFirapply, withSlot_eq_next, needValid_eq_next, complete_eq_next] at h
  rcases h with ⟨_, h⟩ | ⟨b, hb, ⟨_, h⟩ | ⟨hv, h⟩⟩
  · exact Or.inl ⟨_, _, h.symm⟩
  · exact Or.inl ⟨_, _, h.symm⟩
  · exact Or.inr ⟨b, hb, hv, h.symm⟩

theorem exec_firpavg_cases {sl : SlotNo} {rd ra : Reg} {s t : State} (h : exec (.firpavg sl rd ra) s = .next t) :
    Faulted (.firpavg sl rd ra) s t ∨
      ∃ b, s.fir[sl.toNat]? = some b ∧ b.valid = true ∧ (readReg s ra).toNat ≤ b.bufLength.toNat ∧
        t = advance (writeReg rd (firPartialAverage s.mem b (readReg s ra)) s) := by
  simp only [exec, execFirpavg, withSlot_eq_next, needValid_eq_next] at h
  rcases h with ⟨_, h⟩ | ⟨b, hb, ⟨_, h⟩ | ⟨hv, h⟩⟩
  · exact Or.inl ⟨_, _, h.symm⟩
  · exact Or.inl ⟨_, _, h.symm⟩
  · split at h
    · exact Or.inl ⟨_, _, (raise_eq_next.1 h).symm⟩
    · exact Or.inr ⟨b, hb, hv, by omega, (complete_eq_next.1 h).symm⟩

theorem exec_firmavg_cases {sl : SlotNo} {rd : Reg} {s t : State} (h : exec (.firmavg sl rd) s = .next t) :
    Faulted (.firmavg sl rd) s t ∨
      ∃ b, s.fir[sl.toNat]? = some b ∧ b.valid = true ∧ t = 
        advance (writeReg rd (fdiv b.movingSum (u2f b.bufLength)) s) := by
  simp only [exec, execFirmavg, withSlot_eq_next, needValid_eq_next, complete_eq_next] at h
  rcases h with ⟨_, h⟩ | ⟨b, hb, ⟨_, h⟩ | ⟨hv, h⟩⟩
  · exact Or.inl ⟨_, _, h.symm⟩
  · exact Or.inl ⟨_, _, h.symm⟩
  · exact Or.inr ⟨b, hb, hv, h.symm⟩

theorem exec_firupdapply_cases {sl : SlotNo} {rd ra : Reg} {s t : State} (h : exec (.firupdapply sl rd ra) s = .next t) :
    Faulted (.firupdapply sl rd ra) s t ∨
      ∃ b, s.fir[sl.toNat]? = some b ∧ b.valid = true ∧ t = 
        advance (writeReg rd (firOutput (firUpdate sl b (readReg s ra) s).mem (firPushed b))
          (firUpdate sl b (readReg s ra) s)) := by
  simp only [exec, execFirupdapply, withSlot_eq_next, needValid_eq_next, complete_eq_next] at h
  rcases h with ⟨_, h⟩ | ⟨b, hb, ⟨_, h⟩ | ⟨hv, h⟩⟩
  · exact Or.inl ⟨_, _, h.symm⟩
  · exact Or.inl ⟨_, _, h.symm⟩
  · exact Or.inr ⟨b, hb, hv, h.symm⟩

theorem exec_firlast_cases {sl : SlotNo} {rd : Reg} {s t : State} (h : exec (.firlast sl rd) s = .next t) :
    Faulted (.firlast sl rd) s t ∨
      ∃ b, s.fir[sl.toNat]? = some b ∧ b.valid = true ∧ t = 
        advance (writeReg rd (memRead s (lastAddr b)) s) := by
  simp only [exec, execFirlast, withSlot_eq_next, needValid_eq_next, complete_eq_next] at h
  rcases h with ⟨_, h⟩ | ⟨b, hb, ⟨_, h⟩ | ⟨hv, h⟩⟩
  · exact Or.inl ⟨_, _, h.symm⟩
  · exact Or.inl ⟨_, _, h.symm⟩
  · exact Or.inr ⟨b, hb, hv, h.symm⟩

theorem exec_slewinit_cases {sl : SlotNo} {ra rb : Reg} {s t : State} (h : exec (.slewinit sl ra rb) s = .next t) :
    Faulted (.slewinit sl ra rb) s t ∨
      ∃ b, s.slew[sl.toNat]? = some b ∧ t = 
        advance (putSlew sl
          { valid := true, state := fZERO, slewLimit := readReg s ra, threshold := readReg s rb } s) := by
  simp only [exec, execSlewinit, withSlot_eq_next, complete_eq_next] at h
  rcases h with ⟨_, h⟩ | ⟨b, hb, h⟩
  · exact Or.inl ⟨_, _, h.symm⟩
  · exact Or.inr ⟨b, hb, h.symm⟩

theorem exec_slewapply_cases {sl : SlotNo} {rd ra : Reg} {s t : State} (h : exec (.slewapply sl rd ra) s = .next t) :
    Faulted (.slewapply sl rd ra) s t ∨
      ∃ b, s.slew[sl.toNat]? = some b ∧ b.valid = true ∧ t = 
        advance (writeReg rd (slewOut b (readReg s ra))
          (putSlew sl { b with state := slewOut b (readReg s ra) } s)) := by
  simp only [exec, execSlewapply, withSlot_eq_next, needValid_eq_next, complete_eq_next] at h
  rcases h with ⟨_, h⟩ | ⟨b, hb, ⟨_, h⟩ | ⟨hv, h⟩⟩
  · exact Or.inl ⟨_, _, h.symm⟩
  · exact Or.inl ⟨_, _, h.symm⟩
  · exact Or.inr ⟨b, hb, hv, h.symm⟩

/-! ## One step -/

/-- The two answers of a step that runs a command or takes an illegal word. -/
theorem stepOutcome_eq_next {r : Result} {t : State} :
    stepOutcome r = .next t ↔ r = .next t ∧ faultBit t.status = false := by
  cases r with
  | next u =>
    cases h : faultBit u.status
    · simp only [stepOutcome, h, Bool.false_eq_true, if_false, Host.Outcome.next.injEq]
      exact ⟨fun e => ⟨e, e ▸ h⟩, And.left⟩
    · simp only [stepOutcome, h, if_true, reduceCtorEq, Host.Outcome.next.injEq, false_iff, not_and]
      rintro rfl h'
      simp [h] at h'
  | fault f => simp [stepOutcome]
  | refused x => simp [stepOutcome]

@[simp] theorem stepOutcome_next_of_running {t : State} (h : faultBit t.status = false) :
    stepOutcome (.next t) = .next t := by simp [stepOutcome, h]

@[simp] theorem stepOutcome_next_of_faulted {t : State} (h : faultBit t.status = true) :
    stepOutcome (.next t) = .fault (.faulted t) := by simp [stepOutcome, h]

@[simp] theorem stepOutcome_takeFault (c : Cause) (w info : Word) (s : State) :
    stepOutcome (.next (takeFault c w info s)) = .fault (.faulted (takeFault c w info s)) :=
  stepOutcome_next_of_faulted (faultBit_setFaultBit s.status)

theorem step_of_faulted {s : State} (h : faultBit s.status = true) : step s = .fault (.faulted s) := by
  simp [step, h]

theorem step_of_empty {s : State} (hf : faultBit s.status = false) (hq : s.cmdq = []) : step s = .next s := by
  simp [step, hf, takeWord, hq]

theorem step_of_illegal {s : State} {w : Word} {rest : List Word} {e : DecodeError} (hf : faultBit s.status = false)
    (hq : s.cmdq = w :: rest) (hd : decode w = .error e) :
    step s = .fault (.faulted (takeFault .illegal w w { s with cmdq := rest })) := by
  simp [step, hf, takeWord, hq, hd]

theorem step_of_command {s : State} {w : Word} {rest : List Word} {i : Instr} (hf : faultBit s.status = false)
    (hq : s.cmdq = w :: rest) (hd : decode w = .ok i) : step s = stepOutcome (exec i { s with cmdq := rest }) := by
  simp [step, hf, takeWord, hq, hd]

/-- Everything a step that has a next state can do: wait, or execute a command that takes no fault. -/
theorem step_cases {s t : State} (h : step s = .next t) :
    faultBit s.status = false ∧ faultBit t.status = false ∧
      ((s.cmdq = [] ∧ t = s) ∨
       ∃ w rest i, s.cmdq = w :: rest ∧ decode w = .ok i ∧ exec i { s with cmdq := rest } = .next t) := by
  cases hf : faultBit s.status with
  | true => rw [step_of_faulted hf] at h; cases h
  | false =>
    cases hq : s.cmdq with
    | nil =>
      rw [step_of_empty hf hq] at h
      cases h
      exact ⟨rfl, hf, .inl ⟨rfl, rfl⟩⟩
    | cons w rest =>
      cases hd : decode w with
      | error e => rw [step_of_illegal hf hq hd] at h; cases h
      | ok i =>
        rw [step_of_command hf hq hd, stepOutcome_eq_next] at h
        exact ⟨rfl, h.2, .inr ⟨w, rest, i, rfl, hd, h.1⟩⟩

/-- Everything a step that answers a fault can do: it starts in a faulted state and that is the one it carries, or it takes
the fault of an illegal word or of a command. -/
theorem step_fault_cases {s t : State} (h : step s = .fault (.faulted t)) :
    (faultBit s.status = true ∧ t = s) ∨
    (faultBit s.status = false ∧ ∃ w rest, s.cmdq = w :: rest ∧
      ((∃ e, decode w = .error e ∧ t = takeFault .illegal w w { s with cmdq := rest }) ∨
       ∃ i, decode w = .ok i ∧ stepOutcome (exec i { s with cmdq := rest }) = .fault (.faulted t))) := by
  cases hf : faultBit s.status with
  | true =>
    rw [step_of_faulted hf] at h
    cases h
    exact .inl ⟨rfl, rfl⟩
  | false =>
    refine .inr ⟨rfl, ?_⟩
    cases hq : s.cmdq with
    | nil => rw [step_of_empty hf hq] at h; cases h
    | cons w rest =>
      refine ⟨w, rest, rfl, ?_⟩
      cases hd : decode w with
      | error e =>
        rw [step_of_illegal hf hq hd] at h
        cases h
        exact .inl ⟨e, rfl, rfl⟩
      | ok i =>
        rw [step_of_command hf hq hd] at h
        exact .inr ⟨i, rfl, h⟩

end Sys2Proof.Machine
end

