-- ==== Sys2Proof/Laws/Numerics.lean ====
section
/-! SUPPORT. The parts of a binary32 pattern and of rounding (40_numerics.md R100, R101). -/

namespace Sys2Proof.Machine

theorem f32Exp_eq (a : F32) : f32Exp a = a.toNat / 2 ^ 23 % 256 := by
  simp [f32Exp, BitVec.extractLsb'_toNat, Nat.shiftRight_eq_div_pow]

theorem f32Frac_eq (a : F32) : f32Frac a = a.toNat % 2 ^ 23 := by
  simp [f32Frac, BitVec.extractLsb'_toNat]

theorem f32Neg_eq (a : F32) : f32Neg a = decide (2 ^ 31 ≤ a.toNat) := by
  have h : f32Neg a = a.msb := by simp [f32Neg, BitVec.msb_eq_getLsbD_last]
  rw [h, BitVec.msb_eq_decide]

theorem f32Exp_le (a : F32) : f32Exp a ≤ 255 := by
  have := Nat.mod_lt (a.toNat / 2 ^ 23) (show 256 > 0 by decide)
  rw [f32Exp_eq]
  omega

theorem f32Frac_lt (a : F32) : f32Frac a < 2 ^ 23 := by
  rw [f32Frac_eq]
  exact Nat.mod_lt _ (by decide)

/-- The number of a signed pattern. -/
theorem withSign_toNat (neg : Bool) {b : Nat} (hb : b < 2 ^ 31) :
    (withSign neg b).toNat = (if neg then 2 ^ 31 else 0) + b := by
  cases neg
  · simp [withSign, Nat.mod_eq_of_lt (show b < 4294967296 by omega)]
  · have h : 2 ^ 31 ||| b = 2 ^ 31 + b := by
      have := Nat.two_pow_add_eq_or_of_lt hb 1
      simpa using this.symm
    simp only [withSign, if_true, BitVec.toNat_or, BitVec.toNat_ofNat]
    rw [Nat.mod_eq_of_lt (show b < 2 ^ 32 by omega)]
    exact h

@[simp] theorem f32Neg_withSign (neg : Bool) {b : Nat} (hb : b < 2 ^ 31) : f32Neg (withSign neg b) = neg := by
  rw [f32Neg_eq, withSign_toNat neg hb]
  cases neg <;> simp; omega

theorem f32Exp_withSign (neg : Bool) {b : Nat} (hb : b < 2 ^ 31) : f32Exp (withSign neg b) = b / 2 ^ 23 := by
  rw [f32Exp_eq, withSign_toNat neg hb]
  cases neg <;> simp <;> omega

theorem f32Frac_withSign (neg : Bool) {b : Nat} (hb : b < 2 ^ 31) : f32Frac (withSign neg b) = b % 2 ^ 23 := by
  rw [f32Frac_eq, withSign_toNat neg hb]
  cases neg <;> simp <;> omega

/-- A rounded pattern is at most that of infinity. -/
theorem roundBits_le (p q : Nat) : roundBits p q ≤ 0x7F800000 := Nat.min_le_right _ _

theorem roundBits_lt (p q : Nat) : roundBits p q < 2 ^ 31 := lt_of_le_of_lt (roundBits_le p q) (by decide)

@[simp] theorem f32Neg_roundF32 (neg : Bool) (p q : Nat) : f32Neg (roundF32 neg p q) = neg :=
  f32Neg_withSign neg (roundBits_lt p q)

/-- Rounding never gives a NaN. -/
@[simp] theorem f32IsNaN_roundF32 (neg : Bool) (p q : Nat) : f32IsNaN (roundF32 neg p q) = false := by
  have h := roundBits_le p q
  have hb := roundBits_lt p q
  by_contra hn
  simp only [roundF32, f32IsNaN, f32Exp_withSign neg hb, f32Frac_withSign neg hb, Bool.not_eq_false, Bool.and_eq_true,
    beq_iff_eq, bne_iff_ne, ne_eq] at hn
  omega

/-- The nearest whole number: within half a unit, and even when exactly half a unit away. -/
theorem divNearestEven_spec {p q : Nat} (hq : 0 < q) :
    2 * p ≤ (2 * divNearestEven p q + 1) * q ∧ 2 * (divNearestEven p q * q) ≤ 2 * p + q ∧
    ((2 * p = (2 * divNearestEven p q + 1) * q ∨ 2 * (divNearestEven p q * q) = 2 * p + q) →
      divNearestEven p q % 2 = 0) := by
  have hd : p = q * (p / q) + p % q := (Nat.div_add_mod p q).symm
  have hr : p % q < q := Nat.mod_lt _ hq
  generalize hm : p / q = m at *
  generalize hrr : p % q = r at *
  have e1 : m * q = q * m := Nat.mul_comm _ _
  unfold divNearestEven
  rw [hm, hrr]
  split
  · rename_i h
    refine ⟨?_, ?_, ?_⟩ <;> simp only [Nat.add_mul, Nat.mul_assoc, e1] <;> omega
  · split
    · rename_i h
      refine ⟨?_, ?_, ?_⟩ <;> simp only [Nat.add_mul, Nat.mul_add, Nat.mul_assoc, e1] <;> omega
    · have h2 : 2 * r = q := by omega
      rcases Nat.mod_two_eq_zero_or_one m with h0 | h1
      · rw [h0]
        refine ⟨?_, ?_, ?_⟩ <;> simp only [Nat.add_mul, Nat.mul_assoc, Nat.add_zero, e1] <;> omega
      · rw [h1]
        refine ⟨?_, ?_, ?_⟩ <;> simp only [Nat.add_mul, Nat.mul_add, Nat.mul_assoc, e1] <;> omega

/-! ## Bit operations (R105) -/

@[simp] theorem fneg_fneg (a : F32) : fneg (fneg a) = a := by
  simp [fneg]

@[simp] theorem f32Neg_fneg (a : F32) : f32Neg (fneg a) = !f32Neg a := by
  simp [f32Neg, fneg]

@[simp] theorem f32Exp_fneg (a : F32) : f32Exp (fneg a) = f32Exp a := by
  unfold f32Exp fneg
  congr 1
  apply BitVec.eq_of_getLsbD_eq
  intro k hk
  simp only [BitVec.getLsbD_extractLsb', BitVec.getLsbD_xor]
  interval_cases k <;> simp

@[simp] theorem f32Frac_fneg (a : F32) : f32Frac (fneg a) = f32Frac a := by
  unfold f32Frac fneg
  congr 1
  apply BitVec.eq_of_getLsbD_eq
  intro k hk
  simp only [BitVec.getLsbD_extractLsb', BitVec.getLsbD_xor]
  interval_cases k <;> simp

@[simp] theorem f32Mag_fneg (a : F32) : f32Mag (fneg a) = f32Mag a := by simp [f32Mag]

@[simp] theorem f32Val_fneg (a : F32) : f32Val (fneg a) = -f32Val a := by
  cases h : f32Neg a <;> simp [f32Val, h]

@[simp] theorem f32IsNaN_fneg (a : F32) : f32IsNaN (fneg a) = f32IsNaN a := by simp [f32IsNaN]

@[simp] theorem f32IsInf_fneg (a : F32) : f32IsInf (fneg a) = f32IsInf a := by simp [f32IsInf]

/-! ## Sine and cosine (R109) -/

theorem trigOf_notFinite {a : F32} (h : f32IsFinite a = false) (raw : F32 → F32) (z : F32) : trigOf raw z a = fNAN := by
  simp [trigOf, h]

theorem trigOf_zero (raw : F32 → F32) (z : F32) : trigOf raw z fZERO = z := by
  simp only [trigOf, show f32IsFinite fZERO = true from by decide]
  simp

/-! ## NaN operands (40_numerics.md R103) -/

@[simp] theorem f32IsNaN_fNAN : f32IsNaN fNAN = true := by decide

theorem fadd_nan_left {a : F32} (h : f32IsNaN a = true) (b : F32) : fadd a b = fNAN := by simp [fadd, h]
theorem fadd_nan_right {b : F32} (h : f32IsNaN b = true) (a : F32) : fadd a b = fNAN := by simp [fadd, h]
theorem fsub_nan_left {a : F32} (h : f32IsNaN a = true) (b : F32) : fsub a b = fNAN := by simp [fsub, fadd, h]
theorem fsub_nan_right {b : F32} (h : f32IsNaN b = true) (a : F32) : fsub a b = fNAN := by simp [fsub, fadd, h]
theorem fmul_nan_left {a : F32} (h : f32IsNaN a = true) (b : F32) : fmul a b = fNAN := by simp [fmul, h]
theorem fmul_nan_right {b : F32} (h : f32IsNaN b = true) (a : F32) : fmul a b = fNAN := by simp [fmul, h]

end Sys2Proof.Machine
end

