-- ==== Sys2Proof/Laws/Operands.lean ====
section
/-! SUPPORT. What reading the state space can answer, and when a command takes a given fault. -/

namespace Sys2Proof.Machine

open Sys2Proof.Safety

/-- A field of the state space has no value exactly where its unit has no such slot. -/
theorem readField_eq_none {s : State} {f : Field} {n : Nat} : readField s f n = none ↔ fieldSlots s f ≤ n := by
  cases f <;> simp [readField, fieldSlots, Nat.one_le_iff_ne_zero]

theorem readField_isSome {s : State} {f : Field} {n : Nat} (h : n < fieldSlots s f) :
    ∃ v, readField s f n = some v := by
  cases hr : readField s f n with
  | none => exact absurd (readField_eq_none.1 hr) (Nat.not_le.2 h)
  | some v => exact ⟨v, rfl⟩

theorem faultEntered_takeFault (c : Cause) (w info : Word) (s : State) :
    FaultEntered c w info s (takeFault c w info s) := rfl

theorem faultsWith_of_raise {c : Cause} {info : Word} {i : Instr} {s : State} (h : exec i s = raise c i info s) :
    FaultsWith c info i s := ⟨_, h, rfl⟩

end Sys2Proof.Machine
end

