-- ==== Sys2Proof/Laws/PerInstr.lean ====
section
/-! SUPPORT. Statements made of every instruction, one lemma per constructor. -/

namespace Sys2Proof.Laws.MatchesRow

/-- The word of a command is selected by the mask and match of its own row (30_encoding.md R84, R87). -/
def Statement (i : Instr) : Prop := encode i &&& opMask (opOf i) = opMatch (opOf i)

/-- The shape of every case: the mask's fields cut the word's used fields away. -/
theorem of_fields {i : Instr} (m : Fields) (hm : opMask (opOf i) = wordOf m)
    (h : wordOf ⟨(operandFields (opByte (opOf i)) i).op &&& m.op, (operandFields (opByte (opOf i)) i).sl &&& m.sl,
      (operandFields (opByte (opOf i)) i).rd &&& m.rd, (operandFields (opByte (opOf i)) i).ra &&& m.ra,
      (operandFields (opByte (opOf i)) i).rb &&& m.rb, (operandFields (opByte (opOf i)) i).rc &&& m.rc,
      (operandFields (opByte (opOf i)) i).re &&& m.re⟩ = opMatch (opOf i)) : Statement i := by
  rw [Statement, encode, hm, wordOf_and, h]

theorem nop : Statement .nop :=
  of_fields ⟨0xFF, 0xF, 0xF, 0xF, 0xF, 0xF, 0xF⟩ (by rfl) (by simp [operandFields, opOf, opByte, opMatch, wordOf])

theorem lih (rd : Reg) (imm16 : BitVec 16) : Statement (.lih rd imm16) :=
  of_fields ⟨0xFF, 0xF, 0x0, 0x0, 0x0, 0x0, 0x0⟩ (by rfl) (by simp [operandFields, opOf, opByte, opMatch, wordOf])

theorem lil (rd : Reg) (imm16 : BitVec 16) : Statement (.lil rd imm16) :=
  of_fields ⟨0xFF, 0xF, 0x0, 0x0, 0x0, 0x0, 0x0⟩ (by rfl) (by simp [operandFields, opOf, opByte, opMatch, wordOf])

theorem mov (rd ra : Reg) : Statement (.mov rd ra) :=
  of_fields ⟨0xFF, 0xF, 0x0, 0x0, 0xF, 0xF, 0xF⟩ (by rfl) (by simp [operandFields, opOf, opByte, opMatch, wordOf])

theorem rdm (rd ra : Reg) : Statement (.rdm rd ra) :=
  of_fields ⟨0xFF, 0xF, 0x0, 0x0, 0xF, 0xF, 0xF⟩ (by rfl) (by simp [operandFields, opOf, opByte, opMatch, wordOf])

theorem wrm (ra rb : Reg) : Statement (.wrm ra rb) :=
  of_fields ⟨0xFF, 0xF, 0xF, 0x0, 0x0, 0xF, 0xF⟩ (by rfl) (by simp [operandFields, opOf, opByte, opMatch, wordOf])

theorem rds (sl : SlotNo) (rd : Reg) (un : BitVec 4) (fld : BitVec 8) : Statement (.rds sl rd un fld) :=
  of_fields ⟨0xFF, 0x0, 0x0, 0xF, 0x0, 0x0, 0x0⟩ (by rfl) (by simp [operandFields, opOf, opByte, opMatch, wordOf])

theorem wrs (sl : SlotNo) (ra : Reg) (un : BitVec 4) (fld : BitVec 8) : Statement (.wrs sl ra un fld) :=
  of_fields ⟨0xFF, 0x0, 0xF, 0x0, 0x0, 0x0, 0x0⟩ (by rfl) (by simp [operandFields, opOf, opByte, opMatch, wordOf])

theorem bqinitlpf (sl : SlotNo) (ra rb : Reg) : Statement (.bqinitlpf sl ra rb) :=
  of_fields ⟨0xFF, 0x0, 0xF, 0x0, 0x0, 0xF, 0xF⟩ (by rfl) (by simp [operandFields, opOf, opByte, opMatch, wordOf])

theorem bqinit (sl : SlotNo) (ra rb rc : Reg) (ty : FilterType) : Statement (.bqinit sl ra rb rc ty) :=
  of_fields ⟨0xFF, 0x0, 0xF, 0x0, 0x0, 0x0, 0xC⟩ (by rfl) (by cases ty <;> simp [operandFields, opOf, opByte, opMatch, wordOf, typeCode])

theorem bqupd (sl : SlotNo) (ra rb rc : Reg) (ty : FilterType) : Statement (.bqupd sl ra rb rc ty) :=
  of_fields ⟨0xFF, 0x0, 0xF, 0x0, 0x0, 0x0, 0xC⟩ (by rfl) (by cases ty <;> simp [operandFields, opOf, opByte, opMatch, wordOf, typeCode])

theorem bqdf1 (sl : SlotNo) (rd ra : Reg) : Statement (.bqdf1 sl rd ra) :=
  of_fields ⟨0xFF, 0x0, 0x0, 0x0, 0xF, 0xF, 0xF⟩ (by rfl) (by simp [operandFields, opOf, opByte, opMatch, wordOf])

theorem bqapply (sl : SlotNo) (rd ra : Reg) : Statement (.bqapply sl rd ra) :=
  of_fields ⟨0xFF, 0x0, 0x0, 0x0, 0xF, 0xF, 0xF⟩ (by rfl) (by simp [operandFields, opOf, opByte, opMatch, wordOf])

theorem notchq (rd ra rb : Reg) : Statement (.notchq rd ra rb) :=
  of_fields ⟨0xFF, 0xF, 0x0, 0x0, 0x0, 0xF, 0xF⟩ (by rfl) (by simp [operandFields, opOf, opByte, opMatch, wordOf])

theorem bqrcfir2 (sl : SlotNo) (ra : Reg) : Statement (.bqrcfir2 sl ra) :=
  of_fields ⟨0xFF, 0x0, 0xF, 0x0, 0xF, 0xF, 0xF⟩ (by rfl) (by simp [operandFields, opOf, opByte, opMatch, wordOf])

theorem casinit (sl : SlotNo) (rd ra rb rc : Reg) : Statement (.casinit sl rd ra rb rc) :=
  of_fields ⟨0xFF, 0x0, 0x0, 0x0, 0x0, 0x0, 0xF⟩ (by rfl) (by simp [operandFields, opOf, opByte, opMatch, wordOf])

theorem casapply (sl : SlotNo) (rd ra : Reg) : Statement (.casapply sl rd ra) :=
  of_fields ⟨0xFF, 0x0, 0x0, 0x0, 0xF, 0xF, 0xF⟩ (by rfl) (by simp [operandFields, opOf, opByte, opMatch, wordOf])

theorem pt1gain (rd ra rb : Reg) : Statement (.pt1gain rd ra rb) :=
  of_fields ⟨0xFF, 0xF, 0x0, 0x0, 0x0, 0xF, 0xF⟩ (by rfl) (by simp [operandFields, opOf, opByte, opMatch, wordOf])

theorem pt1init (sl : SlotNo) (ra : Reg) : Statement (.pt1init sl ra) :=
  of_fields ⟨0xFF, 0x0, 0xF, 0x0, 0xF, 0xF, 0xF⟩ (by rfl) (by simp [operandFields, opOf, opByte, opMatch, wordOf])

theorem pt1apply (sl : SlotNo) (rd ra : Reg) : Statement (.pt1apply sl rd ra) :=
  of_fields ⟨0xFF, 0x0, 0x0, 0x0, 0xF, 0xF, 0xF⟩ (by rfl) (by simp [operandFields, opOf, opByte, opMatch, wordOf])

theorem firinit (sl : SlotNo) (ra rb rc : Reg) : Statement (.firinit sl ra rb rc) :=
  of_fields ⟨0xFF, 0x0, 0xF, 0x0, 0x0, 0x0, 0xF⟩ (by rfl) (by simp [operandFields, opOf, opByte, opMatch, wordOf])

theorem firinit2 (sl : SlotNo) (ra rb rc re : Reg) : Statement (.firinit2 sl ra rb rc re) :=
  of_fields ⟨0xFF, 0x0, 0xF, 0x0, 0x0, 0x0, 0x0⟩ (by rfl) (by simp [operandFields, opOf, opByte, opMatch, wordOf])

theorem firupd (sl : SlotNo) (ra : Reg) : Statement (.firupd sl ra) :=
  of_fields ⟨0xFF, 0x0, 0xF, 0x0, 0xF, 0xF, 0xF⟩ (by rfl) (by simp [operandFields, opOf, opByte, opMatch, wordOf])

theorem firupdavg (sl : SlotNo) (ra : Reg) : Statement (.firupdavg sl ra) :=
  of_fields ⟨0xFF, 0x0, 0xF, 0x0, 0xF, 0xF, 0xF⟩ (by rfl) (by simp [operandFields, opOf, opByte, opMatch, wordOf])

theorem firapply (sl : SlotNo) (rd : Reg) : Statement (.firapply sl rd) :=
  of_fields ⟨0xFF, 0x0, 0x0, 0xF, 0xF, 0xF, 0xF⟩ (by rfl) (by simp [operandFields, opOf, opByte, opMatch, wordOf])

theorem firpavg (sl : SlotNo) (rd ra : Reg) : Statement (.firpavg sl rd ra) :=
  of_fields ⟨0xFF, 0x0, 0x0, 0x0, 0xF, 0xF, 0xF⟩ (by rfl) (by simp [operandFields, opOf, opByte, opMatch, wordOf])

theorem firmavg (sl : SlotNo) (rd : Reg) : Statement (.firmavg sl rd) :=
  of_fields ⟨0xFF, 0x0, 0x0, 0xF, 0xF, 0xF, 0xF⟩ (by rfl) (by simp [operandFields, opOf, opByte, opMatch, wordOf])

theorem firupdapply (sl : SlotNo) (rd ra : Reg) : Statement (.firupdapply sl rd ra) :=
  of_fields ⟨0xFF, 0x0, 0x0, 0x0, 0xF, 0xF, 0xF⟩ (by rfl) (by simp [operandFields, opOf, opByte, opMatch, wordOf])

theorem firlast (sl : SlotNo) (rd : Reg) : Statement (.firlast sl rd) :=
  of_fields ⟨0xFF, 0x0, 0x0, 0xF, 0xF, 0xF, 0xF⟩ (by rfl) (by simp [operandFields, opOf, opByte, opMatch, wordOf])

theorem slewinit (sl : SlotNo) (ra rb : Reg) : Statement (.slewinit sl ra rb) :=
  of_fields ⟨0xFF, 0x0, 0xF, 0x0, 0x0, 0xF, 0xF⟩ (by rfl) (by simp [operandFields, opOf, opByte, opMatch, wordOf])

theorem slewapply (sl : SlotNo) (rd ra : Reg) : Statement (.slewapply sl rd ra) :=
  of_fields ⟨0xFF, 0x0, 0x0, 0x0, 0xF, 0xF, 0xF⟩ (by rfl) (by simp [operandFields, opOf, opByte, opMatch, wordOf])

end Sys2Proof.Laws.MatchesRow
end

