-- ==== Sys2Proof/Laws/Rounding.lean ====
section
/-! SUPPORT. The rounding function meets the definition of 40_numerics.md R101. -/

namespace Sys2Proof.Machine

open Sys2Proof.Safety

/-- The nearest whole number as a statement about rationals. -/
theorem divNearestEven_rat {p q : Nat} (hq : 0 < q) :
    |(p : ℚ) / q - divNearestEven p q| ≤ 1 / 2 ∧
    (|(p : ℚ) / q - divNearestEven p q| = 1 / 2 → divNearestEven p q % 2 = 0) := by
  obtain ⟨h1, h2, h3⟩ := divNearestEven_spec (p := p) hq
  generalize divNearestEven p q = n at *
  have hq' : (0 : ℚ) < q := by exact_mod_cast hq
  have e1 : 2 * (p : ℚ) ≤ (2 * n + 1) * q := by exact_mod_cast h1
  have e2 : 2 * ((n : ℚ) * q) ≤ 2 * p + q := by exact_mod_cast h2
  have hp : (p : ℚ) = p / q * q := by field_simp
  refine ⟨?_, fun h => h3 ?_⟩
  · rw [abs_le]
    constructor <;> by_contra hc <;> nlinarith
  · rcases abs_eq (by norm_num : (0 : ℚ) ≤ 1 / 2) |>.1 h with h | h
    · left
      have : 2 * (p : ℚ) = (2 * n + 1) * q := by rw [hp]; linear_combination 2 * q * h
      exact_mod_cast this
    · right
      have : 2 * ((n : ℚ) * q) = 2 * p + q := by
        have h5 : (p : ℚ) = (n - 1 / 2) * q := by rw [hp]; linear_combination q * h
        rw [h5]; ring
      exact_mod_cast this

/-- No whole number is nearer, and none is as near unless the chosen one is even. -/
theorem divNearestEven_nearest {p q : Nat} (hq : 0 < q) (m : ℤ) :
    |(p : ℚ) / q - divNearestEven p q| ≤ |(p : ℚ) / q - m| ∧
    (m ≠ divNearestEven p q → |(p : ℚ) / q - m| = |(p : ℚ) / q - divNearestEven p q| → divNearestEven p q % 2 = 0) := by
  obtain ⟨h1, h2⟩ := divNearestEven_rat (p := p) hq
  generalize divNearestEven p q = n at *
  generalize (p : ℚ) / q = x at *
  by_cases hm : m = n
  · subst hm
    exact ⟨by simp, fun h => absurd rfl h⟩
  · have hge : (1 : ℚ) ≤ |(m : ℚ) - n| := by
      have : 1 ≤ |m - (n : ℤ)| := Int.one_le_abs (sub_ne_zero.2 hm)
      exact_mod_cast this
    have tri : |(m : ℚ) - n| ≤ |x - m| + |x - n| := by
      have := abs_sub_le (m : ℚ) x n
      rwa [abs_sub_comm (m : ℚ) x] at this
    refine ⟨by linarith, fun _ h => h2 (by linarith)⟩

/-- The place of the leading bit: below 2^24 no shift; with a shift `k` the value is from `2^(23+k)` to below
`2^(24+k)`. -/
theorem roundShift_spec {p q : Nat} (hq : 0 < q) :
    p < 2 ^ (24 + roundShift p q) * q ∧ (roundShift p q ≠ 0 → 2 ^ (23 + roundShift p q) * q ≤ p) := by
  unfold roundShift
  have hlt : p / q < 2 ^ (Nat.log2 (p / q) + 1) := Nat.lt_log2_self
  constructor
  · have : p / q < 2 ^ (24 + (Nat.log2 (p / q) - 23)) :=
      lt_of_lt_of_le hlt (Nat.pow_le_pow_right (by norm_num) (by omega))
    exact (Nat.div_lt_iff_lt_mul hq).1 this
  · intro h
    have h0 : p / q ≠ 0 := by
      intro h0
      rw [h0] at h
      simp [Nat.log2] at h
    have hle : 2 ^ Nat.log2 (p / q) ≤ p / q := Nat.log2_self_le h0
    rw [show 23 + (Nat.log2 (p / q) - 23) = Nat.log2 (p / q) by omega]
    exact (Nat.le_div_iff_mul_le hq).1 hle

/-- The rounded significand fits 24 bits or is 2^24, and has its leading bit where there is a shift. -/
theorem significand_bounds {p q : Nat} (hq : 0 < q) :
    divNearestEven p (q * 2 ^ roundShift p q) ≤ 2 ^ 24 ∧
    (roundShift p q ≠ 0 → 2 ^ 23 ≤ divNearestEven p (q * 2 ^ roundShift p q)) := by
  obtain ⟨h1, h2⟩ := roundShift_spec (p := p) hq
  generalize roundShift p q = k at *
  have hQ : 0 < q * 2 ^ k := by positivity
  obtain ⟨h3, h4, _⟩ := divNearestEven_spec (p := p) hQ
  generalize divNearestEven p (q * 2 ^ k) = n at *
  have e1 : p < 2 ^ 24 * (q * 2 ^ k) := by
    calc p < 2 ^ (24 + k) * q := h1
      _ = _ := by rw [pow_add]; ring
  generalize hG : q * 2 ^ k = G at *
  refine ⟨?_, fun h => ?_⟩
  · by_contra hc
    have : (2 ^ 24 + 1) * G ≤ n * G := Nat.mul_le_mul_right _ (by omega)
    omega
  · have e2 : 2 ^ 23 * G ≤ p := by
      calc 2 ^ 23 * G = 2 ^ (23 + k) * q := by rw [← hG, pow_add]; ring
        _ ≤ p := h2 h
    by_contra hc
    have : (2 * n + 1) * G ≤ (2 ^ 24 - 1) * G := Nat.mul_le_mul_right _ (by omega)
    omega

/-- The magnitude of a pattern `k·2^23 + n`. -/
theorem mag_of_bits {k n : Nat} (hn : n ≤ 2 ^ 24) (hk : k ≠ 0 → 2 ^ 23 ≤ n) :
    (if (k * 2 ^ 23 + n) / 2 ^ 23 = 0 then (k * 2 ^ 23 + n) % 2 ^ 23
     else (2 ^ 23 + (k * 2 ^ 23 + n) % 2 ^ 23) * 2 ^ ((k * 2 ^ 23 + n) / 2 ^ 23 - 1)) = n * 2 ^ k := by
  rcases Nat.lt_or_ge n (2 ^ 23) with h | h
  · have hk0 : k = 0 := by by_contra hc; have := hk hc; omega
    subst hk0
    rw [if_pos (by omega)]
    simp only [Nat.zero_mul, Nat.zero_add, Nat.pow_zero, Nat.mul_one]
    omega
  · rcases Nat.lt_or_ge n (2 ^ 24) with h' | h'
    · rw [if_neg (by omega), show (k * 2 ^ 23 + n) / 2 ^ 23 - 1 = k by omega,
        show 2 ^ 23 + (k * 2 ^ 23 + n) % 2 ^ 23 = n by omega]
    · have : n = 2 ^ 24 := by omega
      subst this
      rw [if_neg (by omega), show (k * 2 ^ 23 + 2 ^ 24) / 2 ^ 23 - 1 = k + 1 by omega,
        show 2 ^ 23 + (k * 2 ^ 23 + 2 ^ 24) % 2 ^ 23 = 2 ^ 23 by omega, pow_succ]
      omega

/-- Overflow: the pattern reaches that of infinity exactly from `(2 - 2^-24)·2^127` on. -/
theorem overflow_iff {p q : Nat} (hq : 0 < q) :
    0x7F800000 ≤ roundShift p q * 2 ^ 23 + divNearestEven p (q * 2 ^ roundShift p q) ↔
      (2 ^ 25 - 1) * 2 ^ 252 * q ≤ p := by
  obtain ⟨h1, h2⟩ := roundShift_spec (p := p) hq
  obtain ⟨h3, h4⟩ := significand_bounds (p := p) hq
  generalize roundShift p q = k at *
  have hQ : 0 < q * 2 ^ k := by positivity
  obtain ⟨h5, h6, h7⟩ := divNearestEven_spec (p := p) hQ
  generalize divNearestEven p (q * 2 ^ k) = n at *
  rcases Nat.lt_trichotomy k 253 with hk | hk | hk
  · have hb : ¬0x7F800000 ≤ k * 2 ^ 23 + n := by omega
    refine iff_of_false hb ?_
    intro hc
    have e : 2 ^ (24 + k) ≤ (2 ^ 25 - 1) * 2 ^ 252 := by
      have h : 2 ^ (24 + k) ≤ 2 ^ (24 + 252) := Nat.pow_le_pow_right (by norm_num) (by omega)
      rw [pow_add 2 24 252] at h
      exact le_trans h (Nat.mul_le_mul_right _ (by norm_num))
    have := Nat.mul_le_mul_right q e
    omega
  · subst hk
    rw [show q * 2 ^ 253 = 2 ^ 253 * q from Nat.mul_comm _ _] at h5 h6 h7
    have split : 2 ^ 253 * q = 2 * (2 ^ 252 * q) := by rw [pow_succ]; ring
    generalize hG : 2 ^ 252 * q = G at *
    have hG0 : 0 < G := by rw [← hG]; positivity
    rw [show (2 ^ 25 - 1) * 2 ^ 252 * q = (2 ^ 25 - 1) * G by rw [← hG]; ring]
    rw [split] at h5 h6 h7
    constructor
    · intro hc
      have : n = 2 ^ 24 := by omega
      subst this
      omega
    · intro hc
      by_contra hcc
      have hn : n ≤ 2 ^ 24 - 1 := by omega
      have e1 : (2 * n + 1) * (2 * G) ≤ (2 ^ 25 - 1) * (2 * G) := Nat.mul_le_mul_right _ (by omega)
      have e2 : 2 * p = (2 * n + 1) * (2 * G) := by omega
      have e3 : (2 * n + 1) * (2 * G) = (2 ^ 25 - 1) * (2 * G) := by omega
      have e4 : 2 * n + 1 = 2 ^ 25 - 1 := Nat.eq_of_mul_eq_mul_right (by omega) e3
      have := h7 (Or.inl e2)
      omega
  · have hb : 0x7F800000 ≤ k * 2 ^ 23 + n := by have := h4 (by omega); omega
    refine iff_of_true hb ?_
    have e : (2 ^ 25 - 1) * 2 ^ 252 ≤ 2 ^ (23 + k) := by
      have h : 2 ^ (25 + 252) ≤ 2 ^ (23 + k) := Nat.pow_le_pow_right (by norm_num) (by omega)
      rw [pow_add 2 25 252] at h
      exact le_trans (Nat.mul_le_mul_right _ (by norm_num)) h
    exact le_trans (Nat.mul_le_mul_right q e) (h2 (by omega))

/-- A magnitude that is no multiple of `2^k` lies below `2^(23+k)`. -/
theorem mag_multiple_or_small (v : F32) (k : Nat) : 2 ^ k ∣ f32Mag v ∨ f32Mag v < 2 ^ (23 + k) := by
  have hf := f32Frac_lt v
  unfold f32Mag
  split
  · right
    exact lt_of_lt_of_le hf (Nat.pow_le_pow_right (by norm_num) (by omega))
  · rcases Nat.lt_or_ge (f32Exp v - 1) k with h | h
    · right
      have e : (2 ^ 23 + f32Frac v) * 2 ^ (f32Exp v - 1) < 2 ^ 24 * 2 ^ (f32Exp v - 1) :=
        Nat.mul_lt_mul_of_pos_right (by omega) (by positivity)
      refine lt_of_lt_of_le e ?_
      rw [← pow_add]
      exact Nat.pow_le_pow_right (by norm_num) (by omega)
    · left
      exact Dvd.dvd.mul_left (pow_dvd_pow 2 h) _

/-- The rounded pattern in its parts, where it is finite. -/
theorem roundF32_finite (neg : Bool) {p q : Nat} (hq : 0 < q) (h : p < (2 ^ 25 - 1) * 2 ^ 252 * q) :
    f32IsFinite (roundF32 neg p q) = true ∧ f32Neg (roundF32 neg p q) = neg ∧
    f32Mag (roundF32 neg p q) = divNearestEven p (q * 2 ^ roundShift p q) * 2 ^ roundShift p q ∧
    ((roundF32 neg p q).getLsbD 0 = true ↔ divNearestEven p (q * 2 ^ roundShift p q) % 2 = 1) := by
  have hb : ¬0x7F800000 ≤ roundShift p q * 2 ^ 23 + divNearestEven p (q * 2 ^ roundShift p q) := by
    rw [overflow_iff hq]; omega
  obtain ⟨h3, h4⟩ := significand_bounds (p := p) hq
  have e : roundBits p q = roundShift p q * 2 ^ 23 + divNearestEven p (q * 2 ^ roundShift p q) := by
    unfold roundBits; omega
  have hlt := roundBits_lt p q
  refine ⟨?_, f32Neg_roundF32 neg p q, ?_, ?_⟩
  · simp only [f32IsFinite, roundF32, f32Exp_withSign neg hlt, bne_iff_ne, ne_eq]
    omega
  · simp only [f32Mag, roundF32, f32Exp_withSign neg hlt, f32Frac_withSign neg hlt]
    rw [e]
    exact mag_of_bits h3 h4
  · have hz : (roundF32 neg p q).getLsbD 0 = (roundBits p q).testBit 0 := by
      cases neg <;> simp [roundF32, withSign, -BitVec.getLsbD_eq_getElem, BitVec.getLsbD_ofNat]
    rw [hz, Nat.testBit_zero, decide_eq_true_iff, e]
    omega

theorem f32Real_eq (a : F32) : f32Real a = (if f32Neg a then -1 else 1 : ℚ) * (f32Mag a : ℚ) / 2 ^ 149 := by
  unfold f32Real f32Val
  cases f32Neg a <;> simp

/-- The rounded value is the nearest one, ties to even, infinity on overflow (R101): for every exact value ±`p / q` units
of 2^-149 that is not zero. -/
theorem roundF32_roundedTo (neg : Bool) {p q : Nat} (hp : 0 < p) (hq : 0 < q) :
    RoundedTo ((if neg then -1 else 1 : ℚ) * ((p : ℚ) / q) / 2 ^ 149) (roundF32 neg p q) := by
  have hp' : (0 : ℚ) < p := by exact_mod_cast hp
  have hq' : (0 : ℚ) < q := by exact_mod_cast hq
  have hx : (0 : ℚ) < p / q := by positivity
  have habs : |(if neg then -1 else 1 : ℚ) * ((p : ℚ) / q) / 2 ^ 149| = (p : ℚ) / q / 2 ^ 149 := by
    cases neg <;> simp [abs_div, abs_of_pos hp', abs_of_pos hq']
  have hover : ((2 : ℚ) - 1 / 2 ^ 24) * 2 ^ 127 ≤ (p : ℚ) / q / 2 ^ 149 ↔ (2 ^ 25 - 1) * 2 ^ 252 * q ≤ p := by
    rw [le_div_iff₀ (by positivity), le_div_iff₀ hq']
    rw [← Nat.cast_le (α := ℚ)]
    push_cast
    constructor <;> intro h <;> norm_num at h ⊢ <;> linarith
  unfold RoundedTo
  rw [habs]
  by_cases ho : (2 ^ 25 - 1) * 2 ^ 252 * q ≤ p
  · rw [if_pos (hover.2 ho)]
    have hb := (overflow_iff hq).2 ho
    have hsign : decide ((if neg then -1 else 1 : ℚ) * ((p : ℚ) / q) / 2 ^ 149 < 0) = neg := by
      cases neg
      · simp only [Bool.false_eq_true, if_false, one_mul, decide_eq_false_iff_not, not_lt]; positivity
      · simp only [if_true, decide_eq_true_eq]
        have : 0 < (p : ℚ) / q / 2 ^ 149 := by positivity
        have e : -1 * ((p : ℚ) / q) / 2 ^ 149 = -((p : ℚ) / q / 2 ^ 149) := by ring
        rw [e]; linarith
    rw [hsign, roundF32, signedInf, show roundBits p q = 0x7F800000 by unfold roundBits; omega]
  · rw [if_neg (fun h => ho (hover.1 h))]
    obtain ⟨hfin, hneg, hmag, hbit⟩ := roundF32_finite neg hq (Nat.lt_of_not_le ho)
    refine ⟨hfin, ?_⟩
    obtain ⟨_, hlow⟩ := roundShift_spec (p := p) hq
    have hn23 := (significand_bounds (p := p) hq).2
    have hbit' : divNearestEven p (q * 2 ^ roundShift p q) % 2 = 0 → (roundF32 neg p q).getLsbD 0 = false := by
      intro h
      by_contra hc
      rw [Bool.not_eq_false] at hc
      have := hbit.1 hc
      omega
    generalize roundF32 neg p q = w at *
    generalize hk : roundShift p q = k at *
    have hQ : 0 < q * 2 ^ k := by positivity
    have near := divNearestEven_nearest (p := p) hQ
    generalize divNearestEven p (q * 2 ^ k) = n at *
    -- the comparison of magnitudes, in units of 2^-149
    have key : ∀ M : Nat, (2 ^ k ∣ M ∨ M < 2 ^ (23 + k)) →
        |(p : ℚ) / q - n * 2 ^ k| ≤ |(p : ℚ) / q - M| ∧
        (M ≠ n * 2 ^ k → |(p : ℚ) / q - M| = |(p : ℚ) / q - n * 2 ^ k| → n % 2 = 0) := by
      have hD : (0 : ℚ) < 2 ^ k := by positivity
      have scale : ∀ m : ℚ, |(p : ℚ) / q - m * 2 ^ k| = |(p : ℚ) / (q * 2 ^ k : ℕ) - m| * 2 ^ k := by
        intro m
        rw [← abs_of_pos hD, ← abs_mul, abs_of_pos hD]
        congr 1
        push_cast
        field_simp
      rintro M (⟨m, rfl⟩ | hM)
      · have e : ((2 ^ k * m : ℕ) : ℚ) = (m : ℚ) * 2 ^ k := by push_cast; ring
        rw [e, scale, scale]
        obtain ⟨h1, h2⟩ := near m
        have h1' : |(p : ℚ) / (q * 2 ^ k : ℕ) - n| ≤ |(p : ℚ) / (q * 2 ^ k : ℕ) - m| := by exact_mod_cast h1
        refine ⟨mul_le_mul_of_nonneg_right h1' hD.le, fun hne heq => h2 ?_ ?_⟩
        · intro h
          apply hne
          have : m = n := by exact_mod_cast h
          rw [this]; ring
        · have := mul_right_cancel₀ hD.ne' heq
          exact_mod_cast this
      · by_cases hd : 2 ^ k ∣ M
        · obtain ⟨m, rfl⟩ := hd
          have e : ((2 ^ k * m : ℕ) : ℚ) = (m : ℚ) * 2 ^ k := by push_cast; ring
          rw [e, scale, scale]
          obtain ⟨h1, h2⟩ := near m
          have h1' : |(p : ℚ) / (q * 2 ^ k : ℕ) - n| ≤ |(p : ℚ) / (q * 2 ^ k : ℕ) - m| := by exact_mod_cast h1
          refine ⟨mul_le_mul_of_nonneg_right h1' hD.le, fun hne heq => h2 ?_ ?_⟩
          · intro h
            apply hne
            have : m = n := by exact_mod_cast h
            rw [this]; ring
          · have := mul_right_cancel₀ hD.ne' heq
            exact_mod_cast this
        · have hk0 : k ≠ 0 := by rintro rfl; simp at hd
          have hge : (2 : ℚ) ^ 23 * 2 ^ k ≤ p / q := by
            rw [le_div_iff₀ hq', ← pow_add]
            exact_mod_cast hlow hk0
          have hMr : (M : ℚ) < 2 ^ 23 * 2 ^ k := by
            rw [← pow_add]; exact_mod_cast hM
          have h1 := (near (2 ^ 23)).1
          have h1' : |(p : ℚ) / (q * 2 ^ k : ℕ) - n| ≤ |(p : ℚ) / (q * 2 ^ k : ℕ) - 2 ^ 23| := by exact_mod_cast h1
          have h2 : |(p : ℚ) / q - n * 2 ^ k| ≤ |(p : ℚ) / q - 2 ^ 23 * 2 ^ k| := by
            rw [scale, scale]
            exact mul_le_mul_of_nonneg_right h1' hD.le
          rw [abs_of_nonneg (by linarith : (0 : ℚ) ≤ p / q - 2 ^ 23 * 2 ^ k)] at h2
          have h3 : |(p : ℚ) / q - M| = p / q - M := abs_of_nonneg (by linarith)
          rw [h3]
          exact ⟨by linarith, fun _ heq => by linarith⟩
    have keyv : ∀ v : F32, |(p : ℚ) / q - n * 2 ^ k| ≤ |(p : ℚ) / q - f32Mag v| ∧
        (f32Mag v ≠ n * 2 ^ k → |(p : ℚ) / q - f32Mag v| = |(p : ℚ) / q - n * 2 ^ k| → n % 2 = 0) :=
      fun v => key _ (mag_multiple_or_small v k)
    have hzero := (key 0 (Or.inl (dvd_zero _))).1
    rw [Nat.cast_zero, sub_zero, abs_of_pos hx] at hzero
    have hW : f32Real w = (if neg then -1 else 1 : ℚ) * ((n : ℚ) * 2 ^ k) / 2 ^ 149 := by
      rw [f32Real_eq, hneg, hmag]; push_cast; ring
    have dist : ∀ y : ℚ, |(if neg then -1 else 1 : ℚ) * ((p : ℚ) / q) / 2 ^ 149 - (if neg then -1 else 1 : ℚ) * y / 2 ^ 149| =
        |(p : ℚ) / q - y| / 2 ^ 149 := by
      intro y
      have e : (if neg then -1 else 1 : ℚ) * ((p : ℚ) / q) / 2 ^ 149 - (if neg then -1 else 1 : ℚ) * y / 2 ^ 149 =
          (if neg then -1 else 1 : ℚ) * (((p : ℚ) / q - y) / 2 ^ 149) := by ring
      rw [e, abs_mul, abs_div]
      cases neg <;> simp
    have distOpp : ∀ y : ℚ, 0 ≤ y →
        |(if neg then -1 else 1 : ℚ) * ((p : ℚ) / q) / 2 ^ 149 - (if !neg then -1 else 1 : ℚ) * y / 2 ^ 149| =
        ((p : ℚ) / q + y) / 2 ^ 149 := by
      intro y hy
      have e : (if neg then -1 else 1 : ℚ) * ((p : ℚ) / q) / 2 ^ 149 - (if !neg then -1 else 1 : ℚ) * y / 2 ^ 149 =
          (if neg then -1 else 1 : ℚ) * (((p : ℚ) / q + y) / 2 ^ 149) := by cases neg <;> simp <;> ring
      have hpos : (0 : ℚ) ≤ ((p : ℚ) / q + y) / 2 ^ 149 := by positivity
      rw [e, abs_mul, abs_of_nonneg hpos]
      cases neg <;> simp
    have h149 : (0 : ℚ) < 2 ^ 149 := by positivity
    rw [hW, dist]
    refine ⟨fun v hv => ?_, fun v hv hne heq => hbit' ?_⟩
    · rw [f32Real_eq v]
      by_cases hs : f32Neg v = neg
      · rw [hs, dist]
        exact div_le_div_of_nonneg_right (keyv v).1 h149.le
      · have hs' : f32Neg v = !neg := by cases neg <;> simp_all
        rw [hs', distOpp _ (by positivity)]
        refine div_le_div_of_nonneg_right ?_ h149.le
        have : (0 : ℚ) ≤ f32Mag v := by positivity
        linarith
    · rw [f32Real_eq v] at hne heq
      by_cases hs : f32Neg v = neg
      · rw [hs] at hne heq
        rw [dist] at heq
        refine (keyv v).2 (fun h => hne ?_) ?_
        · rw [h]; push_cast; rfl
        · exact (div_left_inj' h149.ne').1 heq
      · have hs' : f32Neg v = !neg := by cases neg <;> simp_all
        rw [hs', distOpp _ (by positivity)] at heq
        have h5 := (div_left_inj' h149.ne').1 heq
        have h6 : (0 : ℚ) ≤ f32Mag v := by positivity
        have h7 : (f32Mag v : ℚ) = 0 := by linarith
        have h8 : f32Mag v = 0 := by exact_mod_cast h7
        refine (keyv v).2 ?_ ?_
        · intro h
          apply hne
          rw [h7, hs']
          have h9 : (n : ℚ) * 2 ^ k = 0 := by rw [h8] at h; exact_mod_cast h.symm
          rw [h9]; simp
        · rw [h7, sub_zero, abs_of_pos hx]; linarith

end Sys2Proof.Machine
end

