-- ==== Sys2Proof/Tests/Slice0.lean ====
section
/-! SUPPORT. Tests of the model on small states, and for every statement with hypotheses a witness that meets them.

The expected values come from spec/: the words and vectors of 95_test_vectors.md (V1 to V10, sections 2.1 to 2.9),
the tables of the section files, or, where a comment says "by hand", exact binary arithmetic on the rule's formula. -/

namespace Sys2Proof.Tests

open Sys2Proof Sys2Proof.Machine Sys2Proof.Safety

/-! ## Helpers -/

/-- The command completes and the state after it meets `p`. -/
def runs (i : Instr) (s : State) (p : State → Bool) : Bool :=
  match exec i s with
  | .next t => !faultBit t.status && decide (t.seq = s.seq + 1) && p t
  | .fault _ => false
  | .refused _ => false

/-- The command takes the fault `c` with `FINFO = info`, and `SEQ` stays. -/
def faults (i : Instr) (s : State) (c : Cause) (info : Word) : Bool :=
  match exec i s with
  | .next t => faultBit t.status && decide (t.cause = causeCode c ∧ t.finfo = info ∧ t.fseq = s.seq ∧ t.seq = s.seq)
  | .fault _ => false
  | .refused _ => false

/-- The step has a next state that meets `p`. -/
def steps (s : State) (p : State → Bool) : Bool :=
  match step s with
  | .next t => p t
  | .fault _ => false
  | .refused _ => false

/-- The step takes a fault, and the state it carries meets `p`. -/
def stepFaults (s : State) (p : State → Bool) : Bool :=
  match step s with
  | .next _ => false
  | .fault (.faulted t) => p t
  | .refused _ => false

theorem next_of_runs {i : Instr} {s : State} {p : State → Bool} (h : runs i s p = true) :
    ∃ t, exec i s = .next t ∧ faultBit t.status = false ∧ t.seq = s.seq + 1 ∧ p t = true := by
  unfold runs at h
  split at h
  · exact ⟨_, by assumption, by simpa [and_assoc] using h⟩
  · cases h
  · cases h

theorem next_of_steps {s : State} {p : State → Bool} (h : steps s p = true) :
    ∃ t, step s = .next t ∧ p t = true := by
  unfold steps at h
  split at h
  · exact ⟨_, by assumption, h⟩
  · cases h
  · cases h

/-- A small machine: two slots of each kind, 16 words of data memory, a queue of two words. -/
def tinyConfig : Config :=
  { nBq := 2, nCas := 2, nPt1 := 2, nFir := 2, nSlew := 2, memWords := 16, cmdqDepth := 2 }

def tiny : State := State.resetWith tinyConfig

/-- The coefficients of V10. -/
def v10 : Section :=
  { b0 := 0x3F000000, b1 := 0x3E800000, b2 := 0x3E000000, a1 := 0xBF000000, a2 := 0x3E800000
    x1 := 0, x2 := 0, y1 := 0, y2 := 0 }

/-- The FIR slot of 95_test_vectors.md 2.7 after its third input, with the coefficients in the last words of memory. -/
def firA : FirSlot :=
  { valid := true, bufBase := 0, coefBase := 13, movingSum := 0, index := 3, count := 3, bufLength := 4,
    coeffsLength := 3 }

/-- The moving-average slot of 95_test_vectors.md 2.7 after its fourth input. -/
def firB : FirSlot :=
  { valid := true, bufBase := 4, coefBase := 8, movingSum := 0x41200000, index := 0, count := 4, bufLength := 4,
    coeffsLength := 4 }

/-- The small machine in use: slot 0 of every unit valid, both FIR slots valid. `x1` = 1.0, `x2` = 15, `x3` = 16,
`x4` = 0xDEADBEEF, `x5` = 4, `x6` = 5, `x7` = 3, `x8` = 100.0, `x9` = 1000.0, `x10` = -5.0, `x11` = 5.0, `x12` = 12,
`x13` = 13, `x14` = a NaN with a payload, `x15` = 8. -/
def used : State :=
  { tiny with
    regs := #v[0, 0x3F800000, 15, 16, 0xDEADBEEF, 4, 5, 3, 0x42C80000, 0x447A0000, 0xC0A00000, 0x40A00000, 12, 13,
      0x7FC12345, 8]
    bq := [⟨true, v10⟩, BqSlot.zero]
    cas := [⟨true, 2, #v[v10, v10, Section.zero, Section.zero, Section.zero, Section.zero]⟩, CasSlot.zero]
    pt1 := [⟨true, 0x3F000000, 0x3F000000⟩, Pt1Slot.zero]
    fir := [firA, firB]
    slew := [⟨true, 0x3F400000, 0x3F800000, 0x3F000000⟩, SlewSlot.zero]
    mem := [(0, 0x3F800000), (1, 0x41200000), (2, 0x42C80000), (3, 0), (4, 0x3F800000), (5, 0x40000000),
      (6, 0x40400000), (7, 0x40800000), (13, 0x3F800000), (14, 0x40000000), (15, 0x40800000)] }

/-- `used` with a queue. -/
def queued (q : List Word) : State := { used with cmdq := q }

/-- `x[r]` after a command. -/
def gives (i : Instr) (s : State) (r : Reg) (v : Word) : Bool := runs i s fun t => decide (readReg t r = v)

/-! ## Well-formedness (30_encoding.md R87): the one check, refused on ill-formed terms -/

theorem test_wf_rds_core_9 : WellFormed (.rds 0 1 0 0x09) = false := by decide
theorem test_wf_rds_bq_0A : WellFormed (.rds 0 1 1 0x0A) = false := by decide
theorem test_wf_rds_cas_02 : WellFormed (.rds 0 1 2 0x02) = false := by decide
theorem test_wf_rds_cas_10 : WellFormed (.rds 0 1 2 0x10) = false := by decide
theorem test_wf_rds_cas_6A : WellFormed (.rds 0 1 2 0x6A) = false := by decide
theorem test_wf_rds_cas_71 : WellFormed (.rds 0 1 2 0x71) = false := by decide
theorem test_wf_rds_fir_08 : WellFormed (.rds 0 1 4 0x08) = false := by decide
theorem test_wf_rds_slew_04 : WellFormed (.rds 0 1 5 0x04) = false := by decide
theorem test_wf_wrs_unit_6 : WellFormed (.wrs 0 1 6 0x00) = false := by decide
theorem test_wf_wrs_pt1_70 : WellFormed (.wrs 0 1 3 0x70) = false := by decide
theorem test_wf_wrs_pt1_03 : WellFormed (.wrs 0 1 3 0x03) = false := by decide
theorem test_wf_rds_cas_69 : WellFormed (.rds 0 1 2 0x69) = true := by decide

/-! ## Decoding: one written-out word per command (95_test_vectors.md 2.1) -/

theorem test_decode_base :
    decode 0x01000000 = .ok .nop ∧ decode 0x0209BEEF = .ok (.lih 9 0xBEEF) ∧
    decode 0x0309BEEF = .ok (.lil 9 0xBEEF) ∧ decode 0x04093000 = .ok (.mov 9 3) ∧
    decode 0x05093000 = .ok (.rdm 9 3) ∧ decode 0x06003700 = .ok (.wrm 3 7) ∧
    decode 0x07590104 = .ok (.rds 5 9 1 0x04) ∧ decode 0x08503104 = .ok (.wrs 5 3 1 0x04) := by decide

theorem test_decode_biquad :
    decode 0x10503700 = .ok (.bqinitlpf 5 3 7) ∧ decode 0x115037C2 = .ok (.bqinit 5 3 7 12 .bpf) ∧
    decode 0x125037C2 = .ok (.bqupd 5 3 7 12 .bpf) ∧ decode 0x13593000 = .ok (.bqdf1 5 9 3) ∧
    decode 0x14593000 = .ok (.bqapply 5 9 3) ∧ decode 0x15093700 = .ok (.notchq 9 3 7) ∧
    decode 0x16503000 = .ok (.bqrcfir2 5 3) := by decide

/-- The four filter types (30_encoding.md R88). -/
theorem test_decode_types :
    decode 0x115037C0 = .ok (.bqinit 5 3 7 12 .lpf) ∧ decode 0x115037C1 = .ok (.bqinit 5 3 7 12 .notch) ∧
    decode 0x115037C3 = .ok (.bqinit 5 3 7 12 .lpf1) ∧ decode 0x125037C0 = .ok (.bqupd 5 3 7 12 .lpf) ∧
    decode 0x125037C3 = .ok (.bqupd 5 3 7 12 .lpf1) := by decide

theorem test_decode_cascade_pt1_slew :
    decode 0x205937C0 = .ok (.casinit 5 9 3 7 12) ∧ decode 0x21593000 = .ok (.casapply 5 9 3) ∧
    decode 0x30093700 = .ok (.pt1gain 9 3 7) ∧ decode 0x31503000 = .ok (.pt1init 5 3) ∧
    decode 0x32593000 = .ok (.pt1apply 5 9 3) ∧ decode 0x50503700 = .ok (.slewinit 5 3 7) ∧
    decode 0x51593000 = .ok (.slewapply 5 9 3) := by decide

theorem test_decode_fir :
    decode 0x405037C0 = .ok (.firinit 5 3 7 12) ∧ decode 0x415037CE = .ok (.firinit2 5 3 7 12 14) ∧
    decode 0x42503000 = .ok (.firupd 5 3) ∧ decode 0x43503000 = .ok (.firupdavg 5 3) ∧
    decode 0x44590000 = .ok (.firapply 5 9) ∧ decode 0x45593000 = .ok (.firpavg 5 9 3) ∧
    decode 0x46590000 = .ok (.firmavg 5 9) ∧ decode 0x47593000 = .ok (.firupdapply 5 9 3) ∧
    decode 0x48590000 = .ok (.firlast 5 9) := by decide

theorem test_encode_some :
    encode (.bqinit 5 3 7 12 .bpf) = 0x115037C2 ∧ encode (.rds 5 9 1 0x04) = 0x07590104 ∧
    encode (.casinit 5 9 3 7 12) = 0x205937C0 ∧ encode (.firinit2 5 3 7 12 14) = 0x415037CE ∧
    encode (.lil 9 0xBEEF) = 0x0309BEEF := by decide

/-- No word of the list is a command. -/
def allIllegal (ws : List Word) : Bool := ws.all fun w => (decode w).toOption.isNone

/-- The words 95_test_vectors.md 2.1 lists as matching no row, then the column of reserved bits. -/
theorem test_decode_illegal :
    allIllegal [0x00000000, 0xFFFFFFFF, 0x01000001, 0x02100000, 0x09000000, 0x17000000, 0x1105123C, 0x11001234] ∧
    allIllegal [0x60000000, 0x0700010A, 0x07000600, 0x07000210, 0x0700026A, 0x08001370] := by decide

theorem test_decode_reserved_bits :
    allIllegal [0x0219BEEF, 0x0319BEEF, 0x04093001, 0x05093001, 0x06003701, 0x07591104, 0x08513104] ∧
    allIllegal [0x10503701, 0x115037C6, 0x125037C6, 0x13593001, 0x14593001, 0x15093701, 0x16503001] ∧
    allIllegal [0x205937C1, 0x21593001, 0x30093701, 0x31503001, 0x32593001, 0x50503701, 0x51593001] ∧
    allIllegal [0x405037C1, 0x415137CE, 0x42503001, 0x43503001, 0x44590001, 0x45593001, 0x46590001, 0x47593001,
      0x48590001] := by decide

theorem test_table_word : decodeTableWord 32 0x13593000 = some (.bqdf1 5 9 3) := by decide

/-! ## Arithmetic (95_test_vectors.md 2.2) -/

theorem test_fadd_ties :
    fadd 0x3F800000 0x33800000 = 0x3F800000 ∧ fadd 0x3F800000 0x33800001 = 0x3F800001 ∧
    fadd 0x3F800001 0x33800000 = 0x3F800002 := by decide
theorem test_fmul_rounding :
    fmul 0x7F7FFFFF 0x40000000 = 0x7F800000 ∧ fmul 0x00800000 0x3F000000 = 0x00400000 ∧
    fmul 0x00000001 0x3F000000 = 0x00000000 ∧ fmul 0x00000003 0x3F000000 = 0x00000002 := by decide
theorem test_fdiv :
    fdiv 0x3F800000 0x40400000 = 0x3EAAAAAB ∧ fdiv 0x3F800000 0x00000000 = 0x7F800000 ∧
    fdiv 0xBF800000 0x00000000 = 0xFF800000 ∧ fdiv 0x3F800000 0x80000000 = 0xFF800000 ∧
    fdiv 0x00000000 0x00000000 = 0x7FC00000 := by decide
theorem test_specials :
    fsub 0x7F800000 0x7F800000 = 0x7FC00000 ∧ fmul 0x00000000 0x7F800000 = 0x7FC00000 ∧
    fadd 0x7FC12345 0x3F800000 = 0x7FC00000 ∧ fsub 0x3F800000 0x3F800000 = 0x00000000 ∧
    fadd 0x80000000 0x80000000 = 0x80000000 ∧ fadd 0x80000000 0x00000000 = 0x00000000 := by decide
theorem test_u2f :
    u2f 0 = 0x00000000 ∧ u2f 3 = 0x40400000 ∧ u2f 16777217 = 0x4B800000 ∧ u2f 16777219 = 0x4B800002 ∧
    u2f 4294967295 = 0x4F800000 := by decide
theorem test_compare :
    fgt 0x7FC00000 0x3F800000 = false ∧ flt 0x7FC00000 0x3F800000 = false ∧ fle 0x7FC00000 0x3F800000 = false ∧
    fle 0x80000000 0x00000000 = true ∧ fgt 0x00000000 0x80000000 = false ∧ fgt 0x7F800000 0x7F7FFFFF = true := by decide
theorem test_sign_bit : fabs 0xFFC00001 = 0x7FC00001 ∧ fneg 0x00000000 = 0x80000000 := by decide
/-- The properties of 40_numerics.md R109 that fix a value. -/
theorem test_trig_fixed :
    sinf 0x00000000 = 0x00000000 ∧ cosf 0x00000000 = 0x3F800000 ∧ sinf 0x7F800000 = 0x7FC00000 ∧
    cosf 0x7FC00000 = 0x7FC00000 := by decide
/-- The LPF row of 95_test_vectors.md 2.4, from its `sn`, `cs` and `Q` (42_biquad.md R141). -/
theorem test_coef_lpf :
    bqCoefOf 0x3F167918 0x3F4F1BBD 0x3F3504F3 .lpf =
      ⟨0x3D8A25FD, 0x3E0A25FD, 0x3D8A25FD, 0xBF924D2F, 0x3ED35ABA⟩ := by decide
theorem test_coef_notch :
    bqCoefOf 0x3F167918 0x3F4F1BBD 0x3F2AAAAB .notch =
      ⟨0x3F31AC9D, 0xBF8FBDD3, 0x3F31AC9D, 0xBF8FBDD3, 0x3EC6B273⟩ := by decide
theorem test_coef_bpf :
    bqCoefOf 0x3F167918 0x3F4F1BBD 0x40000000 .bpf =
      ⟨0x3E0331C9, 0x00000000, 0xBE0331C9, 0xBFB492DF, 0x3F3E671B⟩ := by decide
theorem test_coef_lpf1 :
    bqCoefOf 0x3F167918 0x3F4F1BBD 0x3F3504F3 .lpf1 =
      ⟨0x3E7B1F7B, 0x3E7B1F7B, 0x00000000, 0xBF027042, 0x00000000⟩ := by decide
theorem test_omega : bqOmega 0x42C80000 0x447A0000 = 0x3F20D97C := by decide

/-! ## One step of every command -/

/-- 2.3, first row. -/
theorem test_nop : runs .nop tiny (fun t => decide (t = { tiny with seq := 1 })) = true := by decide
/-- 2.3: the low half is cleared. -/
theorem test_lih : gives (.lih 5 0xABCD) (writeReg 5 0x12345678 tiny) 5 0xABCD0000 = true := by decide
/-- 2.3: the high half is kept. -/
theorem test_lil : gives (.lil 5 0xABCD) (writeReg 5 0x12345678 tiny) 5 0x1234ABCD = true := by decide
/-- 2.3: a NaN payload is kept. -/
theorem test_mov : gives (.mov 2 14) used 2 0x7FC12345 = true := by decide
/-- 2.3: the last word, destination = address register (word 15 of 16 here). -/
theorem test_rdm : gives (.rdm 2 2) used 2 0x40800000 = true := by decide
/-- 2.3: the first address beyond memory (16 of 16 here). -/
theorem test_rdm_range : faults (.rdm 6 3) used .memRange 16 = true := by decide
theorem test_wrm : runs (.wrm 5 4) used (fun t => decide (memRead t 4 = 0xDEADBEEF ∧ memRead t 5 = 0x40000000)) = true := by
  decide
theorem test_wrm_range : faults (.wrm 3 4) used .memRange 16 = true := by decide
/-- 2.3: the constants of the reference configuration. -/
theorem test_rds_cfg : gives (.rds 0 1 0 0x07) State.reset 1 0x01084210 = true := by decide
/-- 2.3: unit 0 has one slot. -/
theorem test_rds_slot : faults (.rds 1 1 0 0x06) State.reset .slotRange 1 = true := by decide
/-- 2.3: `valid` stays 0. -/
theorem test_wrs : runs (.wrs 1 11 3 0x01) used (fun t => decide (t.pt1[1]? = some ⟨false, 0x40A00000, 0⟩)) = true := by
  decide
/-- 2.3: a read-only field. -/
theorem test_wrs_access : faults (.wrs 0 1 1 0x01) State.reset .stateAccess 0x101 = true := by decide
/-- 2.4, degenerate row `freq = 0`: `sn` = 0 and `cs` = 1 are fixed by R109 (d). -/
theorem test_bqinitlpf : runs (.bqinitlpf 1 0 9) used
    (fun t => decide (t.bq[1]? = some ⟨true, ⟨0, 0, 0, 0xC0000000, 0x3F800000, 0, 0, 0, 0⟩⟩)) = true := by decide
theorem test_bqinitlpf_slot : faults (.bqinitlpf 2 0 9) used .slotRange 2 = true := by decide
/-- 2.4, degenerate row `rate = 0` with `freq` = 100: every coefficient is NaN. -/
theorem test_bqinit : runs (.bqinit 1 8 0 1 .lpf) used (fun t => decide (t.bq[1]? = some
    ⟨true, ⟨0x7FC00000, 0x7FC00000, 0x7FC00000, 0x7FC00000, 0x7FC00000, 0, 0, 0, 0⟩⟩)) = true := by decide
/-- R144 with `freq = 0`: new coefficients, the state kept. -/
theorem test_bqupd : runs (.bqupd 0 0 9 1 .lpf) { used with bq := [⟨true, { v10 with x1 := 1, y2 := 2 }⟩] }
    (fun t => decide (t.bq = [⟨true, ⟨0, 0, 0, 0xC0000000, 0x3F800000, 1, 0, 0, 2⟩⟩])) = true := by decide
theorem test_bqupd_invalid : faults (.bqupd 1 0 9 1 .lpf) used .notInit 1 = true := by decide
/-- V10, the second DF1 sample. -/
theorem test_bqdf1 : runs (.bqdf1 0 7 7)
    (writeReg 7 0x40000000 { used with bq := [⟨true, { v10 with x1 := 0x3F800000, y1 := 0x3F000000 }⟩] })
    (fun t => decide (readReg t 7 = 0x3FC00000 ∧ t.bq = [⟨true, { v10 with x1 := 0x40000000, x2 := 0x3F800000, y1 := 0x3FC00000, y2 := 0x3F000000 }⟩])) = true := by
  decide
/-- V10, the second DF2T sample. -/
theorem test_bqapply : runs (.bqapply 0 7 7) (writeReg 7 0x40000000 { used with bq := [⟨true, { v10 with x1 := 0x3F000000 }⟩] })
    (fun t => decide (readReg t 7 = 0x3FC00000 ∧ t.bq = [⟨true, { v10 with x1 := 0x3FA00000, x2 := 0xBE000000 }⟩])) = true := by
  decide
/-- V8: 20000/30000, and a degenerate row. -/
theorem test_notchq : gives (.notchq 2 2 8) (writeReg 2 0x43480000 used) 2 0x3F2AAAAB = true := by decide
theorem test_notchq_equal : gives (.notchq 2 8 8) used 2 0x7F800000 = true := by decide
/-- 2.4, the row `k = 1`. -/
theorem test_bqrcfir2 : runs (.bqrcfir2 1 1) used
    (fun t => decide (t.bq[1]? = some ⟨true, ⟨0x3F000000, 0x3F000000, 0, 0x80000000, 0, 0, 0, 0, 0⟩⟩)) = true := by decide
/-- V6: order 4 gives two sections; with `freq = 0` the coefficients are the degenerate row of 2.4. -/
theorem test_casinit : runs (.casinit 1 5 5 0 9) used (fun t => decide (readReg t 5 = 2 ∧
    (t.cas[1]?.map fun c => (c.valid, c.sections, c.sec[1].a1, c.sec[2].a1)) = some (true, 2, 0xC0000000, 0))) = true := by decide
/-- V6: order 13; the section fields stay (R162). -/
theorem test_casinit_odd : runs (.casinit 0 5 13 8 9) used (fun t => decide (readReg t 5 = 0 ∧
    (t.cas[0]?.map fun c => (c.valid, c.sections, c.sec[0])) = some (true, 0, v10))) = true := by decide
/-- Two V10 sections on input 1, by hand: 0.5, then 0.25. -/
theorem test_casapply : runs (.casapply 0 5 1) used (fun t => decide (readReg t 5 = 0x3E800000 ∧
    (t.cas[0]?.map fun c => (c.sec[0].x1, c.sec[0].x2, c.sec[1].x1, c.sec[2])) =
      some (0x3F000000, 0, 0x3E800000, Section.zero))) = true := by decide
/-- 2.5: zero sections pass the input bits through. -/
theorem test_casapply_zero : gives (.casapply 0 6 14) { used with cas := [{ CasSlot.zero with valid := true }] } 6 0x7FC12345 = true := by
  decide
/-- V9, first row and the negative row. -/
theorem test_pt1gain : gives (.pt1gain 3 8 4) (writeReg 4 0x3A83126F used) 3 0x3EC590B2 = true := by decide
theorem test_pt1gain_negative : gives (.pt1gain 3 10 4) used 3 0x3F800000 = true := by decide
theorem test_pt1init : runs (.pt1init 1 8) used (fun t => decide (t.pt1[1]? = some ⟨true, 0, 0x42C80000⟩)) = true := by decide
/-- 2.6, row 1, the second sample. -/
theorem test_pt1apply : runs (.pt1apply 0 5 1) used
    (fun t => decide (readReg t 5 = 0x3F400000 ∧ t.pt1[0]? = some ⟨true, 0x3F400000, 0x3F000000⟩)) = true := by decide
theorem test_pt1apply_invalid : faults (.pt1apply 1 4 3) used .notInit 1 = true := by decide
/-- R181: the region ends with the last word; the buffer is zeroed and the word before it is not. -/
theorem test_firinit : runs (.firinit 0 13 7 0) used (fun t => decide (
    t.fir[0]? = some ⟨true, 13, 0, 0, 0, 0, 3, 3⟩ ∧ memRead t 13 = 0 ∧ memRead t 15 = 0 ∧ memRead t 0 = 0x3F800000)) = true := by
  decide
/-- 2.7, init faults, rows 3 and 4. -/
theorem test_firinit_range : faults (.firinit 0 13 5 0) used .memRange 13 = true := by decide
theorem test_firinit2 : runs (.firinit2 1 0 7 3 0) used (fun t => decide (t.fir[1]? = some ⟨true, 0, 16, 0, 0, 0, 3, 0⟩)) = true := by
  decide
theorem test_firinit2_config : faults (.firinit2 0 0 7 15 5) used .firConfig 4 = true := by decide
/-- 2.7, alignment table, row 4. -/
theorem test_firupd : runs (.firupd 0 9) used (fun t => decide (
    t.fir[0]? = some { firA with index := 0, count := 4 } ∧ memRead t 3 = 0x447A0000 ∧ memRead t 2 = 0x42C80000)) = true := by
  decide
/-- 2.7, moving average, row 5. -/
theorem test_firupdavg : runs (.firupdavg 1 11) used (fun t => decide (
    t.fir[1]? = some { firB with index := 1, movingSum := 0x41600000 } ∧ memRead t 4 = 0x40A00000)) = true := by decide
/-- 2.7, alignment table, row 3. -/
theorem test_firapply : gives (.firapply 0 7) used 7 0x42F80000 = true := by decide
/-- 3 + 2 + 4 over 3, by hand, the newest three of 1, 2, 3, 4; and more than the buffer holds. -/
theorem test_firpavg : gives (.firpavg 1 7 7) used 7 0x40400000 = true := by decide
theorem test_firpavg_range : faults (.firpavg 1 7 6) used .firRange 5 = true := by decide
/-- 2.7, moving average, row 4. -/
theorem test_firmavg : gives (.firmavg 1 7) used 7 0x40200000 = true := by decide
/-- 2.7, alignment table, row 4. -/
theorem test_firupdapply : runs (.firupdapply 0 7 9) used (fun t => decide (
    readReg t 7 = 0x449B0000 ∧ t.fir[0]? = some { firA with index := 0, count := 4 } ∧ memRead t 3 = 0x447A0000)) = true := by
  decide
/-- `index` 0 wraps back to the last word; `index` 3 steps back to 2. -/
theorem test_firlast : gives (.firlast 1 7) used 7 0x40800000 = true := by decide
theorem test_firlast_middle : gives (.firlast 0 7) used 7 0x42C80000 = true := by decide
theorem test_slewinit : runs (.slewinit 1 1 8) used
    (fun t => decide (t.slew[1]? = some ⟨true, 0, 0x3F800000, 0x42C80000⟩)) = true := by decide
/-- V5: limited, up; and the last row, passed. -/
theorem test_slewapply_up : runs (.slewapply 0 5 11) used
    (fun t => decide (readReg t 5 = 0x3FE00000 ∧ t.slew[0]? = some ⟨true, 0x3FE00000, 0x3F800000, 0x3F000000⟩)) = true := by decide
theorem test_slewapply_pass : gives (.slewapply 0 5 1) used 5 0x3F800000 = true := by decide

/-! ## The sequencer -/

/-- 2.9, row 1: the all-zero word. -/
theorem test_step_illegal : stepFaults { State.reset with cmdq := [0x00000000] } (fun t => decide (
    t = { State.reset with status := 1, cause := 1 })) = true := by decide
/-- 2.9, row 6 (P5's fault): `FINST` is the word. -/
theorem test_step_notInit : stepFaults { State.reset with cmdq := [0x32343000, 0x01000000] } (fun t => decide (
    t = { State.reset with status := 1, cause := 4, finst := 0x32343000, finfo := 3 })) = true := by decide
theorem test_fetch_word : steps (State.reset.withFetchWord 32 0x0205ABCD) (fun t => decide (
    readReg t 5 = 0xABCD0000 ∧ t.seq = 1)) = true := by decide

/-! ## Witnesses: a state and operands that meet the hypotheses of each statement -/

/-- The hypotheses of `IllegalUnless op mask` on a word. -/
def unusedNonzero (rows : List (BitVec 8 × Word × Word)) : Bool :=
  rows.all fun r => decide (r.2.2.extractLsb' 24 8 = r.1 ∧ r.2.2 &&& r.2.1 ≠ r.1 ++ 0#24)

/-- For the clauses `IllegalUnless` of every command: the words with a reserved bit set of 95_test_vectors.md 2.1. -/
theorem witness_IllegalUnless :
    faultBit (queued [0x13593001]).status = false ∧ (queued [0x13593001]).cmdq = 0x13593001 :: [] ∧
    unusedNonzero [(0x01, 0xFFFFFFFF, 0x01000001), (0x02, 0xFFF00000, 0x0219BEEF), (0x03, 0xFFF00000, 0x0319BEEF), (0x04, 0xFFF00FFF, 0x04093001), (0x05, 0xFFF00FFF, 0x05093001), (0x06, 0xFFFF00FF, 0x06003701), (0x07, 0xFF00F000, 0x07591104), (0x08, 0xFF0F0000, 0x08513104)] ∧
    unusedNonzero [(0x10, 0xFF0F00FF, 0x10503701), (0x11, 0xFF0F000C, 0x115037C6), (0x12, 0xFF0F000C, 0x125037C6), (0x13, 0xFF000FFF, 0x13593001), (0x14, 0xFF000FFF, 0x14593001), (0x15, 0xFFF000FF, 0x15093701), (0x16, 0xFF0F0FFF, 0x16503001), (0x20, 0xFF00000F, 0x205937C1)] ∧
    unusedNonzero [(0x21, 0xFF000FFF, 0x21593001), (0x30, 0xFFF000FF, 0x30093701), (0x31, 0xFF0F0FFF, 0x31503001), (0x32, 0xFF000FFF, 0x32593001), (0x40, 0xFF0F000F, 0x405037C1), (0x41, 0xFF0F0000, 0x415137CE), (0x42, 0xFF0F0FFF, 0x42503001), (0x43, 0xFF0F0FFF, 0x43503001)] ∧
    unusedNonzero [(0x44, 0xFF00FFFF, 0x44590001), (0x45, 0xFF000FFF, 0x45593001), (0x46, 0xFF00FFFF, 0x46590001), (0x47, 0xFF000FFF, 0x47593001), (0x48, 0xFF00FFFF, 0x48590001), (0x50, 0xFF0F00FF, 0x50503701), (0x51, 0xFF000FFF, 0x51593001)] := by decide

theorem witness_DecodeEncode :
    WellFormed (.rds 15 15 2 0x69) = true ∧ WellFormed (.firinit2 15 0 15 0 15) = true ∧
    WellFormed (.bqinit 15 1 2 15 .lpf1) = true ∧ WellFormed (.lih 15 0xFFFF) = true := by decide

theorem witness_EncodeDecode : decode 0x07FF0269 = .ok (.rds 15 15 2 0x69) := by decide

theorem witness_DecodeByMask :
    decode 0x07FF0269 = .ok (.rds 15 15 2 0x69) ∧ (0x13FFF000#32 &&& opMask .bqdf1) = opMatch .bqdf1 := by decide

/-- Clauses (a), (b), (c) of R89, and a step that takes an illegal word. -/
theorem witness_IllegalWords :
    faultBit (queued [0x17000000]).status = false ∧ (queued [0x17000000]).cmdq = 0x17000000 :: [] ∧
    decode 0x17000000 = .error (.unassignedOp 0x17) ∧ decode 0x01000001 = .error (.unusedFieldNonzero .nop) ∧
    decode 0x11001234 = .error (.unusedFieldNonzero .bqinit) ∧
    decode 0x0700026A = .error (.undefinedField 2 0x6A) := by decide

/-- A command that completes and, with the second word, one that faults. -/
theorem witness_StepRunsCommand :
    faultBit (queued [0x13043000, 0]).status = false ∧ (queued [0x13043000, 0]).cmdq = 0x13043000 :: [0] ∧
    decode 0x13043000 = .ok (.bqdf1 0 4 3) ∧ decode 0x13143000 = .ok (.bqdf1 1 4 3) ∧
    runs (.bqdf1 0 4 3) used (fun _ => true) = true ∧ faults (.bqdf1 1 4 3) used .notInit 1 = true := by decide

theorem witness_SequencerConditions :
    faultBit ({ used with status := 1, cause := 4 } : State).status = true ∧
    faultBit used.status = false ∧ used.cmdq = [] := by decide

/-- One word for every cause. -/
theorem witness_FaultEntry :
    faultBit (queued [0x00000000]).status = false ∧ (queued [0x00000000]).cmdq = 0x00000000 :: [] ∧
    wordFailure used 0x00000000 = some ⟨true, .illegal, 0⟩ ∧
    wordFailure used 0x13243000 = some ⟨true, .slotRange, 2⟩ ∧
    wordFailure used 0x08001101 = some ⟨true, .stateAccess, 0x101⟩ ∧
    wordFailure used 0x14143000 = some ⟨true, .notInit, 1⟩ ∧
    wordFailure used 0x40001030 = some ⟨true, .firConfig, 0⟩ ∧
    wordFailure used 0x05053000 = some ⟨true, .memRange, 16⟩ ∧
    wordFailure used 0x45176000 = some ⟨true, .firRange, 5⟩ := by decide

/-- The hypotheses of the clause about runs that answer a state. -/
theorem witness_FaultEntry_runs :
    faultBit (queued [0x01000000]).status = false ∧ ∃ t, Sys2Proof.core.run 1 (queued [0x01000000]) = .next t :=
  ⟨by decide, ⟨_, rfl⟩⟩

/-- Both outcomes occur. -/
theorem witness_CompleteOrFault :
    runs (.bqdf1 0 4 1) used (fun _ => true) = true ∧ faults (.bqdf1 1 4 1) used .notInit 1 = true := by decide

/-- Each check fails first somewhere, also where later ones fail too (bufLength 0 with the regions out of range; an
undefined pair on slot 15); and none fails somewhere. -/
theorem witness_FirstFailingCheck :
    faultBit (queued [0x17000000]).status = false ∧ (queued [0x17000000]).cmdq = 0x17000000 :: [] ∧
    decode 0x17000000 = .error (.unassignedOp 0x17) ∧ (queued [1]).regs = used.regs ∧ (queued [1]).fir = used.fir ∧
    firstFailure used (.rds 15 0 6 0xFF) = some ⟨true, .illegal, encode (.rds 15 0 6 0xFF)⟩ ∧
    firstFailure used (.bqapply 2 0 0) = some ⟨true, .slotRange, 2⟩ ∧
    firstFailure used (.wrs 1 0 3 0x02) = some ⟨true, .stateAccess, 0x302⟩ ∧
    firstFailure used (.slewapply 1 0 0) = some ⟨true, .notInit, 1⟩ ∧
    firstFailure used (.firinit2 0 4 0 4 4) = some ⟨true, .firConfig, 0⟩ ∧
    firstFailure used (.firinit2 0 4 7 4 5) = some ⟨true, .firConfig, 4⟩ ∧
    firstFailure used (.firinit2 0 13 5 4 5) = some ⟨true, .memRange, 13⟩ ∧
    firstFailure used (.firinit2 0 12 5 13 5) = some ⟨true, .memRange, 13⟩ ∧
    firstFailure used (.firpavg 1 0 6) = some ⟨true, .firRange, 5⟩ ∧
    firstFailure used (.firpavg 1 0 5) = none ∧ firstFailure used (.firinit2 0 12 5 13 7) = none := by decide

/-- A run of two words that completes, and one whose second word faults. -/
theorem witness_RunEnds :
    faultBit (queued [0x01000000, 0x13043000]).status = false ∧
    steps (queued [0x01000000, 0x13043000]) (fun t => steps t fun u => decide (u.seq = 2 ∧ u.cmdq = [])) = true ∧
    steps (queued [0x01000000, 0x13143000]) (fun t => stepFaults t fun u => decide (u.fseq = 1 ∧ u.status = 1)) = true := by
  decide

theorem witness_RegisterFrame :
    (∃ t, exec (.bqdf1 0 4 1) used = .next t) ∧ destReg (.bqdf1 0 4 1) ≠ some 5 ∧
    (∃ t, exec (.firupd 0 1) used = .next t) ∧ destReg (.firupd 0 1) ≠ some 1 :=
  ⟨⟨_, rfl⟩, by decide, ⟨_, rfl⟩, by decide⟩

/-- `BQDF1 s0` writes neither slot 1 of its unit nor slot 0 of another. -/
theorem witness_SlotFrame :
    (∃ t, exec (.bqdf1 0 4 1) used = .next t) ∧ ¬WritesSlot (.bqdf1 0 4 1) .bq 1 ∧ ¬WritesSlot (.bqdf1 0 4 1) .cas 0 ∧
    WritesSlot (.bqdf1 0 4 1) .bq 0 := by
  refine ⟨⟨_, rfl⟩, ?_, ?_, ⟨0, rfl, rfl⟩⟩
  · rintro ⟨sl, h, hn⟩; cases h; simp at hn
  · rintro ⟨sl, h, -⟩; cases h

/-- Two states that differ in another slot of the unit and in another unit. -/
theorem witness_SlotIndependence :
    let s' : State := { used with bq := [⟨true, v10⟩, ⟨true, v10⟩], pt1 := [Pt1Slot.zero, Pt1Slot.zero] }
    SameOutsideSlots used s' ∧ s' ≠ used ∧
    (∀ u sl, namedSlot (.bqdf1 0 4 1) = some (u, sl) → SameSlot used s' u sl.toNat) ∧
    (∃ t, exec (.bqdf1 0 4 1) used = .next t) ∧ ∃ t', exec (.bqdf1 0 4 1) s' = .next t' := by
  refine ⟨by simp [SameOutsideSlots, SameFaultRegs, configOf, used], by decide, ?_, ⟨_, rfl⟩, ⟨_, rfl⟩⟩
  intro u sl h
  cases h
  rfl

/-- A store to the last word leaves the word before it; `FIRINIT` over words 13 to 15 leaves word 12. -/
theorem witness_MemoryFrame :
    (∃ t, exec (.wrm 2 4) used = .next t) ∧ ¬StoresTo used (.wrm 2 4) 14 ∧ StoresTo used (.wrm 2 4) 15 ∧
    (∃ t, exec (.firinit 0 13 7 0) used = .next t) ∧ ¬StoresTo used (.firinit 0 13 7 0) 12 ∧
    ¬StoresTo used (.firapply 0 1) 0 := by
  refine ⟨⟨_, rfl⟩, ?_, ⟨15, 1, rfl, by decide, by decide⟩, ⟨_, rfl⟩, ?_, ?_⟩
  · rintro ⟨b, n, h, h1, h2⟩; cases h; revert h1; decide
  · rintro ⟨b, n, h, h1, h2⟩; cases h; revert h1; decide
  · rintro ⟨b, n, h, -, -⟩; cases h

theorem witness_StoreThenLoad :
    (readReg used 2).toNat < used.memWords ∧ (readReg used 5).toNat < used.memWords ∧ readReg used 5 ≠ readReg used 2 := by
  decide

/-- Slot 0 of every unit is valid before a command that completes. -/
theorem witness_ValidNeverCleared :
    (∃ t, exec (.bqinitlpf 0 1 1) used = .next t) ∧ (∃ c, used.bq[0]? = some c ∧ c.valid = true) ∧
    (∃ c, used.cas[0]? = some c ∧ c.valid = true) ∧ (∃ c, used.pt1[0]? = some c ∧ c.valid = true) ∧
    (∃ c, used.fir[0]? = some c ∧ c.valid = true) ∧ ∃ c, used.slew[0]? = some c ∧ c.valid = true :=
  ⟨⟨_, rfl⟩, ⟨_, rfl, rfl⟩, ⟨_, rfl, rfl⟩, ⟨_, rfl, rfl⟩, ⟨_, rfl, rfl⟩, ⟨_, rfl, rfl⟩⟩

/-- A field a command changed, in slot `n` of a unit. -/
def changed {α β : Type} [DecidableEq β] (s t : List α) (n : Nat) (f : α → β) : Bool :=
  match s[n]?, t[n]? with
  | some c, some d => decide (f c ≠ f d)
  | _, _ => false

/-- Every group of fields is changed by one of the commands named for it. -/
theorem witness_FieldWriters :
    runs (.bqrcfir2 1 1) used (fun t => changed used.bq t.bq 1 (·.valid)) = true ∧
    runs (.bqrcfir2 1 1) used (fun t => changed used.bq t.bq 1 (·.sec.b0)) = true ∧
    runs (.bqapply 0 4 1) used (fun t => changed used.bq t.bq 0 (·.sec.x1)) = true ∧
    runs (.bqdf1 0 4 1) used (fun t => changed used.bq t.bq 0 (·.sec.y1)) = true ∧
    runs (.casinit 1 4 0 1 1) used (fun t => changed used.cas t.cas 1 (·.valid)) = true ∧
    runs (.casinit 1 4 5 0 9) used (fun t => changed used.cas t.cas 1 (·.sec[1].a1)) = true ∧
    runs (.casapply 0 4 1) used (fun t => changed used.cas t.cas 0 (·.sec[1].x1)) = true ∧
    runs (.pt1init 1 1) used (fun t => changed used.pt1 t.pt1 1 (·.k)) = true ∧
    runs (.wrs 1 1 3 0x01) used (fun t => changed used.pt1 t.pt1 1 (·.state)) = true ∧
    runs (.firinit 0 13 7 0) used (fun t => changed used.fir t.fir 0 (·.bufBase)) = true ∧
    runs (.firupdavg 1 11) used (fun t => changed used.fir t.fir 1 (·.movingSum)) = true ∧
    runs (.firupd 0 1) used (fun t => changed used.fir t.fir 0 (·.index)) = true ∧
    runs (.slewinit 1 1 1) used (fun t => changed used.slew t.slew 1 (·.threshold)) = true ∧
    runs (.slewapply 0 4 1) used (fun t => changed used.slew t.slew 0 (·.state)) = true := by decide

/-- The smallest and the largest configuration. -/
theorem witness_ResetInv :
    Config.Legal ⟨1, 1, 1, 1, 1, 1, 1⟩ ∧ Config.Legal ⟨16, 16, 16, 16, 16, 2 ^ 24, 1⟩ := by decide

theorem inv_queued (q : List Word) : Inv (queued q) where
  config := by show tinyConfig.Legal; decide
  bq := by show ∀ c ∈ used.bq, _; unfold BqOk; decide
  cas := by show ∀ c ∈ used.cas, _; unfold CasOk; decide
  pt1 := by show ∀ c ∈ used.pt1, _; unfold Pt1Ok; decide
  fir := by show ∀ f ∈ used.fir, FirOk used.memWords f; unfold FirOk; decide
  slew := by show ∀ c ∈ used.slew, _; unfold SlewOk; decide
  fault := .inl ⟨rfl, rfl, rfl, rfl, rfl⟩
  memWf := by show Memory.wf used.mem = true; decide
  memIn := by show Memory.inRange 16 used.mem = true; decide

theorem inv_used : Inv used := inv_queued []

/-- A step that completes a command, one that waits, one that takes the fault of an illegal word and one of a command. -/
theorem witness_StepKeepsInv :
    Inv (queued [0x47076000]) ∧ (∃ t, step (queued [0x47076000]) = .next t) ∧ (∃ t, step used = .next t) ∧
    Inv (queued [0x00000000]) ∧ (∃ t, step (queued [0x00000000]) = .fault (.faulted t)) ∧
    Inv (queued [0x14143000]) ∧ ∃ t, step (queued [0x14143000]) = .fault (.faulted t) :=
  ⟨inv_queued _, ⟨_, rfl⟩, ⟨_, rfl⟩, inv_queued _, ⟨_, rfl⟩, inv_queued _, ⟨_, rfl⟩⟩

theorem witness_HostKeepsInv : Inv (queued [0x01000000]) ∧ ∃ t, send 0x01000000 (queued [0x01000000]) = some t :=
  ⟨inv_queued _, ⟨_, rfl⟩⟩

/-- The last word stored to, and the last sample and coefficient of a slot whose coefficients end with memory. -/
theorem witness_AddressesInRange :
    Inv used ∧ firstFailure used (.wrm 2 4) = none ∧ StoresTo used (.wrm 2 4) 15 ∧
    firstFailure used (.firinit 0 13 7 0) = none ∧ StoresTo used (.firinit 0 13 7 0) 15 ∧
    firA ∈ used.fir ∧ firA.valid = true ∧ 3 < firA.bufLength.toNat ∧ 2 < firA.coeffsLength.toNat := by
  refine ⟨inv_used, by decide, ⟨15, 1, rfl, ?_⟩, by decide, ⟨13, 3, rfl, ?_⟩, ?_⟩ <;> decide

/-- The fields of every unit of the state space, read at reset. -/
theorem witness_ResetContents :
    readField State.reset (.bqSec .y2) 15 = some 0 ∧ readField State.reset (.casSec 5 .y2) 15 = some 0 ∧
    readField State.reset .pt1State 15 = some 0 ∧ readField State.reset .firCoeffsLength 15 = some 0 ∧
    readField State.reset .slewThreshold 15 = some 0 := by decide

theorem witness_HostResetState : 1 ≤ ({ used with status := 1, cmdqDepth := 1 } : State).cmdqDepth := by decide

/-- A `WRM` abandoned with its word written, and without. -/
theorem witness_ResetMidCommand :
    let s := queued [0x06005400]
    memRead (hostResetDuring [4] s) 4 = 0xDEADBEEF ∧ memRead s 4 = 0x3F800000 ∧
    memRead (hostResetDuring [] s) 4 = 0x3F800000 := by decide

theorem witness_ReadPort :
    busy used = false ∧ (busy (queued [1]) = true ∧ faultLine (queued [1]) = false) ∧
    faultLine { used with status := 1 } = true ∧ 25 ≤ (25 : BitVec 5).toNat ∧ 25 ≤ (31 : BitVec 5).toNat := by decide

/-- A full queue of two words; one free place, running and faulted. -/
theorem witness_CommandPort :
    (queued [1, 2]).cmdqDepth ≤ (queued [1, 2]).cmdq.length ∧
    ((queued [1]).cmdq.length < (queued [1]).cmdqDepth ∧ faultBit (queued [1]).status = false) ∧
    (({ used with status := 1 } : State).cmdq.length < ({ used with status := 1 } : State).cmdqDepth ∧
      faultBit ({ used with status := 1 } : State).status = true) := by decide

theorem f32Real_eq {a : F32} {z : Int} (h : f32Val a = z) : f32Real a = (z : ℚ) / 2 ^ 149 := by rw [f32Real, h]

/-- 1.0 and 2^-24 for the four operations; 2 · (2^24 - 1) · 2^104 for overflow of a sum. -/
theorem witness_RoundedArithmetic :
    f32IsFinite 0x3F800000 = true ∧ f32IsFinite 0x33800000 = true ∧ f32IsFinite 0x7F7FFFFF = true ∧
    f32Real 0x3F800000 + f32Real 0x33800000 ≠ 0 ∧ f32Real 0x3F800000 - f32Real 0x33800000 ≠ 0 ∧
    f32Real 0x3F800000 * f32Real 0x33800000 ≠ 0 ∧ f32Real 0x33800000 ≠ 0 ∧
    f32Real 0x3F800000 / f32Real 0x33800000 ≠ 0 ∧
    (2 - 1 / 2 ^ 24) * 2 ^ 127 ≤ |f32Real 0x7F7FFFFF + f32Real 0x7F7FFFFF| := by
  have h1 := f32Real_eq (a := 0x3F800000) (z := 2 ^ 149) (by decide)
  have h2 := f32Real_eq (a := 0x33800000) (z := 2 ^ 125) (by decide)
  have h3 := f32Real_eq (a := 0x7F7FFFFF) (z := (2 ^ 24 - 1) * 2 ^ 253) (by decide)
  refine ⟨by decide, by decide, by decide, ?_⟩
  rw [h1, h2, h3]
  norm_num

theorem witness_SpecialResults :
    (f32IsNaN 0x00000000 = false ∧ f32IsNaN 0x80000000 = false ∧ f32IsFinite 0x00000000 = true ∧
      f32IsFinite 0x80000000 = true ∧ f32Real 0x00000000 + f32Real 0x80000000 = 0 ∧ f32Mag 0x80000000 = 0) ∧
    (f32IsNaN 0x7F800000 = false ∧ f32IsInf 0x7F800000 = true ∧ f32IsInf 0xFF800000 = true) ∧
    (f32IsFinite 0x00000001 = true ∧ f32Mag 0x00000001 ≠ 0 ∧ f32Mag 0x7F800000 ≠ 0) := by
  refine ⟨⟨by decide, by decide, by decide, by decide, ?_, by decide⟩, by decide, by decide⟩
  rw [f32Real_eq (a := 0x00000000) (z := 0) (by decide), f32Real_eq (a := 0x80000000) (z := 0) (by decide)]
  norm_num

/-- A section with a NaN in every state field, and six sections of which the last is that one. -/
def nanSection : Section := { v10 with x1 := 0x7FC00000, x2 := 0x7FC00000, y1 := 0x7FC00000, y2 := 0x7FC00000 }
@[inherit_doc nanSection]
def nanCascade : CasSlot := ⟨true, 6, #v[v10, v10, v10, v10, v10, nanSection]⟩

/-- NaNs at the ends of their ranges, the invalid operations, and slots that hold a NaN in each recursive field. -/
theorem witness_CanonicalNan :
    f32IsNaN 0x7F800001 = true ∧ f32IsNaN 0xFFFFFFFF = true ∧
    (f32IsInf 0x7F800000 = true ∧ f32IsInf 0xFF800000 = true ∧ f32Neg 0x7F800000 ≠ f32Neg 0xFF800000 ∧
      f32Mag 0 = 0 ∧ f32Mag 0x80000000 = 0) ∧
    f32IsNaN (fdiv 0 0) = true ∧ f32IsNaN (fsub 0x7F800000 0x7F800000) = true ∧ f32IsNaN (fmul 0 0x7F800000) = true ∧
    f32IsNaN (fadd 0x7F800000 0xFF800000) = true ∧ f32IsNaN (sinf 0x7F800000) = true ∧
    f32IsNaN (cosf 0x7F800000) = true ∧ f32IsNaN (Pt1Slot.mk true 0x7FC00000 0).state = true ∧
    f32IsNaN ({ firA with movingSum := 0x7FC00000 } : FirSlot).movingSum = true ∧
    f32IsNaN nanSection.x1 = true ∧ f32IsNaN nanSection.x2 = true ∧ f32IsNaN nanSection.y1 = true ∧
    f32IsNaN nanSection.y2 = true ∧ nanCascade.sections.toNat ≤ 6 ∧ 5 < nanCascade.sections.toNat ∧
    f32IsNaN nanCascade.sec[5].x1 = true ∧ f32IsNaN nanCascade.sec[5].x2 = true := by decide

theorem witness_SignBitOperations : 0 < 32 ∧ 31 < 32 := by decide

theorem witness_Comparisons :
    f32IsNaN 0x7FC00000 = true ∧ (f32IsNaN 0x7F800000 = false ∧ f32IsNaN 0x7F7FFFFF = false ∧
      fgt 0x7F800000 0x7F7FFFFF = true) ∧ (f32IsNaN 0x80000000 = false ∧ f32IsNaN 0 = false ∧ fle 0x80000000 0 = true) := by
  decide

/-- A function with the properties (b), (c), (d): zero on every finite operand. -/
theorem witness_SineCosine :
    f32IsFinite 0x7F800000 = false ∧ f32IsFinite 0x7F7FFFFF = true ∧
    ∃ (f : F32 → F32) (z : F32), f 0x00000000 = z ∧ (∀ a, f32IsFinite a = false → f a = 0x7FC00000) ∧
      ∀ a, f32IsFinite a = true → f32IsFinite (f a) = true ∧ |f32Real (f a)| ≤ 1 := by
  refine ⟨by decide, by decide, fun a => if f32IsFinite a then 0 else 0x7FC00000, 0, by decide, ?_, ?_⟩
  · intro a h; simp [h]
  · intro a h
    have h0 := f32Real_eq (a := 0x00000000) (z := 0) (by decide)
    simp only [h, if_true]
    exact ⟨by decide, by rw [show (0 : F32) = 0x00000000 from rfl, h0]; norm_num⟩

theorem witness_UnsignedConversion : (4294967295 : Word) ≠ 0 ∧ (16777216 : Word).toNat ≤ 2 ^ 24 := by decide

/-- The first address beyond memory and the last inside. -/
theorem witness_MemoryCommands :
    used.memWords ≤ (readReg used 3).toNat ∧ (readReg used 2).toNat < used.memWords := by decide

/-- Pairs that are not defined, a slot a unit does not have, a legal configuration, and slot 0 of each unit. -/
theorem witness_ReadStateSpace :
    fieldPairDefined 2 0x6A = false ∧ (fieldPairDefined 2 0x69 = true ∧ unitSlots used 2 ≤ (2 : SlotNo).toNat) ∧
    (configOf used).Legal ∧ (∃ b, used.bq[0]? = some b) ∧ (∃ c, used.cas[0]? = some c) ∧
    (∃ p, used.pt1[0]? = some p) ∧ (∃ f, used.fir[0]? = some f) ∧ ∃ c, used.slew[0]? = some c :=
  ⟨by decide, by decide, by decide, ⟨_, rfl⟩, ⟨_, rfl⟩, ⟨_, rfl⟩, ⟨_, rfl⟩, ⟨_, rfl⟩⟩

theorem witness_WriteStateSpace :
    fieldPairDefined 3 0x70 = false ∧ (fieldPairDefined 3 0x01 = true ∧ unitSlots used 3 ≤ (2 : SlotNo).toNat) ∧
    (fieldPairDefined 3 0x02 = true ∧ (1 : SlotNo).toNat < unitSlots used 3 ∧ ¬((3 : BitVec 4) = 3 ∧ (0x02 : BitVec 8) = 0x01)) ∧
    used.pt1[(1 : SlotNo).toNat]? = some Pt1Slot.zero := by decide

/-- The three cases of a command on a biquad slot: no such slot, not valid, valid (`BiquadInit`, `BiquadUpdate`,
`BiquadRcfir2`, `BiquadDf1`, `BiquadApply`). -/
theorem witness_biquad_slots :
    used.bq.length ≤ (2 : SlotNo).toNat ∧ (1 : SlotNo).toNat < used.bq.length ∧
    (used.bq[(1 : SlotNo).toNat]? = some BqSlot.zero ∧ BqSlot.zero.valid = false) ∧
    used.bq[(0 : SlotNo).toNat]? = some ⟨true, v10⟩ := by decide

theorem witness_BiquadInit : used.bq.length ≤ (2 : SlotNo).toNat ∧ (1 : SlotNo).toNat < used.bq.length := by decide
theorem witness_BiquadUpdate : ∃ b, used.bq[(0 : SlotNo).toNat]? = some b ∧ b.valid = true := ⟨_, rfl, rfl⟩
theorem witness_BiquadRcfir2 : used.bq.length ≤ (15 : SlotNo).toNat ∧ (0 : SlotNo).toNat < used.bq.length := by decide
theorem witness_BiquadDf1 : ∃ b, used.bq[(0 : SlotNo).toNat]? = some b ∧ b.valid = true := ⟨_, rfl, rfl⟩
theorem witness_BiquadApply : ∃ b, used.bq[(0 : SlotNo).toNat]? = some b ∧ b.valid = true := ⟨_, rfl, rfl⟩

/-- Orders 0, 13 and 14 (not in range), 2 and 12 (the ends of the range), on slots that exist; and no slot 2. -/
theorem witness_CascadeInit :
    used.cas.length ≤ (2 : SlotNo).toNat ∧ (∃ c, used.cas[(0 : SlotNo).toNat]? = some c) ∧
    (readReg used 0).toNat = 0 ∧ (readReg used 13).toNat % 2 = 1 ∧ 12 < (readReg (writeReg 1 14 used) 1).toNat ∧
    ((readReg used 12).toNat ≠ 0 ∧ (readReg used 12).toNat % 2 = 0 ∧ (readReg used 12).toNat ≤ 12) ∧
    ((readReg (writeReg 1 2 used) 1).toNat = 2 ∧ (qtab 12)[5]? = some 0x4075295A ∧ (qtab 2)[1]? = none) :=
  ⟨by decide, ⟨_, rfl⟩, by decide, by decide, by decide, by decide, by decide⟩

/-- No slot, not valid, valid with 0, 2 and 6 sections. -/
theorem witness_CascadeApply :
    used.cas.length ≤ (2 : SlotNo).toNat ∧ used.cas[(1 : SlotNo).toNat]? = some CasSlot.zero ∧
    (∃ c, used.cas[(0 : SlotNo).toNat]? = some c ∧ c.valid = true ∧ c.sections.toNat ≤ 6 ∧ 1 < c.sections.toNat) ∧
    (∃ c, ({ used with cas := [{ CasSlot.zero with valid := true }] } : State).cas[(0 : SlotNo).toNat]? = some c ∧
      c.valid = true ∧ c.sections = 0) ∧
    ∃ c, ({ used with cas := [{ CasSlot.zero with valid := true, sections := 6 }] } : State).cas[(0 : SlotNo).toNat]? =
      some c ∧ c.valid = true ∧ c.sections.toNat ≤ 6 :=
  ⟨by decide, by decide, ⟨_, rfl, rfl, by decide, by decide⟩, ⟨_, rfl, rfl, rfl⟩, ⟨_, rfl, rfl, by decide⟩⟩

/-- A cutoff that is not positive (−0.0, the boundary), and one that is. -/
theorem witness_Pt1Gain : fle 0x80000000 0x00000000 = true ∧ fle 0x00000001 0x00000000 = false := by decide

theorem witness_Pt1Init : used.pt1.length ≤ (2 : SlotNo).toNat ∧ (1 : SlotNo).toNat < used.pt1.length := by decide

theorem witness_Pt1Apply :
    used.pt1.length ≤ (2 : SlotNo).toNat ∧ used.pt1[(1 : SlotNo).toNat]? = some Pt1Slot.zero ∧
    used.pt1[(0 : SlotNo).toNat]? = some ⟨true, 0x3F000000, 0x3F000000⟩ := by decide

/-- Every clause of `FirInitialise`'s list of checks, at `x[rb]` = `bl`, `x[ra]` = `bb`, `x[rc]` = `cb`: no slot; length 0;
more coefficients than samples; buffer one word too far; coefficients one word too far; both ending with memory. -/
theorem witness_FirInitialise :
    used.fir.length ≤ (2 : SlotNo).toNat ∧ (1 : SlotNo).toNat < used.fir.length ∧ readReg used 0 = 0 ∧
    (readReg used 7 ≠ 0 ∧ (readReg used 7).toNat < (readReg used 5).toNat) ∧
    (readReg used 5 ≠ 0 ∧ (readReg used 5).toNat ≤ (readReg used 5).toNat ∧
      used.memWords < (readReg used 13).toNat + (readReg used 5).toNat) ∧
    ((readReg used 12).toNat + (readReg used 5).toNat ≤ used.memWords ∧
      used.memWords < (readReg used 13).toNat + (readReg used 5).toNat) ∧
    ((readReg used 12).toNat + (readReg used 5).toNat ≤ used.memWords ∧
      (readReg used 13).toNat + (readReg used 7).toNat ≤ used.memWords ∧
      (readReg used 7).toNat ≤ (readReg used 5).toNat) := by decide

/-- The three cases of a command on a FIR slot (`FirUpdate`, `FirUpdateAverage`, `FirConvolution`, `FirPartialAverage`,
`FirMovingAverage`, `FirUpdateApply`, `FirLastInput`): no such slot; a slot not valid; both slots of `used`, with `index`
at its last value and at 0, and `count` below and at `bufLength`. -/
theorem witness_fir_slots :
    used.fir.length ≤ (2 : SlotNo).toNat ∧
    (tiny.fir[(1 : SlotNo).toNat]? = some FirSlot.zero ∧ FirSlot.zero.valid = false) ∧
    (used.fir[(0 : SlotNo).toNat]? = some firA ∧ firA.valid = true) ∧
    (used.fir[(1 : SlotNo).toNat]? = some firB ∧ firB.valid = true) := by decide

theorem witness_FirUpdate : ∃ f, used.fir[(0 : SlotNo).toNat]? = some f ∧ f.valid = true := ⟨_, rfl, rfl⟩
theorem witness_FirUpdateAverage : ∃ f, used.fir[(1 : SlotNo).toNat]? = some f ∧ f.valid = true := ⟨_, rfl, rfl⟩
theorem witness_FirConvolution :
    ∃ f, used.fir[(0 : SlotNo).toNat]? = some f ∧ f.valid = true ∧ FirOk used.memWords f :=
  ⟨_, rfl, rfl, inv_used.fir firA (by decide)⟩
/-- As many samples as the buffer holds, one more, and none. -/
theorem witness_FirPartialAverage :
    (∃ f, used.fir[(1 : SlotNo).toNat]? = some f ∧ f.valid = true ∧ FirOk used.memWords f ∧
      (readReg used 5).toNat ≤ f.bufLength.toNat ∧ (readReg used 0).toNat ≤ f.bufLength.toNat) ∧
    ∃ f, used.fir[(1 : SlotNo).toNat]? = some f ∧ f.valid = true ∧ f.bufLength.toNat < (readReg used 6).toNat :=
  ⟨⟨_, rfl, rfl, inv_used.fir firB (by decide), by decide, by decide⟩, ⟨_, rfl, rfl, by decide⟩⟩
theorem witness_FirMovingAverage : ∃ f, used.fir[(1 : SlotNo).toNat]? = some f ∧ f.valid = true := ⟨_, rfl, rfl⟩
theorem witness_FirUpdateApply : ∃ f, used.fir[(0 : SlotNo).toNat]? = some f ∧ f.valid = true := ⟨_, rfl, rfl⟩
theorem witness_FirLastInput : ∃ f, used.fir[(1 : SlotNo).toNat]? = some f ∧ f.valid = true := ⟨_, rfl, rfl⟩

theorem witness_SlewInit : used.slew.length ≤ (2 : SlotNo).toNat ∧ (1 : SlotNo).toNat < used.slew.length := by decide

/-- No slot; not valid; limited down (input -5.0), limited up (5.0), and a jump of exactly the threshold (1.25 to 0.75
with threshold 0.5), which passes. -/
theorem witness_SlewApply :
    used.slew.length ≤ (2 : SlotNo).toNat ∧ used.slew[(1 : SlotNo).toNat]? = some SlewSlot.zero ∧
    (∃ c, used.slew[(0 : SlotNo).toNat]? = some c ∧ c.valid = true ∧ c.state = 0x3F400000 ∧ c.threshold = 0x3F000000) ∧
    (fgt (fabs (fsub (readReg used 10) 0x3F400000)) 0x3F000000 = true ∧
      flt (fsub (readReg used 10) 0x3F400000) 0x00000000 = true) ∧
    (fgt (fabs (fsub (readReg used 11) 0x3F400000)) 0x3F000000 = true ∧
      flt (fsub (readReg used 11) 0x3F400000) 0x00000000 = false) ∧
    fgt (fabs (fsub 0x3FA00000 0x3F400000)) 0x3F000000 = false :=
  ⟨by decide, by decide, ⟨_, rfl, rfl, rfl, rfl⟩, by decide, by decide, by decide⟩

end Sys2Proof.Tests
end

section
/-! # Every command completes or faults (00_scope.md R9, 60_exceptions.md R210)

What the sequencer keeps about its commands is cut out of the state as `Control`: completing a command keeps it but for
`SEQ`. `Settles` says that an answer is of one of the two kinds; each shared operation of Machine/Ops.lean has one rule for
it, and the command's own rule is these put together in the order of its checks. -/

namespace Sys2Proof.Machine

open Sys2Proof.Safety

/-- The registers and the queue that no update inside a command may touch: `SEQ`, the five fault registers (10_state.md
R20 (b), (c)) and the words not yet taken (R50). -/
structure Control where
  seq    : Word
  status : Word
  cause  : Word
  fseq   : Word
  finst  : Word
  finfo  : Word
  cmdq   : List Word

/-- The control part of a state. -/
def controlOf (s : State) : Control := ⟨s.seq, s.status, s.cause, s.fseq, s.finst, s.finfo, s.cmdq⟩

theorem controlOf_eq_iff {s t : State} :
    controlOf t = controlOf s ↔ t.seq = s.seq ∧ SameFaultRegs s t ∧ t.cmdq = s.cmdq := by
  simp [controlOf, SameFaultRegs, and_assoc]

theorem controlOf_writePt1State (sl : SlotNo) (v : Word) (s : State) :
    controlOf (writePt1State sl v s) = controlOf s := by
  unfold writePt1State
  split <;> rfl

/-- The state after a command completed: `SEQ` advanced on a state with the control part of `s`. -/
def Completed (s t : State) : Prop := ∃ u, controlOf u = controlOf s ∧ t = advance u

/-- The answer `r` of the command `i` in `s` is a next state, and there `i` has completed or faulted. -/
def Settles (i : Instr) (s : State) (r : Result) : Prop := ∃ t, r = .next t ∧ (Completed s t ∨ Faulted i s t)

theorem Completed.control {s t : State} (h : Completed s t) :
    t.seq = s.seq + 1 ∧ SameFaultRegs s t ∧ t.cmdq = s.cmdq := by
  obtain ⟨u, hu, rfl⟩ := h
  obtain ⟨hseq, hfault, hcmdq⟩ := controlOf_eq_iff.1 hu
  exact ⟨congrArg (· + 1) hseq, hfault, hcmdq⟩

theorem Faulted.control {i : Instr} {s t : State} (h : Faulted i s t) :
    SameButFaultRegs s t ∧ faultBit t.status = true ∧ t.fseq = s.seq ∧ t.finst = encode i ∧ t.cmdq = [] ∧
      ∃ c, t.cause = causeCode c := by
  obtain ⟨c, info, rfl⟩ := h
  exact ⟨by simp [SameButFaultRegs], by simp, rfl, rfl, rfl, c, rfl⟩

/-! ## One rule per shared operation -/

theorem settles_complete {i : Instr} {s u : State} (h : controlOf u = controlOf s) : Settles i s (complete u) :=
  ⟨_, rfl, .inl ⟨u, h, rfl⟩⟩

theorem settles_raise (c : Cause) (i : Instr) (info : Word) (s : State) : Settles i s (raise c i info s) :=
  ⟨_, rfl, .inr ⟨c, info, rfl⟩⟩

theorem settles_ite {p : Prop} [Decidable p] {i : Instr} {s : State} {r₁ r₂ : Result} (h₁ : Settles i s r₁)
    (h₂ : Settles i s r₂) : Settles i s (if p then r₁ else r₂) := by
  split <;> assumption

theorem settles_withSlot {α : Type} {slots : List α} {i : Instr} {sl : SlotNo} {s : State} {k : α → Result}
    (h : ∀ a, Settles i s (k a)) : Settles i s (withSlot slots i sl s k) := by
  unfold withSlot
  split
  · exact settles_raise ..
  · exact h _

theorem settles_needValid {valid : Bool} {i : Instr} {sl : SlotNo} {s : State} {k : Result} (h : Settles i s k) :
    Settles i s (needValid valid i sl s k) := settles_ite h (settles_raise ..)

theorem settles_needAddr {a : Word} {i : Instr} {s : State} {k : Result} (h : Settles i s k) :
    Settles i s (needAddr a i s k) := settles_ite h (settles_raise ..)

theorem settles_firInit (i : Instr) (sl : SlotNo) (bb bl cb cl : Word) (s : State) :
    Settles i s (firInit i sl bb bl cb cl s) :=
  settles_ite (settles_raise ..) <| settles_ite (settles_raise ..) <| settles_ite (settles_raise ..) <|
    settles_ite (settles_raise ..) <| settles_complete rfl

/-! ## The commands -/

theorem settles_execRds (sl : SlotNo) (rd : Reg) (un : BitVec 4) (fld : BitVec 8) (s : State) :
    Settles (.rds sl rd un fld) s (execRds sl rd un fld s) := by
  unfold execRds
  split
  · exact settles_raise ..
  · split
    · exact settles_raise ..
    · exact settles_complete rfl

theorem settles_execWrs (sl : SlotNo) (ra : Reg) (un : BitVec 4) (fld : BitVec 8) (s : State) :
    Settles (.wrs sl ra un fld) s (execWrs sl ra un fld s) := by
  unfold execWrs
  split
  · exact settles_raise ..
  · exact settles_ite (settles_raise ..) <|
      settles_ite (settles_complete (controlOf_writePt1State ..)) (settles_raise ..)

/-- R9: every command answers a next state, in which it has completed or faulted. -/
theorem exec_settles (i : Instr) (s : State) : Settles i s (exec i s) := by
  cases i with
  | nop => exact settles_complete rfl
  | lih rd imm16 => exact settles_complete rfl
  | lil rd imm16 => exact settles_complete rfl
  | mov rd ra => exact settles_complete rfl
  | rdm rd ra => exact settles_needAddr (settles_complete rfl)
  | wrm ra rb => exact settles_needAddr (settles_complete rfl)
  | rds sl rd un fld => exact settles_execRds ..
  | wrs sl ra un fld => exact settles_execWrs ..
  | bqinitlpf sl ra rb => exact settles_withSlot fun _ => settles_complete rfl
  | bqinit sl ra rb rc ty => exact settles_withSlot fun _ => settles_complete rfl
  | bqupd sl ra rb rc ty => exact settles_withSlot fun _ => settles_needValid (settles_complete rfl)
  | bqdf1 sl rd ra => exact settles_withSlot fun _ => settles_needValid (settles_complete rfl)
  | bqapply sl rd ra => exact settles_withSlot fun _ => settles_needValid (settles_complete rfl)
  | notchq rd ra rb => exact settles_complete rfl
  | bqrcfir2 sl ra => exact settles_withSlot fun _ => settles_complete rfl
  | casinit sl rd ra rb rc => exact settles_withSlot fun _ => settles_complete rfl
  | casapply sl rd ra => exact settles_withSlot fun _ => settles_needValid (settles_complete rfl)
  | pt1gain rd ra rb => exact settles_complete rfl
  | pt1init sl ra => exact settles_withSlot fun _ => settles_complete rfl
  | pt1apply sl rd ra => exact settles_withSlot fun _ => settles_needValid (settles_complete rfl)
  | firinit sl ra rb rc => exact settles_withSlot fun _ => settles_firInit ..
  | firinit2 sl ra rb rc re => exact settles_withSlot fun _ => settles_firInit ..
  | firupd sl ra => exact settles_withSlot fun _ => settles_needValid (settles_complete rfl)
  | firupdavg sl ra => exact settles_withSlot fun _ => settles_needValid (settles_complete rfl)
  | firapply sl rd => exact settles_withSlot fun _ => settles_needValid (settles_complete rfl)
  | firpavg sl rd ra =>
    exact settles_withSlot fun _ => settles_needValid (settles_ite (settles_raise ..) (settles_complete rfl))
  | firmavg sl rd => exact settles_withSlot fun _ => settles_needValid (settles_complete rfl)
  | firupdapply sl rd ra => exact settles_withSlot fun _ => settles_needValid (settles_complete rfl)
  | firlast sl rd => exact settles_withSlot fun _ => settles_needValid (settles_complete rfl)
  | slewinit sl ra rb => exact settles_withSlot fun _ => settles_complete rfl
  | slewapply sl rd ra => exact settles_withSlot fun _ => settles_needValid (settles_complete rfl)

/-- Settles O9: the answer of every command settles it, and both kinds of answer are as R9 and R210 say. -/
theorem completeOrFault : Obligations.CompleteOrFault := fun i s =>
  have ⟨t, ht, h⟩ := exec_settles i s
  ⟨t, ht, h.imp Completed.control Faulted.control⟩

end Sys2Proof.Machine
end

section
/-! # A command's result depends on no slot but the one it names (10_state.md R39)

`Agree i` is the relation between two states that a command `i` may not break, `Agreeing i` the same for two answers. Each
update and each shared operation of Machine/Ops.lean has one rule for it; a command's rule is these put together in the
order of its checks. -/

namespace Sys2Proof.Machine

open Sys2Proof.Safety

/-- The two states agree outside the slots and on the slot that `i` names. -/
def Agree (i : Instr) (s s' : State) : Prop :=
  SameOutsideSlots s s' ∧ ∀ u sl, namedSlot i = some (u, sl) → SameSlot s s' u sl.toNat

/-- Both answers are next states, and these agree. -/
inductive Agreeing (i : Instr) : Result → Result → Prop
  | next {t t' : State} (h : Agree i t t') : Agreeing i (.next t) (.next t')

section

variable {i : Instr} {s s' : State}

/-! ## What agreeing states give a command to read -/

theorem readReg_of_sameOutside (h : SameOutsideSlots s s') : readReg s' = readReg s := by
  obtain ⟨hregs, -⟩ := h
  funext r
  simp only [readReg, hregs]

theorem mem_of_sameOutside (h : SameOutsideSlots s s') : s'.mem = s.mem := by
  obtain ⟨-, -, -, hmem, -⟩ := h
  exact hmem

/-- The slot counts and the memory size, one by one. -/
theorem params_of_sameOutside (h : SameOutsideSlots s s') :
    s'.bq.length = s.bq.length ∧ s'.cas.length = s.cas.length ∧ s'.pt1.length = s.pt1.length ∧
    s'.fir.length = s.fir.length ∧ s'.slew.length = s.slew.length ∧ s'.memWords = s.memWords := by
  obtain ⟨-, -, -, -, -, hcfg⟩ := h
  simp only [configOf, Config.mk.injEq] at hcfg
  tauto

theorem readCore_of_sameOutside (h : SameOutsideSlots s s') (r : CoreReg) : readCore s' r = readCore s r := by
  obtain ⟨hbq, hcas, hpt1, hfir, hslew, hwords⟩ := params_of_sameOutside h
  obtain ⟨-, hseq, ⟨hstatus, hcause, hfseq, hfinst, hfinfo⟩, -⟩ := h
  cases r <;> simp only [readCore, cfgSlots, cfgMem, *]

/-- The unit a field belongs to; none for the core registers (10_state.md R37). -/
def fieldUnit : Field → Option UnitName
  | .core _ => none
  | .bqValid | .bqSec _ => some .bq
  | .casValid | .casSections | .casSec _ _ => some .cas
  | .pt1Valid | .pt1State | .pt1K => some .pt1
  | .firValid | .firBufBase | .firCoefBase | .firMovingSum | .firIndex | .firCount | .firBufLength
  | .firCoeffsLength => some .fir
  | .slewValid | .slewState | .slewSlewLimit | .slewThreshold => some .slew

/-- A defined pair names a field of the unit with its unit number. -/
theorem unitOf_eq_fieldUnit {un : BitVec 4} {fld : BitVec 8} {f : Field} (h : fieldOf un fld = some f) :
    unitOf un = fieldUnit f := by
  unfold fieldOf at h
  unfold unitOf
  split at h <;> simp only [*]
  case h_1 =>
    obtain ⟨r, -, rfl⟩ := Option.map_eq_some_iff.1 h
    rfl
  case h_2 =>
    unfold bqFieldOf at h
    split at h
    · cases h; rfl
    · obtain ⟨g, -, rfl⟩ := Option.map_eq_some_iff.1 h
      rfl
  case h_3 =>
    unfold casFieldOf at h
    repeat' split at h
    · cases h; rfl
    · cases h; rfl
    · cases h
    · obtain ⟨g, -, rfl⟩ := Option.map_eq_some_iff.1 h
      rfl
    · cases h
  case h_4 => unfold pt1FieldOf at h; split at h <;> cases h <;> rfl
  case h_5 => unfold firFieldOf at h; split at h <;> cases h <;> rfl
  case h_6 => unfold slewFieldOf at h; split at h <;> cases h <;> rfl
  case h_7 => cases h

theorem readField_of_sameSlot (ho : SameOutsideSlots s s') {f : Field} {n : Nat}
    (h : ∀ u, fieldUnit f = some u → SameSlot s s' u n) : readField s' f n = readField s f n := by
  cases f with
  | core r => simp only [readField, readCore_of_sameOutside ho]
  | _ => exact congrArg (Option.map _) (h _ rfl)

theorem fieldSlots_of_sameOutside (h : SameOutsideSlots s s') (f : Field) : fieldSlots s' f = fieldSlots s f := by
  obtain ⟨hbq, hcas, hpt1, hfir, hslew, -⟩ := params_of_sameOutside h
  cases f <;> simp only [fieldSlots, *]

/-! ## One rule per update of the state -/

theorem Agree.advance (h : Agree i s s') : Agree i (advance s) (advance s') := by
  obtain ⟨⟨hregs, hseq, hrest⟩, hslot⟩ := h
  exact ⟨⟨hregs, congrArg (· + 1) hseq, hrest⟩, hslot⟩

theorem Agree.takeFault (h : Agree i s s') (c : Cause) (w info : Word) :
    Agree i (takeFault c w info s) (takeFault c w info s') := by
  obtain ⟨⟨hregs, hseq, ⟨hstatus, -⟩, hmem, -, hcfg⟩, hslot⟩ := h
  exact ⟨⟨hregs, hseq, ⟨congrArg setFaultBit hstatus, rfl, hseq, rfl, rfl⟩, hmem, rfl, hcfg⟩, hslot⟩

theorem Agree.writeReg (h : Agree i s s') (r : Reg) (v : Word) : Agree i (writeReg r v s) (writeReg r v s') := by
  obtain ⟨⟨hregs, hrest⟩, hslot⟩ := h
  exact ⟨⟨congrArg (fun x : Vector Word 16 => x.set r.toNat v r.isLt) hregs, hrest⟩, hslot⟩

theorem Agree.memWrite (h : Agree i s s') (a : Nat) (v : Word) : Agree i (memWrite a v s) (memWrite a v s') := by
  obtain ⟨⟨hregs, hseq, hfault, hmem, hrest⟩, hslot⟩ := h
  exact ⟨⟨hregs, hseq, hfault, congrArg (Memory.write · a v) hmem, hrest⟩, hslot⟩

theorem Agree.memZero (h : Agree i s s') (base n : Nat) : Agree i (memZero base n s) (memZero base n s') := by
  obtain ⟨⟨hregs, hseq, hfault, hmem, hrest⟩, hslot⟩ := h
  exact ⟨⟨hregs, hseq, hfault, congrArg (Memory.zero · base n) hmem, hrest⟩, hslot⟩

theorem getElem?_set_congr {α : Type} {l l' : List α} {n : Nat} (h : l'[n]? = l[n]?) (a : α) :
    (l'.set n a)[n]? = (l.set n a)[n]? := by
  simp only [List.getElem?_set_self', h]

/-- To agree on the slot a command names, where it names one, is all that agreement asks about slots. -/
theorem agree_of_named {u : UnitName} {sl : SlotNo} (hn : namedSlot i = some (u, sl)) (ho : SameOutsideSlots s s')
    (hs : SameSlot s s' u sl.toNat) : Agree i s s' := by
  refine ⟨ho, fun v q hv => ?_⟩
  obtain ⟨rfl, rfl⟩ : u = v ∧ sl = q := by simpa using hn.symm.trans hv
  exact hs

theorem Agree.putBq {sl : SlotNo} (hn : namedSlot i = some (.bq, sl)) (h : Agree i s s') (c : BqSlot) :
    Agree i (putBq sl c s) (putBq sl c s') :=
  agree_of_named hn (by simpa [SameOutsideSlots, SameFaultRegs] using h.1) (getElem?_set_congr (h.2 _ _ hn) c)

theorem Agree.putCas {sl : SlotNo} (hn : namedSlot i = some (.cas, sl)) (h : Agree i s s') (c : CasSlot) :
    Agree i (putCas sl c s) (putCas sl c s') :=
  agree_of_named hn (by simpa [SameOutsideSlots, SameFaultRegs] using h.1) (getElem?_set_congr (h.2 _ _ hn) c)

theorem Agree.putPt1 {sl : SlotNo} (hn : namedSlot i = some (.pt1, sl)) (h : Agree i s s') (c : Pt1Slot) :
    Agree i (putPt1 sl c s) (putPt1 sl c s') :=
  agree_of_named hn (by simpa [SameOutsideSlots, SameFaultRegs] using h.1) (getElem?_set_congr (h.2 _ _ hn) c)

theorem Agree.putFir {sl : SlotNo} (hn : namedSlot i = some (.fir, sl)) (h : Agree i s s') (c : FirSlot) :
    Agree i (putFir sl c s) (putFir sl c s') :=
  agree_of_named hn (by simpa [SameOutsideSlots, SameFaultRegs] using h.1) (getElem?_set_congr (h.2 _ _ hn) c)

theorem Agree.putSlew {sl : SlotNo} (hn : namedSlot i = some (.slew, sl)) (h : Agree i s s') (c : SlewSlot) :
    Agree i (putSlew sl c s) (putSlew sl c s') :=
  agree_of_named hn (by simpa [SameOutsideSlots, SameFaultRegs] using h.1) (getElem?_set_congr (h.2 _ _ hn) c)

theorem Agree.writePt1State {sl : SlotNo} (hn : namedSlot i = some (.pt1, sl)) (h : Agree i s s') (v : Word) :
    Agree i (writePt1State sl v s) (writePt1State sl v s') := by
  have hslot : s'.pt1[sl.toNat]? = s.pt1[sl.toNat]? := h.2 _ _ hn
  simp only [Machine.writePt1State, hslot]
  split
  · exact h
  · exact h.putPt1 hn _

/-! ## One rule per shared operation -/

theorem agreeing_complete (h : Agree i s s') : Agreeing i (complete s) (complete s') := ⟨h.advance⟩

theorem agreeing_raise (h : Agree i s s') {c : Cause} {info : Word} :
    Agreeing i (raise c i info s) (raise c i info s') := ⟨h.takeFault ..⟩

theorem agreeing_ite {p : Prop} [Decidable p] {r₁ r₂ r₁' r₂' : Result} (h₁ : Agreeing i r₁ r₁')
    (h₂ : Agreeing i r₂ r₂') : Agreeing i (if p then r₁ else r₂) (if p then r₁' else r₂') := by
  split <;> assumption

theorem agreeing_withSlot {α : Type} {slots slots' : List α} {sl : SlotNo} {k k' : α → Result} (h : Agree i s s')
    (hs : slots'[sl.toNat]? = slots[sl.toNat]?) (hk : ∀ a, Agreeing i (k a) (k' a)) :
    Agreeing i (withSlot slots i sl s k) (withSlot slots' i sl s' k') := by
  simp only [withSlot, hs]
  split
  · exact agreeing_raise h
  · exact hk _

theorem agreeing_needValid {valid : Bool} {sl : SlotNo} {k k' : Result} (h : Agree i s s') (hk : Agreeing i k k') :
    Agreeing i (needValid valid i sl s k) (needValid valid i sl s' k') := agreeing_ite hk (agreeing_raise h)

theorem agreeing_needAddr {a : Word} {k k' : Result} (h : Agree i s s') (hk : Agreeing i k k') :
    Agreeing i (needAddr a i s k) (needAddr a i s' k') := by
  obtain ⟨-, -, -, -, -, hwords⟩ := params_of_sameOutside h.1
  simp only [needAddr, hwords]
  exact agreeing_ite hk (agreeing_raise h)

theorem agreeing_firInit {sl : SlotNo} (hn : namedSlot i = some (.fir, sl)) (h : Agree i s s') (bb bl cb cl : Word) :
    Agreeing i (firInit i sl bb bl cb cl s) (firInit i sl bb bl cb cl s') := by
  obtain ⟨-, -, -, -, -, hwords⟩ := params_of_sameOutside h.1
  simp only [firInit, hwords]
  exact agreeing_ite (agreeing_raise h) <| agreeing_ite (agreeing_raise h) <| agreeing_ite (agreeing_raise h) <|
    agreeing_ite (agreeing_raise h) <| agreeing_complete ((h.memZero ..).putFir hn _)

end

/-! ## The commands -/

section

variable {s s' : State}

theorem agreeing_execRds {sl : SlotNo} {rd : Reg} {un : BitVec 4} {fld : BitVec 8}
    (h : Agree (.rds sl rd un fld) s s') :
    Agreeing (.rds sl rd un fld) (execRds sl rd un fld s) (execRds sl rd un fld s') := by
  unfold execRds
  cases hf : fieldOf un fld with
  | none => exact agreeing_raise h
  | some f =>
    have hv : readField s' f sl.toNat = readField s f sl.toNat :=
      readField_of_sameSlot h.1 fun u hu => h.2 u sl (by simp [namedSlot, unitOf_eq_fieldUnit hf, hu])
    simp only [hv]
    split
    · exact agreeing_raise h
    · exact agreeing_complete (h.writeReg ..)

theorem agreeing_execWrs {sl : SlotNo} {ra : Reg} {un : BitVec 4} {fld : BitVec 8}
    (h : Agree (.wrs sl ra un fld) s s') :
    Agreeing (.wrs sl ra un fld) (execWrs sl ra un fld s) (execWrs sl ra un fld s') := by
  unfold execWrs
  cases hf : fieldOf un fld with
  | none => exact agreeing_raise h
  | some f =>
    simp only [fieldSlots_of_sameOutside h.1, readReg_of_sameOutside h.1]
    refine agreeing_ite (agreeing_raise h) ?_
    split
    · next hw =>
      obtain rfl : f = .pt1State := by simpa [fieldWritable] using hw
      exact agreeing_complete (h.writePt1State (by simp [namedSlot, unitOf_eq_fieldUnit hf, fieldUnit]) _)
    · exact agreeing_raise h

/-- R39: a command answers agreeing states to agreeing states. -/
theorem exec_agreeing {i : Instr} (h : Agree i s s') : Agreeing i (exec i s) (exec i s') := by
  have hr : readReg s' = readReg s := readReg_of_sameOutside h.1
  have hm : s'.mem = s.mem := mem_of_sameOutside h.1
  have hslot := h.2
  cases i with
  | nop => exact agreeing_complete h
  | lih rd imm16 => exact agreeing_complete (h.writeReg ..)
  | lil rd imm16 =>
    simp only [exec, execLil, hr]
    exact agreeing_complete (h.writeReg ..)
  | mov rd ra =>
    simp only [exec, execMov, hr]
    exact agreeing_complete (h.writeReg ..)
  | rdm rd ra =>
    simp only [exec, execRdm, memRead, hr, hm]
    exact agreeing_needAddr h <| agreeing_complete (h.writeReg ..)
  | wrm ra rb =>
    simp only [exec, execWrm, hr]
    exact agreeing_needAddr h <| agreeing_complete (h.memWrite ..)
  | rds sl rd un fld => exact agreeing_execRds h
  | wrs sl ra un fld => exact agreeing_execWrs h
  | bqinitlpf sl ra rb =>
    simp only [exec, execBqinitlpf, hr]
    exact agreeing_withSlot h (hslot _ _ rfl) fun _ => agreeing_complete (h.putBq rfl _)
  | bqinit sl ra rb rc ty =>
    simp only [exec, execBqinit, hr]
    exact agreeing_withSlot h (hslot _ _ rfl) fun _ => agreeing_complete (h.putBq rfl _)
  | bqupd sl ra rb rc ty =>
    simp only [exec, execBqupd, hr]
    exact agreeing_withSlot h (hslot _ _ rfl) fun _ => agreeing_needValid h <| agreeing_complete (h.putBq rfl _)
  | bqdf1 sl rd ra =>
    simp only [exec, execBqdf1, hr]
    exact agreeing_withSlot h (hslot _ _ rfl) fun _ => agreeing_needValid h <|
      agreeing_complete ((h.putBq rfl _).writeReg ..)
  | bqapply sl rd ra =>
    simp only [exec, execBqapply, hr]
    exact agreeing_withSlot h (hslot _ _ rfl) fun _ => agreeing_needValid h <|
      agreeing_complete ((h.putBq rfl _).writeReg ..)
  | notchq rd ra rb =>
    simp only [exec, execNotchq, hr]
    exact agreeing_complete (h.writeReg ..)
  | bqrcfir2 sl ra =>
    simp only [exec, execBqrcfir2, hr]
    exact agreeing_withSlot h (hslot _ _ rfl) fun _ => agreeing_complete (h.putBq rfl _)
  | casinit sl rd ra rb rc =>
    simp only [exec, execCasinit, hr]
    exact agreeing_withSlot h (hslot _ _ rfl) fun _ => agreeing_complete ((h.putCas rfl _).writeReg ..)
  | casapply sl rd ra =>
    simp only [exec, execCasapply, hr]
    exact agreeing_withSlot h (hslot _ _ rfl) fun _ => agreeing_needValid h <|
      agreeing_complete ((h.putCas rfl _).writeReg ..)
  | pt1gain rd ra rb =>
    simp only [exec, execPt1gain, hr]
    exact agreeing_complete (h.writeReg ..)
  | pt1init sl ra =>
    simp only [exec, execPt1init, hr]
    exact agreeing_withSlot h (hslot _ _ rfl) fun _ => agreeing_complete (h.putPt1 rfl _)
  | pt1apply sl rd ra =>
    simp only [exec, execPt1apply, hr]
    exact agreeing_withSlot h (hslot _ _ rfl) fun _ => agreeing_needValid h <|
      agreeing_complete ((h.putPt1 rfl _).writeReg ..)
  | firinit sl ra rb rc =>
    simp only [exec, execFirinit, hr]
    exact agreeing_withSlot h (hslot _ _ rfl) fun _ => agreeing_firInit rfl h ..
  | firinit2 sl ra rb rc re =>
    simp only [exec, execFirinit2, hr]
    exact agreeing_withSlot h (hslot _ _ rfl) fun _ => agreeing_firInit rfl h ..
  | firupd sl ra =>
    simp only [exec, execFirupd, hr]
    exact agreeing_withSlot h (hslot _ _ rfl) fun _ => agreeing_needValid h <|
      agreeing_complete ((h.memWrite ..).putFir rfl _)
  | firupdavg sl ra =>
    simp only [exec, execFirupdavg, memRead, hr, hm]
    exact agreeing_withSlot h (hslot _ _ rfl) fun _ => agreeing_needValid h <|
      agreeing_complete ((h.memWrite ..).putFir rfl _)
  | firapply sl rd =>
    simp only [exec, execFirapply, hm]
    exact agreeing_withSlot h (hslot _ _ rfl) fun _ => agreeing_needValid h <| agreeing_complete (h.writeReg ..)
  | firpavg sl rd ra =>
    simp only [exec, execFirpavg, hr, hm]
    exact agreeing_withSlot h (hslot _ _ rfl) fun _ => agreeing_needValid h <|
      agreeing_ite (agreeing_raise h) <| agreeing_complete (h.writeReg ..)
  | firmavg sl rd =>
    exact agreeing_withSlot h (hslot _ _ rfl) fun _ => agreeing_needValid h <| agreeing_complete (h.writeReg ..)
  | firupdapply sl rd ra =>
    simp only [exec, execFirupdapply, firUpdate, putFir_mem, memWrite_mem, hr, hm]
    exact agreeing_withSlot h (hslot _ _ rfl) fun _ => agreeing_needValid h <|
      agreeing_complete (((h.memWrite ..).putFir rfl _).writeReg ..)
  | firlast sl rd =>
    simp only [exec, execFirlast, memRead, hm]
    exact agreeing_withSlot h (hslot _ _ rfl) fun _ => agreeing_needValid h <| agreeing_complete (h.writeReg ..)
  | slewinit sl ra rb =>
    simp only [exec, execSlewinit, hr]
    exact agreeing_withSlot h (hslot _ _ rfl) fun _ => agreeing_complete (h.putSlew rfl _)
  | slewapply sl rd ra =>
    simp only [exec, execSlewapply, hr]
    exact agreeing_withSlot h (hslot _ _ rfl) fun _ => agreeing_needValid h <|
      agreeing_complete ((h.putSlew rfl _).writeReg ..)

end

/-- Settles O14: agreement of two states is kept by every command. -/
theorem slotIndependence : Obligations.SlotIndependence := by
  intro i s s' t t' ho hslot ht ht'
  have h : Agreeing i (exec i s) (exec i s') := exec_agreeing ⟨ho, hslot⟩
  rw [ht, ht'] at h
  obtain ⟨h⟩ := h
  exact h

end Sys2Proof.Machine
end

section
/-! # Everything a command can write, said once (10_state.md R22, R30 to R35, R39)

A command that completes stores to memory or to the slot it names (`Stored`), then writes `rd` if its row has one, then
advances `SEQ` (`Effect`). What it makes of a slot is one of the rewrites of the slot's unit (`BqWrite` and the others),
each under the commands that do it. The frames below are read off these relations and not off the commands. -/

namespace Sys2Proof.Machine

open Sys2Proof.Safety

/-! ## What becomes of a slot -/

/-- A biquad slot and what a command of row `op` makes of it (42_biquad.md R142 to R147). -/
inductive BqWrite : Op → BqSlot → BqSlot → Prop
  | init {op : Op} (h : op = .bqinitlpf ∨ op = .bqinit ∨ op = .bqrcfir2) (b : BqSlot) (k : Coefs) :
      BqWrite op b { valid := true, sec := freshSection k }
  | retune {b : BqSlot} (hv : b.valid = true) (k : Coefs) : BqWrite .bqupd b { b with sec := retune k b.sec }
  | df1 {b : BqSlot} (hv : b.valid = true) (x : F32) : BqWrite .bqdf1 b { b with sec := (df1 b.sec x).2 }
  | df2t {b : BqSlot} (hv : b.valid = true) (x : F32) : BqWrite .bqapply b { b with sec := (df2t b.sec x).2 }

/-- A cascade slot and what a command of row `op` makes of it (43_cascade.md R162, R163). -/
inductive CasWrite : Op → CasSlot → CasSlot → Prop
  | init (order : Word) (freq rate : F32) (c : CasSlot) : CasWrite .casinit c (casInitSlot order freq rate c)
  | apply {c : CasSlot} (hv : c.valid = true) (x : F32) : CasWrite .casapply c (casApply c x).2

/-- A PT1 slot and what a command of row `op` makes of it (44_pt1.md R172, R173; 41_base.md R127). -/
inductive Pt1Write : Op → Pt1Slot → Pt1Slot → Prop
  | init (p : Pt1Slot) (k : F32) : Pt1Write .pt1init p { valid := true, state := fZERO, k := k }
  | apply {p : Pt1Slot} (hv : p.valid = true) (x : F32) : Pt1Write .pt1apply p { p with state := pt1Next p x }
  | preset (p : Pt1Slot) (v : F32) : Pt1Write .wrs p { p with state := v }

/-- A FIR slot and what a command of row `op` makes of it, with the checks an init command has passed (45_fir.md R181 to
R185, R189). -/
inductive FirWrite (memWords : Nat) : Op → FirSlot → FirSlot → Prop
  | init {op : Op} (h : op = .firinit ∨ op = .firinit2) (f : FirSlot) {bb bl cb cl : Word} (hbl : bl ≠ 0)
      (hcl : cl.toNat ≤ bl.toNat) (hbuf : bb.toNat + bl.toNat ≤ memWords) (hcoef : cb.toNat + cl.toNat ≤ memWords) :
      FirWrite memWords op f (firInitSlot bb bl cb cl)
  | push {op : Op} (h : op = .firupd ∨ op = .firupdapply) {f : FirSlot} (hv : f.valid = true) :
      FirWrite memWords op f (firPushed f)
  | pushAvg {f : FirSlot} (hv : f.valid = true) (old x : F32) : FirWrite memWords .firupdavg f (firPushedAvg f old x)

/-- A slew slot and what a command of row `op` makes of it (46_slew.md R201, R202). -/
inductive SlewWrite : Op → SlewSlot → SlewSlot → Prop
  | init (c : SlewSlot) (limit threshold : F32) :
      SlewWrite .slewinit c { valid := true, state := fZERO, slewLimit := limit, threshold := threshold }
  | apply {c : SlewSlot} (hv : c.valid = true) (x : F32) : SlewWrite .slewapply c { c with state := slewOut c x }

/-! ## What becomes of the state -/

/-- `u` is `s` after the stores of a command `i` that completes: to no place, to a word of memory, or to the slot that the
"written by" columns let it write. The FIR commands store to memory too (20_memory.md R69). -/
inductive Stored (i : Instr) (s : State) : State → Prop
  | nothing : Stored i s s
  | word {a : Nat} (ha : a < s.memWords) (v : Word) : Stored i s (memWrite a v s)
  | bq {sl : SlotNo} {b c : BqSlot} (hn : writtenSlot i = some (.bq, sl)) (hb : s.bq[sl.toNat]? = some b)
      (hw : BqWrite (opOf i) b c) : Stored i s (putBq sl c s)
  | cas {sl : SlotNo} {b c : CasSlot} (hn : writtenSlot i = some (.cas, sl)) (hb : s.cas[sl.toNat]? = some b)
      (hw : CasWrite (opOf i) b c) : Stored i s (putCas sl c s)
  | pt1 {sl : SlotNo} {b c : Pt1Slot} (hn : writtenSlot i = some (.pt1, sl)) (hb : s.pt1[sl.toNat]? = some b)
      (hw : Pt1Write (opOf i) b c) : Stored i s (putPt1 sl c s)
  | slew {sl : SlotNo} {b c : SlewSlot} (hn : writtenSlot i = some (.slew, sl)) (hb : s.slew[sl.toNat]? = some b)
      (hw : SlewWrite (opOf i) b c) : Stored i s (putSlew sl c s)
  | firInit {sl : SlotNo} {f c : FirSlot} {base n : Nat} (hn : writtenSlot i = some (.fir, sl))
      (hf : s.fir[sl.toNat]? = some f) (hw : FirWrite s.memWords (opOf i) f c) (hm : base + n ≤ s.memWords) :
      Stored i s (putFir sl c (memZero base n s))
  | firPush {sl : SlotNo} {f c : FirSlot} (hn : writtenSlot i = some (.fir, sl)) (hf : s.fir[sl.toNat]? = some f)
      (hw : FirWrite s.memWords (opOf i) f c) (hv : f.valid = true) (x : Word) :
      Stored i s (putFir sl c (memWrite (bufAddr f f.index.toNat) x s))

/-- `t` is the state a command `i` answers from `s`: faulted with nothing stored, or completed, with the result in `rd`. -/
inductive Effect (i : Instr) (s : State) : State → Prop
  | faulted {t : State} (h : Faulted i s t) : Effect i s t
  | quiet {u : State} (h : Stored i s u) : Effect i s (advance u)
  | result {u : State} {rd : Reg} {v : Word} (h : Stored i s u) (hd : destReg i = some rd) :
      Effect i s (advance (writeReg rd v u))

/-- What every command can do: an inversion of `exec` for all 31 commands. -/
theorem exec_effect {i : Instr} {s t : State} (h : exec i s = .next t) : Effect i s t := by
  cases i with
  | nop =>
    rw [exec_nop_cases h]
    exact .quiet .nothing
  | lih rd imm16 =>
    rw [exec_lih_cases h]
    exact .result .nothing rfl
  | lil rd imm16 =>
    rw [exec_lil_cases h]
    exact .result .nothing rfl
  | mov rd ra =>
    rw [exec_mov_cases h]
    exact .result .nothing rfl
  | rdm rd ra =>
    obtain hf | ⟨-, rfl⟩ := exec_rdm_cases h
    · exact .faulted hf
    · exact .result .nothing rfl
  | wrm ra rb =>
    obtain hf | ⟨ha, rfl⟩ := exec_wrm_cases h
    · exact .faulted hf
    · exact .quiet (.word ha _)
  | rds sl rd un fld =>
    obtain hf | ⟨f, v, -, -, rfl⟩ := exec_rds_cases h
    · exact .faulted hf
    · exact .result .nothing rfl
  | wrs sl ra un fld =>
    obtain hf | ⟨p, -, hp, rfl⟩ := exec_wrs_cases h
    · exact .faulted hf
    · exact .quiet (.pt1 rfl hp (.preset p _))
  | bqinitlpf sl ra rb =>
    obtain hf | ⟨b, hb, rfl⟩ := exec_bqinitlpf_cases h
    · exact .faulted hf
    · exact .quiet (.bq rfl hb (.init (.inl rfl) b _))
  | bqinit sl ra rb rc ty =>
    obtain hf | ⟨b, hb, rfl⟩ := exec_bqinit_cases h
    · exact .faulted hf
    · exact .quiet (.bq rfl hb (.init (.inr (.inl rfl)) b _))
  | bqupd sl ra rb rc ty =>
    obtain hf | ⟨b, hb, hv, rfl⟩ := exec_bqupd_cases h
    · exact .faulted hf
    · exact .quiet (.bq rfl hb (.retune hv _))
  | bqdf1 sl rd ra =>
    obtain hf | ⟨b, hb, hv, rfl⟩ := exec_bqdf1_cases h
    · exact .faulted hf
    · exact .result (.bq rfl hb (.df1 hv _)) rfl
  | bqapply sl rd ra =>
    obtain hf | ⟨b, hb, hv, rfl⟩ := exec_bqapply_cases h
    · exact .faulted hf
    · exact .result (.bq rfl hb (.df2t hv _)) rfl
  | notchq rd ra rb =>
    rw [exec_notchq_cases h]
    exact .result .nothing rfl
  | bqrcfir2 sl ra =>
    obtain hf | ⟨b, hb, rfl⟩ := exec_bqrcfir2_cases h
    · exact .faulted hf
    · exact .quiet (.bq rfl hb (.init (.inr (.inr rfl)) b _))
  | casinit sl rd ra rb rc =>
    obtain hf | ⟨b, hb, rfl⟩ := exec_casinit_cases h
    · exact .faulted hf
    · exact .result (.cas rfl hb (.init _ _ _ b)) rfl
  | casapply sl rd ra =>
    obtain hf | ⟨b, hb, hv, rfl⟩ := exec_casapply_cases h
    · exact .faulted hf
    · exact .result (.cas rfl hb (.apply hv _)) rfl
  | pt1gain rd ra rb =>
    rw [exec_pt1gain_cases h]
    exact .result .nothing rfl
  | pt1init sl ra =>
    obtain hf | ⟨b, hb, rfl⟩ := exec_pt1init_cases h
    · exact .faulted hf
    · exact .quiet (.pt1 rfl hb (.init b _))
  | pt1apply sl rd ra =>
    obtain hf | ⟨b, hb, hv, rfl⟩ := exec_pt1apply_cases h
    · exact .faulted hf
    · exact .result (.pt1 rfl hb (.apply hv _)) rfl
  | firinit sl ra rb rc =>
    obtain hf | ⟨⟨f, hf⟩, hbl, hcl, hbuf, hcoef, rfl⟩ := exec_firinit_cases h
    · exact .faulted hf
    · exact .quiet (.firInit rfl hf (.init (.inl rfl) f hbl hcl hbuf hcoef) hbuf)
  | firinit2 sl ra rb rc re =>
    obtain hf | ⟨⟨f, hf⟩, hbl, hcl, hbuf, hcoef, rfl⟩ := exec_firinit2_cases h
    · exact .faulted hf
    · exact .quiet (.firInit rfl hf (.init (.inr rfl) f hbl hcl hbuf hcoef) hbuf)
  | firupd sl ra =>
    obtain hf | ⟨f, hf, hv, rfl⟩ := exec_firupd_cases h
    · exact .faulted hf
    · exact .quiet (.firPush rfl hf (.push (.inl rfl) hv) hv _)
  | firupdavg sl ra =>
    obtain hf | ⟨f, hf, hv, rfl⟩ := exec_firupdavg_cases h
    · exact .faulted hf
    · exact .quiet (.firPush rfl hf (.pushAvg hv _ _) hv _)
  | firapply sl rd =>
    obtain hf | ⟨f, -, -, rfl⟩ := exec_firapply_cases h
    · exact .faulted hf
    · exact .result .nothing rfl
  | firpavg sl rd ra =>
    obtain hf | ⟨f, -, -, -, rfl⟩ := exec_firpavg_cases h
    · exact .faulted hf
    · exact .result .nothing rfl
  | firmavg sl rd =>
    obtain hf | ⟨f, -, -, rfl⟩ := exec_firmavg_cases h
    · exact .faulted hf
    · exact .result .nothing rfl
  | firupdapply sl rd ra =>
    obtain hf | ⟨f, hf, hv, rfl⟩ := exec_firupdapply_cases h
    · exact .faulted hf
    · exact .result (.firPush rfl hf (.push (.inr rfl) hv) hv _) rfl
  | firlast sl rd =>
    obtain hf | ⟨f, -, -, rfl⟩ := exec_firlast_cases h
    · exact .faulted hf
    · exact .result .nothing rfl
  | slewinit sl ra rb =>
    obtain hf | ⟨b, hb, rfl⟩ := exec_slewinit_cases h
    · exact .faulted hf
    · exact .quiet (.slew rfl hb (.init b _ _))
  | slewapply sl rd ra =>
    obtain hf | ⟨b, hb, hv, rfl⟩ := exec_slewapply_cases h
    · exact .faulted hf
    · exact .result (.slew rfl hb (.apply hv _)) rfl

/-- The part of a state that a command's stores go to, with the parameters: all that the register write, `SEQ` and a fault
leave alone. -/
def SameStore (u t : State) : Prop :=
  t.bq = u.bq ∧ t.cas = u.cas ∧ t.pt1 = u.pt1 ∧ t.fir = u.fir ∧ t.slew = u.slew ∧ t.mem = u.mem ∧
  configOf t = configOf u

/-- Slots, memory and parameters after a command are those after its stores. -/
theorem Effect.stored {i : Instr} {s t : State} (h : Effect i s t) : ∃ u, Stored i s u ∧ SameStore u t := by
  cases h with
  | faulted hf =>
    obtain ⟨c, info, rfl⟩ := hf
    exact ⟨s, .nothing, by simp [SameStore]⟩
  | quiet hu => exact ⟨_, hu, by simp [SameStore]⟩
  | result hu => exact ⟨_, hu, by simp [SameStore]⟩

/-! ## The register frame (R22) -/

theorem Stored.readReg {i : Instr} {s u : State} (h : Stored i s u) (r : Reg) : readReg u r = readReg s r := by
  cases h <;> rfl

/-- Settles O12: the one register write of a command goes to its `rd`. -/
theorem registerFrame : Obligations.RegisterFrame := by
  intro i s t h r hr
  cases exec_effect h with
  | faulted hf =>
    obtain ⟨c, info, rfl⟩ := hf
    exact readReg_takeFault ..
  | quiet hu => exact hu.readReg r
  | result hu hd =>
    have hne : r ≠ _ := fun e => hr (hd.trans (congrArg some e.symm))
    rw [readReg_advance, readReg_writeReg_other hne, hu.readReg r]

/-! ## The slot frame (R39) -/

theorem Stored.configOf {i : Instr} {s u : State} (h : Stored i s u) : configOf u = configOf s := by
  cases h <;> simp

/-- A store goes to no slot but one the command writes. -/
theorem Stored.sameSlot {i : Instr} {s u : State} (h : Stored i s u) {v : UnitName} {n : Nat}
    (hn : ¬WritesSlot i v n) : SameSlot s u v n := by
  have hne : ∀ sl, writtenSlot i = some (v, sl) → sl.toNat ≠ n := fun sl hw he => hn ⟨sl, hw, he⟩
  cases h with
  | nothing | word => cases v <;> rfl
  | bq hw =>
    cases v
    case bq => exact List.getElem?_set_ne (hne _ hw)
    all_goals rfl
  | cas hw =>
    cases v
    case cas => exact List.getElem?_set_ne (hne _ hw)
    all_goals rfl
  | pt1 hw =>
    cases v
    case pt1 => exact List.getElem?_set_ne (hne _ hw)
    all_goals rfl
  | slew hw =>
    cases v
    case slew => exact List.getElem?_set_ne (hne _ hw)
    all_goals rfl
  | firInit hw | firPush hw =>
    cases v
    case fir => exact List.getElem?_set_ne (hne _ hw)
    all_goals rfl

theorem SameStore.sameSlot {s u t : State} (h : SameStore u t) {v : UnitName} {n : Nat} (hs : SameSlot s u v n) :
    SameSlot s t v n := by
  obtain ⟨hbq, hcas, hpt1, hfir, hslew, -⟩ := h
  cases v <;> simpa only [SameSlot, *] using hs

/-- Settles O13: the stores of a command go to the slot it writes, and nothing else of a command goes to slots. -/
theorem slotFrame : Obligations.SlotFrame := by
  intro i s t h
  obtain ⟨u, hu, ht⟩ := (exec_effect h).stored
  refine ⟨fun v n hn => ht.sameSlot (hu.sameSlot hn), ?_⟩
  obtain ⟨-, -, -, -, -, -, hcfg⟩ := ht
  rw [hcfg, hu.configOf]

/-! ## What becomes of the slot lists -/

/-- Every place of a list holds what it held, or what `R` makes of it. -/
def Rewritten {α : Type} (R : α → α → Prop) (l l' : List α) : Prop :=
  ∀ n : Nat, l'[n]? = l[n]? ∨ ∃ b c, l[n]? = some b ∧ l'[n]? = some c ∧ R b c

section

variable {α : Type} {R : α → α → Prop} {l l' : List α}

theorem Rewritten.refl : Rewritten R l l := fun _ => .inl rfl

theorem Rewritten.set {k : Nat} {b c : α} (hb : l[k]? = some b) (h : R b c) : Rewritten R l (l.set k c) := by
  intro n
  by_cases hn : k = n
  · subst hn
    exact .inr ⟨b, c, hb, by simp [List.getElem?_set_self', hb], h⟩
  · exact .inl (List.getElem?_set_ne hn)

/-- One place before and after. -/
theorem Rewritten.getElem? (h : Rewritten R l l') {n : Nat} {c d : α} (hc : l[n]? = some c) (hd : l'[n]? = some d) :
    c = d ∨ R c d := by
  obtain he | ⟨b, e, hb, he, hR⟩ := h n
  · exact .inl (Option.some.inj (hc.symm.trans (he.symm.trans hd)))
  · cases hb.symm.trans hc
    cases he.symm.trans hd
    exact .inr hR

/-- What `R` keeps, a place keeps. -/
theorem Rewritten.exists_keeps (h : Rewritten R l l') {P : α → Prop} (hR : ∀ {b c}, R b c → P b → P c) (n : Nat)
    (hP : ∃ c, l[n]? = some c ∧ P c) : ∃ c, l'[n]? = some c ∧ P c := by
  obtain ⟨b, hb, hPb⟩ := hP
  obtain he | ⟨b', c, hb', hc, hbc⟩ := h n
  · exact ⟨b, he.trans hb, hPb⟩
  · cases hb'.symm.trans hb
    exact ⟨c, hc, hR hbc hPb⟩

end

/-- The five slot lists of `t` are those of `s`, rewritten by the command `i`. -/
structure SlotsRewritten (i : Instr) (s t : State) : Prop where
  bq   : Rewritten (BqWrite (opOf i)) s.bq t.bq
  cas  : Rewritten (CasWrite (opOf i)) s.cas t.cas
  pt1  : Rewritten (Pt1Write (opOf i)) s.pt1 t.pt1
  fir  : Rewritten (FirWrite s.memWords (opOf i)) s.fir t.fir
  slew : Rewritten (SlewWrite (opOf i)) s.slew t.slew

theorem SlotsRewritten.refl (i : Instr) (s : State) : SlotsRewritten i s s :=
  ⟨.refl, .refl, .refl, .refl, .refl⟩

theorem Stored.slotsRewritten {i : Instr} {s u : State} (h : Stored i s u) : SlotsRewritten i s u := by
  have hs : SlotsRewritten i s s := .refl i s
  cases h with
  | nothing | word => exact { hs with }
  | bq hn hb hw => exact { hs with bq := .set hb hw }
  | cas hn hb hw => exact { hs with cas := .set hb hw }
  | pt1 hn hb hw => exact { hs with pt1 := .set hb hw }
  | slew hn hb hw => exact { hs with slew := .set hb hw }
  | firInit hn hf hw | firPush hn hf hw => exact { hs with fir := .set hf hw }

theorem exec_slotsRewritten {i : Instr} {s t : State} (h : exec i s = .next t) : SlotsRewritten i s t := by
  obtain ⟨u, hu, hbq, hcas, hpt1, hfir, hslew, -⟩ := (exec_effect h).stored
  obtain ⟨rbq, rcas, rpt1, rfir, rslew⟩ := hu.slotsRewritten
  exact ⟨hbq ▸ rbq, hcas ▸ rcas, hpt1 ▸ rpt1, hfir ▸ rfir, hslew ▸ rslew⟩

/-! ## Valid slots stay valid (R30) -/

theorem BqWrite.valid {op : Op} {b c : BqSlot} (h : BqWrite op b c) : c.valid = true := by
  cases h with
  | init => rfl
  | retune hv | df1 hv | df2t hv => exact hv

theorem casInitSlot_valid (order : Word) (freq rate : F32) (c : CasSlot) :
    (casInitSlot order freq rate c).valid = true := by
  unfold casInitSlot
  split <;> rfl

theorem CasWrite.valid {op : Op} {b c : CasSlot} (h : CasWrite op b c) : c.valid = true := by
  cases h with
  | init => exact casInitSlot_valid ..
  | apply hv => exact hv

/-- `WRS` may write an invalid slot, and keeps it so. -/
theorem Pt1Write.valid {op : Op} {b c : Pt1Slot} (h : Pt1Write op b c) (hb : b.valid = true) : c.valid = true := by
  cases h with
  | init => rfl
  | apply | preset => exact hb

theorem FirWrite.valid {k : Nat} {op : Op} {b c : FirSlot} (h : FirWrite k op b c) : c.valid = true := by
  cases h with
  | init => rfl
  | push _ hv | pushAvg hv => exact hv

theorem SlewWrite.valid {op : Op} {b c : SlewSlot} (h : SlewWrite op b c) : c.valid = true := by
  cases h with
  | init => rfl
  | apply hv => exact hv

/-- Settles O17: every rewrite of a slot gives a valid slot, or keeps `valid`. -/
theorem validNeverCleared : Obligations.ValidNeverCleared := by
  intro i s t h n
  obtain ⟨hbq, hcas, hpt1, hfir, hslew⟩ := exec_slotsRewritten h
  exact ⟨hbq.exists_keeps (fun hw _ => hw.valid) n, hcas.exists_keeps (fun hw _ => hw.valid) n,
    hpt1.exists_keeps (fun hw => hw.valid) n, hfir.exists_keeps (fun hw _ => hw.valid) n,
    hslew.exists_keeps (fun hw _ => hw.valid) n⟩

/-! ## The writers of each field (R31 to R35) -/

/-- The section `S` after some samples of the DF2T recurrence: only its two state variables differ (42_biquad.md R147). -/
def SameButDelays (S S' : Section) : Prop := S' = { S with x1 := S'.x1, x2 := S'.x2 }

/-- Whatever `sections` holds, the loop of `CASAPPLY` changes only the state variables of a section. -/
theorem casLoop_sameButDelays (n i : Nat) (secs : Vector Section 6) (x : F32) (j : Fin 6) :
    SameButDelays secs[j] (casLoop n i secs x).2[j] := by
  induction n generalizing i secs x with
  | zero => rfl
  | succ n ih =>
    unfold casLoop
    split
    · next hi =>
      have hrest := ih (i + 1) (secs.set i (df2t secs[i] x).2) (df2t secs[i] x).1
      by_cases hj : i = j.val
      · subst hj
        simp only [Fin.getElem_fin, Vector.getElem_set_self] at hrest ⊢
        exact hrest
      · simp only [Fin.getElem_fin, Vector.getElem_set_ne _ _ hj] at hrest ⊢
        exact hrest
    · rfl

/-- `CASAPPLY` leaves the sections from `sections` on alone; all six are below it where it is above 6. -/
theorem casApply_sec_above {c : CasSlot} {j : Fin 6} (hj : c.sections.toNat ≤ j.val) (x : F32) :
    (casApply c x).2.sec[j] = c.sec[j] := by
  obtain ⟨-, -, -, -, hrest⟩ := casLoop_spec c.sections.toNat 0 c.sec x (by omega)
  exact hrest j (.inr (by omega))

theorem qtab_length_le (order : Nat) : (qtab order).length ≤ order / 2 := by
  unfold qtab
  split <;> simp

/-- `CASINIT` leaves the sections from the new `sections` on alone. -/
theorem casInitSlot_sec_above {order : Word} {freq rate : F32} {c : CasSlot} {j : Fin 6}
    (hj : (casInitSlot order freq rate c).sections.toNat ≤ j.val) :
    (casInitSlot order freq rate c).sec[j] = c.sec[j] := by
  unfold casInitSlot at hj ⊢
  split
  · rfl
  · next hv =>
    have hlen := qtab_length_le order.toNat
    simp only [hv, if_false, Bool.false_eq_true, BitVec.toNat_ofNat] at hj
    have hnone : (qtab order.toNat)[j.val]? = none := List.getElem?_eq_none (by omega)
    simp [casSections, hnone]

/-- A cascade command leaves the sections from `sections` on alone. -/
theorem CasWrite.sec_above {op : Op} {c d : CasSlot} (h : CasWrite op c d) {j : Fin 6}
    (hj : d.sections.toNat ≤ j.val) : d.sec[j] = c.sec[j] := by
  cases h with
  | init => exact casInitSlot_sec_above hj
  | apply => exact casApply_sec_above (c := c) hj _

/-- Settles O18: each rewrite of a slot, under its own commands, changes the fields it names. -/
theorem fieldWriters : Obligations.FieldWriters := by
  intro i s t h n
  obtain ⟨hbq, hcas, hpt1, hfir, hslew⟩ := exec_slotsRewritten h
  generalize opOf i = op at *
  refine ⟨fun c d hc hd => ?_, fun c d hc hd => ?_, fun c d hc hd => ?_, fun c d hc hd => ?_, fun c d hc hd => ?_⟩
  · obtain rfl | hw := hbq.getElem? hc hd
    · simp
    · cases hw with
      | init hop =>
        obtain rfl | rfl | rfl := hop <;> simp
      | retune => simp [retune]
      | df1 => simp [df1]
      | df2t => simp [df2t]
  · obtain rfl | hw := hcas.getElem? hc hd
    · simp
    · have habove (j : Fin 6) (hx : (c.sec[j].x1, c.sec[j].x2) ≠ (d.sec[j].x1, d.sec[j].x2)) :
          j.val < d.sections.toNat := by
        by_contra hj
        exact hx (by rw [hw.sec_above (Nat.not_lt.1 hj)])
      cases hw with
      | init => simpa using habove
      | apply hv x =>
        refine ⟨fun hne => absurd rfl hne, fun j hne => absurd ?_ hne, fun j hx => ⟨.inr rfl, habove j hx⟩⟩
        have hsec : SameButDelays c.sec[j] (casApply c x).2.sec[j] := casLoop_sameButDelays ..
        rw [hsec]
  · obtain rfl | hw := hpt1.getElem? hc hd
    · simp
    · cases hw <;> simp
  · obtain rfl | hw := hfir.getElem? hc hd
    · simp
    · cases hw with
      | init hop => obtain rfl | rfl := hop <;> simp
      | push hop => obtain rfl | rfl := hop <;> simp [firPushed]
      | pushAvg => simp [firPushedAvg, firPushed]
  · obtain rfl | hw := hslew.getElem? hc hd
    · simp
    · cases hw <;> simp

end Sys2Proof.Machine
end

section
/-! # The invariant (10_state.md R37, R38; 45_fir.md R180; 60_exceptions.md R213)

Each part of `Inv` has its own lemma: what a rewrite makes of a slot is in its ranges, a store stays inside memory, a
fault leaves the fault registers consistent. A command keeps the invariant by these together, and then a step does. -/

namespace Sys2Proof.Machine

open Sys2Proof.Safety

/-! ## Slots -/

theorem BqWrite.ok {op : Op} {b c : BqSlot} (h : BqWrite op b c) : BqOk c :=
  fun hv => absurd h.valid (by simp [hv])

theorem SlewWrite.ok {op : Op} {b c : SlewSlot} (h : SlewWrite op b c) : SlewOk c :=
  fun hv => absurd h.valid (by simp [hv])

theorem Pt1Write.ok {op : Op} {b c : Pt1Slot} (h : Pt1Write op b c) (hb : Pt1Ok b) : Pt1Ok c := by
  cases h with
  | init => exact fun hv => absurd hv (by simp)
  | apply | preset => exact hb

theorem casInitSlot_sections_le (order : Word) (freq rate : F32) (c : CasSlot) :
    (casInitSlot order freq rate c).sections.toNat ≤ 6 := by
  unfold casInitSlot
  split
  · exact Nat.zero_le 6
  · next hv =>
    simp only [orderInvalid, Bool.or_eq_true, decide_eq_true_eq, not_or, Nat.not_lt] at hv
    simp only [BitVec.toNat_ofNat]
    omega

/-- A section after `CASINIT` is a fresh one or the old one. -/
theorem casInitSlot_sec (order : Word) (freq rate : F32) (c : CasSlot) (j : Fin 6) :
    (∃ k, (casInitSlot order freq rate c).sec[j] = freshSection k) ∨
      (casInitSlot order freq rate c).sec[j] = c.sec[j] := by
  unfold casInitSlot
  split
  · exact .inr rfl
  · simp only [casSections, Fin.getElem_fin, Vector.getElem_ofFn]
    split
    · exact .inl ⟨_, rfl⟩
    · exact .inr rfl

theorem CasWrite.ok {op : Op} {b c : CasSlot} (h : CasWrite op b c) (hb : CasOk b) : CasOk c := by
  obtain ⟨hsections, hy, -⟩ := hb
  have hvalid : c.valid = false → c = CasSlot.zero := fun hv => absurd h.valid (by simp [hv])
  cases h with
  | init =>
    refine ⟨casInitSlot_sections_le .., fun j => ?_, hvalid⟩
    obtain ⟨k, hk⟩ | hold := casInitSlot_sec _ _ _ b j
    · rw [hk]
      exact ⟨rfl, rfl⟩
    · rw [hold]
      exact hy j
  | apply hv x =>
    refine ⟨hsections, fun j => ?_, hvalid⟩
    have hsec : SameButDelays b.sec[j] (casApply b x).2.sec[j] := casLoop_sameButDelays ..
    rw [hsec]
    exact hy j

/-- Stepping `index` stays inside the buffer (45_fir.md R180). -/
theorem firNext_lt {len : Nat} (h : 0 < len) (i : Nat) : firNext len i < len := by
  unfold firNext
  split <;> assumption

/-- A sample written to a slot in its ranges leaves it there, whatever the moving sum. -/
theorem firOk_pushed {k : Nat} {f : FirSlot} (hf : FirOk k f) (hv : f.valid = true) (sum : F32) :
    FirOk k { firPushed f with movingSum := sum } := by
  obtain ⟨hlen, hcoeffs, -, -, hbuf, hcoef⟩ := hf.2 hv
  have hword : f.bufLength.toNat < 2 ^ 32 := f.bufLength.isLt
  refine ⟨fun hv' => absurd (hv.symm.trans hv') (by simp), fun _ => ⟨hlen, hcoeffs, ?_, ?_, hbuf, hcoef⟩⟩
  · calc (BitVec.ofNat 32 (firNext f.bufLength.toNat f.index.toNat)).toNat
        ≤ firNext f.bufLength.toNat f.index.toNat := by rw [BitVec.toNat_ofNat]; exact Nat.mod_le ..
      _ < f.bufLength.toNat := firNext_lt hlen _
  · calc (BitVec.ofNat 32 (min (f.count.toNat + 1) f.bufLength.toNat)).toNat
        ≤ min (f.count.toNat + 1) f.bufLength.toNat := by rw [BitVec.toNat_ofNat]; exact Nat.mod_le ..
      _ ≤ f.bufLength.toNat := Nat.min_le_right ..

theorem FirWrite.ok {k : Nat} {op : Op} {b c : FirSlot} (h : FirWrite k op b c) (hb : FirOk k b) : FirOk k c := by
  cases h with
  | init _ _ hbl hcl hbuf hcoef =>
    have hlen := Nat.pos_of_ne_zero (BitVec.toNat_ne.1 hbl)
    exact ⟨fun hv => absurd hv (by simp [firInitSlot]), fun _ => ⟨hlen, hcl, hlen, Nat.zero_le _, hbuf, hcoef⟩⟩
  | push _ hv => exact firOk_pushed hb hv _
  | pushAvg hv => exact firOk_pushed hb hv _

/-- What `R` keeps of an element, a rewritten list keeps of all of them. -/
theorem Rewritten.forall_mem {α : Type} {R : α → α → Prop} {l l' : List α} (h : Rewritten R l l') {P : α → Prop}
    (hR : ∀ {b c}, R b c → P b → P c) (hP : ∀ b ∈ l, P b) : ∀ c ∈ l', P c := by
  intro c hc
  obtain ⟨n, hn⟩ := List.mem_iff_getElem?.1 hc
  obtain he | ⟨b, c', hb, hc', hbc⟩ := h n
  · exact hP c (List.mem_of_getElem? (he.symm.trans hn))
  · cases hc'.symm.trans hn
    exact hR hbc (hP b (List.mem_of_getElem? hb))

/-! ## Memory -/

/-- Memory is in its canonical form and inside `MEM_WORDS`. -/
def MemOk (memWords : Nat) (m : Memory) : Prop := Memory.wf m = true ∧ Memory.inRange memWords m = true

theorem MemOk.write {k : Nat} {m : Memory} (h : MemOk k m) {a : Nat} (ha : a < k) (v : Word) :
    MemOk k (Memory.write m a v) := ⟨Memory.wf_write h.1 a v, Memory.inRange_write h.2 ha v⟩

theorem MemOk.zero {k : Nat} {m : Memory} (h : MemOk k m) {base n : Nat} (hn : base + n ≤ k) :
    MemOk k (Memory.zero m base n) := ⟨Memory.wf_zero h.1 base n, Memory.inRange_zero h.2 hn⟩

/-- The place for the next sample of a slot in its ranges is inside memory (20_memory.md R66). -/
theorem bufAddr_index_lt {k : Nat} {f : FirSlot} (hf : FirOk k f) (hv : f.valid = true) :
    bufAddr f f.index.toNat < k := by
  obtain ⟨-, -, hindex, -, hbuf, -⟩ := hf.2 hv
  unfold bufAddr
  omega

theorem Stored.memOk {i : Instr} {s u : State} (h : Stored i s u) (hm : MemOk s.memWords s.mem)
    (hfir : ∀ f ∈ s.fir, FirOk s.memWords f) : MemOk s.memWords u.mem := by
  cases h with
  | nothing | bq | cas | pt1 | slew => exact hm
  | word ha => exact hm.write ha _
  | firInit _ _ _ hn => exact hm.zero hn
  | firPush _ hf _ hv => exact hm.write (bufAddr_index_lt (hfir _ (List.mem_of_getElem? hf)) hv) _

/-! ## Fault registers -/

/-- The fault registers of a running sequencer are zero. -/
theorem faultRegs_of_running {s : State} (h : FaultRegsOk s) (hf : faultBit s.status = false) :
    s.status = 0 ∧ s.cause = 0 ∧ s.fseq = 0 ∧ s.finst = 0 ∧ s.finfo = 0 := by
  obtain h | ⟨hstatus, -⟩ := h
  · exact h
  · rw [hstatus] at hf
    cases hf

theorem faultRegsOk_takeFault {s : State} (h : s.status = 0) (c : Cause) (w info : Word) :
    FaultRegsOk (takeFault c w info s) :=
  .inr ⟨by simp [h, setFaultBit], ⟨c, rfl⟩, rfl, rfl⟩

theorem exec_faultRegsOk {i : Instr} {s t : State} (h : FaultRegsOk s) (hf : faultBit s.status = false)
    (ht : exec i s = .next t) : FaultRegsOk t := by
  have hzero := faultRegs_of_running h hf
  obtain ⟨t', ht', hcases⟩ := exec_settles i s
  cases ht'.symm.trans ht
  obtain hc | ⟨c, info, rfl⟩ := hcases
  · obtain ⟨-, ⟨hstatus, hcause, hfseq, hfinst, hfinfo⟩, -⟩ := hc.control
    exact .inl (by rwa [hstatus, hcause, hfseq, hfinst, hfinfo])
  · exact faultRegsOk_takeFault hzero.1 ..

/-! ## Commands and steps -/

/-- A running sequencer's queue may hold anything. -/
theorem inv_withQueue {s : State} (h : Inv s) (hf : faultBit s.status = false) (q : List Word) :
    Inv { s with cmdq := q } := by
  have hzero := faultRegs_of_running h.fault hf
  exact { h with fault := .inl hzero }

theorem inv_takeFault {s : State} (h : Inv s) (hf : faultBit s.status = false) (c : Cause) (w info : Word) :
    Inv (takeFault c w info s) :=
  { h with fault := faultRegsOk_takeFault (faultRegs_of_running h.fault hf).1 .. }

theorem exec_keeps_inv {i : Instr} {s t : State} (h : Inv s) (hf : faultBit s.status = false)
    (ht : exec i s = .next t) : Inv t := by
  have hslots := exec_slotsRewritten ht
  obtain ⟨u, hu, -, -, -, -, -, hmem, hcfg⟩ := (exec_effect ht).stored
  have hcfg : configOf t = configOf s := hcfg.trans hu.configOf
  have hwords : t.memWords = s.memWords := congrArg Config.memWords hcfg
  have hm : MemOk t.memWords t.mem := by
    rw [hwords, hmem]
    exact hu.memOk ⟨h.memWf, h.memIn⟩ h.fir
  exact {
    config := hcfg ▸ h.config
    bq := hslots.bq.forall_mem (fun hw _ => hw.ok) h.bq
    cas := hslots.cas.forall_mem CasWrite.ok h.cas
    pt1 := hslots.pt1.forall_mem Pt1Write.ok h.pt1
    fir := hwords ▸ hslots.fir.forall_mem FirWrite.ok h.fir
    slew := hslots.slew.forall_mem (fun hw _ => hw.ok) h.slew
    fault := exec_faultRegsOk h.fault hf ht
    memWf := hm.1
    memIn := hm.2 }

/-- The state a fault outcome carries is the one the command answered. -/
theorem eq_of_stepOutcome_faulted {i : Instr} {s t : State} (h : stepOutcome (exec i s) = .fault (.faulted t)) :
    exec i s = .next t := by
  obtain ⟨t', ht', -⟩ := exec_settles i s
  rw [ht'] at h ⊢
  cases hf : faultBit t'.status with
  | false => rw [stepOutcome_next_of_running hf] at h; cases h
  | true => rw [stepOutcome_next_of_faulted hf] at h; cases h; rfl

/-- Settles O20: waiting and answering a fault again change nothing, a fault of an illegal word touches the fault registers
alone, and a command keeps the invariant. -/
theorem stepKeepsInv : Obligations.StepKeepsInv := by
  intro s t hs
  constructor
  · intro h
    obtain ⟨hf, -, ⟨-, rfl⟩ | ⟨w, rest, i, -, -, ht⟩⟩ := step_cases h
    · exact hs
    · exact exec_keeps_inv (inv_withQueue hs hf rest) hf ht
  · intro h
    obtain ⟨-, rfl⟩ | ⟨hf, w, rest, -, ⟨e, -, rfl⟩ | ⟨i, -, ht⟩⟩ := step_fault_cases h
    · exact hs
    · exact inv_takeFault (inv_withQueue hs hf rest) hf ..
    · exact exec_keeps_inv (inv_withQueue hs hf rest) hf (eq_of_stepOutcome_faulted ht)

/-! ## Reset and the host -/

theorem casOk_zero : CasOk CasSlot.zero := by
  refine ⟨Nat.zero_le _, fun j => ?_, fun _ => rfl⟩
  simp [CasSlot.zero, Section.zero]

/-- The reset state of a legal configuration, on any memory in its canonical form and inside it. -/
theorem inv_resetWith {c : Config} (hc : c.Legal) {m : Memory} (hm : MemOk c.memWords m) :
    Inv { State.resetWith c with mem := m } where
  config := by simpa [configOf, State.resetWith] using hc
  bq b hb := List.eq_of_mem_replicate hb ▸ fun _ => rfl
  cas b hb := List.eq_of_mem_replicate hb ▸ casOk_zero
  pt1 b hb := List.eq_of_mem_replicate hb ▸ fun _ => rfl
  fir b hb := List.eq_of_mem_replicate hb ▸ ⟨fun _ => rfl, fun hv => by cases hv⟩
  slew b hb := List.eq_of_mem_replicate hb ▸ fun _ => rfl
  fault := .inl ⟨rfl, rfl, rfl, rfl, rfl⟩
  memWf := hm.1
  memIn := hm.2

/-- Settles O19: no word is written at reset. -/
theorem resetInv : Obligations.ResetInv :=
  ⟨fun _ hc => inv_resetWith hc ⟨rfl, rfl⟩, inv_resetWith (c := Config.reference) (by decide) ⟨rfl, rfl⟩⟩

theorem Memory.lt_of_written {k a : Nat} {v : Word} {m : Memory} (h : Memory.inRange k m = true)
    (hw : Memory.written m a = some v) : a < k := by
  induction m with
  | nil => cases hw
  | cons c m ih =>
    simp only [Memory.inRange, List.all_cons, Bool.and_eq_true, decide_eq_true_eq] at h
    unfold Memory.written at hw
    split at hw
    · next ha => exact ha ▸ h.1
    · exact ih h.2 hw

theorem send_keeps_inv {s t : State} {w : Word} (h : Inv s) (ht : send w s = some t) : Inv t := by
  unfold send at ht
  split at ht
  · cases ht
  · split at ht <;> cases ht
    · exact h
    · next hf => exact inv_withQueue h (by simpa [faultLine] using hf) _

theorem step_memWords {s t : State} (h : step s = .next t) : t.memWords = s.memWords := by
  obtain ⟨-, -, ⟨-, rfl⟩ | ⟨w, rest, i, -, -, ht⟩⟩ := step_cases h
  · rfl
  · exact congrArg Config.memWords (slotFrame i _ t ht).2

/-- Each word that landed is one the step wrote, so it lies inside memory. -/
theorem hostResetDuring_keeps_inv {s : State} (h : Inv s) (landed : List Nat) : Inv (hostResetDuring landed s) := by
  refine inv_resetWith h.config (List.foldlRecOn landed _ ⟨h.memWf, h.memIn⟩ fun m hm a _ => ?_)
  split
  · next v hv =>
    refine MemOk.write hm ?_ v
    split at hv
    · next t ht =>
      show a < s.memWords
      rw [← step_memWords ht]
      exact Memory.lt_of_written ((stepKeepsInv s t h).1 ht).memIn hv
    · exact Memory.lt_of_written h.memIn hv
    · exact Memory.lt_of_written h.memIn hv
  · exact hm

/-- Settles O21: a word enters a running sequencer's queue alone, and a reset state is good on any good memory. -/
theorem hostKeepsInv : Obligations.HostKeepsInv := fun _ h =>
  ⟨fun _ _ => send_keeps_inv h, inv_resetWith h.config ⟨h.memWf, h.memIn⟩, hostResetDuring_keeps_inv h⟩

end Sys2Proof.Machine
end

section
/-! # The sequencer (10_state.md R25 to R28, 60_exceptions.md R214, 70_reset_and_hazards.md R253) -/

namespace Sys2Proof

/-! ## The word of a decoded command (30_encoding.md R84) -/

/-- A row's decoding keeps every field of the word: the unused ones are zero, the others are the operands. -/
theorem operandFields_of_decodeRow {op : Op} {f : Fields} {i : Instr} (h : decodeRow op f = .ok i) :
    opOf i = op ∧ operandFields f.op i = f := by
  obtain ⟨b, sl, rd, ra, rb, rc, re⟩ := f
  cases op
  case lih | lil =>
    obtain ⟨hz, rfl⟩ := whenZero_eq_ok.1 h
    obtain ⟨h1, h2, h3, h4⟩ := imm16_parts ra rb rc re
    simp_all [operandFields, opOf]
  case rds | wrs =>
    obtain ⟨-, h⟩ := whenField_eq_ok.1 h
    obtain ⟨hz, rfl⟩ := whenZero_eq_ok.1 h
    obtain ⟨h1, h2⟩ := fld_parts rc re
    simp_all [operandFields, opOf]
  case bqinit | bqupd =>
    obtain ⟨ty, hty, h⟩ := withType_eq_ok.1 h
    obtain ⟨hz, rfl⟩ := whenZero_eq_ok.1 h
    simp_all [operandFields, opOf, typeCode_of_typeOfCode hty]
  all_goals
    obtain ⟨hz, rfl⟩ := whenZero_eq_ok.1 h
    simp_all [operandFields, opOf]

/-- A word that decodes is the word of its command. -/
theorem encode_of_decode {w : Word} {i : Instr} (h : decode w = .ok i) : encode i = w := by
  obtain ⟨op, hop, hrow⟩ := decode_eq_ok.1 h
  obtain ⟨hi, hf⟩ := operandFields_of_decodeRow hrow
  rw [encode, hi, opByte_of_opOfByte hop, hf, wordOf_fieldsOf]

end Sys2Proof

namespace Sys2Proof.Machine

open Sys2Proof.Safety

/-! ## One step of a running sequencer -/

/-- Settles O6: the command answers a state, and `stepOutcome` makes it the answer of the step. -/
theorem stepRunsCommand : Obligations.StepRunsCommand := by
  intro s w rest i hf hq hd
  obtain ⟨t, ht, -⟩ := exec_settles i { s with cmdq := rest }
  rw [step_of_command hf hq hd, ht]
  exact ⟨t, rfl, stepOutcome_next_of_running, stepOutcome_next_of_faulted⟩

/-- Settles O7: of the branches of `step`, these two run no command. -/
theorem sequencerConditions : Obligations.SequencerConditions :=
  fun _ => ⟨step_of_faulted, step_of_empty⟩

/-- The answer of a step that takes the word `w`, with `rest` behind it: `w` has completed, or it has faulted and the fault
registers name it. -/
inductive TakesWord (w : Word) (rest : List Word) (s : State) : Result → Prop
  | completed {t : State} (hf : faultBit t.status = false) (hq : t.cmdq = rest) (hseq : t.seq = s.seq + 1) :
      TakesWord w rest s (.next t)
  | faulted {t : State} (hf : faultBit t.status = true) (hfseq : t.fseq = s.seq) (hseq : t.seq = s.seq)
      (hfinst : t.finst = w) : TakesWord w rest s (.fault (.faulted t))

theorem step_takesWord {s : State} {w : Word} {rest : List Word} (hf : faultBit s.status = false)
    (hq : s.cmdq = w :: rest) : TakesWord w rest s (step s) := by
  cases hd : decode w with
  | error e =>
    rw [step_of_illegal hf hq hd]
    exact .faulted (by simp) rfl rfl rfl
  | ok i =>
    obtain ⟨t, ht, hc | hc⟩ := exec_settles i { s with cmdq := rest }
    · obtain ⟨hseq, ⟨hstatus, -⟩, hcmdq⟩ := hc.control
      have hf' : faultBit t.status = false := by rw [hstatus]; exact hf
      rw [step_of_command hf hq hd, ht, stepOutcome_next_of_running hf']
      exact .completed hf' hcmdq hseq
    · obtain ⟨⟨-, hseq, -⟩, hf', hfseq, hfinst, -⟩ := hc.control
      rw [step_of_command hf hq hd, ht, stepOutcome_next_of_faulted hf']
      exact .faulted hf' hfseq hseq (hfinst.trans (encode_of_decode hd))

/-! ## Runs -/

theorem run_succ_of_next {s t : State} (h : step s = .next t) (n : Nat) :
    Sys2Proof.core.run (n + 1) s = Sys2Proof.core.run n t := by
  simp only [Host.Core.run, Host.Check.core_step, h]

theorem run_succ_of_fault {s : State} {f : Fault} (h : step s = .fault f) (n : Nat) :
    Sys2Proof.core.run (n + 1) s = .fault f := by
  simp only [Host.Core.run, Host.Check.core_step, h]

/-- Settles O11, by induction on the words in the queue: the first completes and the run over the others follows, or it
faults and the run ends. -/
theorem runEnds : Obligations.RunEnds := by
  intro s hf
  generalize hq : s.cmdq = q
  induction q generalizing s with
  | nil => exact .inl ⟨s, rfl, hf, hq, by simp⟩
  | cons w rest ih =>
    generalize hr : step s = r
    cases hr ▸ step_takesWord hf hq with
    | @completed t hf' hq' hseq' =>
      have hcount (k : Nat) : t.seq + BitVec.ofNat 32 k = s.seq + BitVec.ofNat 32 (k + 1) := by
        rw [hseq', BitVec.ofNat_add, BitVec.add_assoc, BitVec.add_comm 1]
        rfl
      obtain ⟨u, hrun, hu, huq, huseq⟩ | ⟨k, u, v, hk, hrun, hv, hrun', hu, hfseq, hseq, hfinst⟩ := ih t hf' hq'
      · exact .inl ⟨u, (run_succ_of_next hr _).trans hrun, hu, huq, huseq.trans (hcount _)⟩
      · exact .inr ⟨k + 1, u, v, Nat.succ_lt_succ hk, (run_succ_of_next hr _).trans hrun, hv,
          (run_succ_of_next hr _).trans hrun', hu, hfseq.trans (hcount k), hseq, hfinst⟩
    | @faulted t hf' hfseq hseq hfinst =>
      exact .inr ⟨0, t, s, Nat.succ_pos _, rfl, hf, run_succ_of_fault hr 0, hf', by simpa using hfseq,
        hseq.trans hfseq.symm, congrArg some hfinst⟩

end Sys2Proof.Machine
end

section
/-! # Reset contents and the host's ports (10_state.md R24, R40, R50 to R52) -/

namespace Sys2Proof.Machine

open Sys2Proof.Safety

/-! ## Reset -/

theorem readReg_resetWith (c : Config) (r : Reg) : readReg (State.resetWith c) r = 0 := by
  simp [readReg, State.resetWith]

theorem readSec_zero (f : SecField) : readSec Section.zero f = 0 := by
  cases f <;> rfl

/-- The one slot that a list of reset slots holds. -/
theorem eq_of_map_replicate {α : Type} {a : α} {k n : Nat} {g : α → Word} {v : Word}
    (h : (List.replicate k a)[n]?.map g = some v) : v = g a := by
  obtain ⟨b, hb, rfl⟩ := Option.map_eq_some_iff.1 h
  rw [List.eq_of_mem_replicate (List.mem_of_getElem? hb)]

/-- Every field of the state space reads 0 after reset but the three constants. -/
theorem readField_resetWith {c : Config} {f : Field} {n : Nat} {v : Word}
    (h : readField (State.resetWith c) f n = some v) :
    v = 0 ∨ f = .core .coreid ∨ f = .core .cfgSlots ∨ f = .core .cfgMem := by
  cases f with
  | core r =>
    simp only [readField] at h
    split at h <;> cases h
    cases r <;> simp [readCore, State.resetWith]
  | bqSec g => exact .inl ((eq_of_map_replicate h).trans (readSec_zero g))
  | casSec j g =>
    refine .inl ((eq_of_map_replicate h).trans ?_)
    simpa [CasSlot.zero] using readSec_zero g
  | _ => exact .inl ((eq_of_map_replicate h).trans rfl)

/-- Settles O23: every item of the reset state is written out as zero or empty, and with no word queued a step waits. -/
theorem resetContents : Obligations.ResetContents := fun c =>
  ⟨readReg_resetWith c, rfl, rfl, rfl, rfl, rfl, rfl, fun _ _ _ => readField_resetWith,
    by simp [State.resetWith], rfl, fun _ => rfl, step_of_empty (by simp [faultBit, State.resetWith]) rfl⟩

/-! ## The read port -/

theorem coreRegOf_eq_none {n : Nat} (h : 9 ≤ n) : coreRegOf n = none := by
  unfold coreRegOf
  split
  case h_10 => rfl
  all_goals omega

/-- The read port at a register's address. -/
theorem hostRead_reg (s : State) (r : Reg) :
    hostRead s (r.setWidth 5) = if !busy s || faultLine s then some (readReg s r) else none := by
  have hr : r.toNat % 2 ^ 5 = r.toNat := Nat.mod_eq_of_lt (by omega)
  have hlt : (r.setWidth 5).toNat < 16 := by
    rw [BitVec.toNat_setWidth, hr]
    exact r.isLt
  have hback : (r.setWidth 5).setWidth 4 = r := by
    apply BitVec.eq_of_toNat_eq
    simp
  simp only [hostRead, hlt, if_true, hback]

/-- The read port at the address of `SEQ`. -/
theorem hostRead_seq (s : State) :
    hostRead s 22 = if !busy s || faultLine s then some s.seq else none := rfl

theorem hostRead_above {a : BitVec 5} (h : 25 ≤ a.toNat) (s : State) : hostRead s a = some 0 := by
  have hge : ¬a.toNat < 16 := by omega
  simp only [hostRead, hge, if_false, coreRegOf_eq_none (show 9 ≤ a.toNat - 16 by omega)]

/-- Settles O26: the registers and `SEQ` are read where the sequencer is at rest, the rest always. -/
theorem readPort : Obligations.ReadPort := by
  intro s
  refine ⟨fun h => ?_, fun h => ?_, rfl, rfl, rfl, rfl, rfl, rfl, rfl, rfl, fun a ha => hostRead_above ha s⟩
  · have hstable : (!busy s || faultLine s) = true := by simpa using h
    simp only [hostRead_reg, hostRead_seq, hstable, if_true, implies_true, and_self]
  · have hstable : (!busy s || faultLine s) = false := by simpa using h
    simp only [hostRead_reg, hostRead_seq, hstable, Bool.false_eq_true, if_false, implies_true, and_self]

/-! ## The command port -/

theorem send_of_full {s : State} (h : s.cmdqDepth ≤ s.cmdq.length) (w : Word) : send w s = none := by
  simp [send, cmdReady, h]

theorem send_of_room {s : State} (h : s.cmdq.length < s.cmdqDepth) (w : Word) :
    send w s = if faultLine s then some s else some { s with cmdq := s.cmdq ++ [w] } := by
  simp [send, cmdReady, h]

/-- Settles O27: the queue's room decides whether a word is taken, the fault line whether it is kept. -/
theorem commandPort : Obligations.CommandPort := by
  intro s w
  refine ⟨fun h => send_of_full h w, fun h hf => ?_, fun h hf => ?_, by simp [busy], Iff.rfl⟩
  · simp [send_of_room h, faultLine, hf]
  · simp [send_of_room h, faultLine, hf]

end Sys2Proof.Machine
end

section
/-! # What a command does to data memory (20_memory.md R64, R66, R69, R71; 45_fir.md R180) -/

namespace Sys2Proof.Machine

open Sys2Proof.Safety

/-! ## The memory frame (R69)

`KeepsUnstored` has one rule for each shared operation of Machine/Ops.lean; the rule for a command is these put together in
the order of its checks, with the rule of its store where it completes. -/

/-- Where the answer `r` of the command `i` in `s` is a state, it holds the words of `s` wherever `i` does not store. -/
structure KeepsUnstored (i : Instr) (s : State) (r : Result) : Prop where
  memRead_eq : ∀ t, r = .next t → ∀ a : Nat, ¬StoresTo s i a → memRead t a = memRead s a

section
variable {i : Instr} {s u : State}

theorem keepsUnstored_complete (h : ∀ a : Nat, ¬StoresTo s i a → memRead u a = memRead s a) :
    KeepsUnstored i s (complete u) := ⟨by rintro t ⟨⟩; exact h⟩

/-- A command that completes with the memory it found. -/
theorem keepsUnstored_complete_of_same (h : u.mem = s.mem) : KeepsUnstored i s (complete u) :=
  keepsUnstored_complete fun a _ => congrArg (Memory.read · a) h

/-- A command that completes with the one word it stores to written. -/
theorem keepsUnstored_complete_of_write {b : Nat} {v : Word} (hs : stores s i = some (b, 1))
    (h : u.mem = Memory.write s.mem b v) : KeepsUnstored i s (complete u) :=
  keepsUnstored_complete fun a ha => by
    have hne : a ≠ b := fun e => ha ⟨b, 1, hs, by omega, by omega⟩
    rw [memRead, h, Memory.read_write_other hne, memRead]

/-- A command that completes with the words it stores to zeroed. -/
theorem keepsUnstored_complete_of_zero {b n : Nat} (hs : stores s i = some (b, n))
    (h : u.mem = Memory.zero s.mem b n) : KeepsUnstored i s (complete u) :=
  keepsUnstored_complete fun a ha => by
    have hout : ¬(b ≤ a ∧ a < b + n) := fun hin => ha ⟨b, n, hs, hin⟩
    rw [memRead, h, Memory.read_zero_outside _ hout, memRead]

theorem keepsUnstored_raise {j : Instr} {c : Cause} {info : Word} : KeepsUnstored i s (raise c j info s) :=
  ⟨by rintro t ⟨⟩ a -; rfl⟩

theorem keepsUnstored_ite {p : Prop} [Decidable p] {r₁ r₂ : Result} (h₁ : KeepsUnstored i s r₁)
    (h₂ : KeepsUnstored i s r₂) : KeepsUnstored i s (if p then r₁ else r₂) := by
  split <;> assumption

theorem keepsUnstored_withSlot {α : Type} {slots : List α} {sl : SlotNo} {k : α → Result}
    (h : ∀ a, slots[sl.toNat]? = some a → KeepsUnstored i s (k a)) : KeepsUnstored i s (withSlot slots i sl s k) := by
  unfold withSlot
  split
  · exact keepsUnstored_raise
  · exact h _ ‹_›

theorem keepsUnstored_needValid {valid : Bool} {sl : SlotNo} {k : Result} (h : KeepsUnstored i s k) :
    KeepsUnstored i s (needValid valid i sl s k) := keepsUnstored_ite h keepsUnstored_raise

theorem keepsUnstored_needAddr {a : Word} {k : Result} (h : KeepsUnstored i s k) :
    KeepsUnstored i s (needAddr a i s k) := keepsUnstored_ite h keepsUnstored_raise

theorem keepsUnstored_firInit {sl : SlotNo} {bb bl cb cl : Word} (h : stores s i = some (bb.toNat, bl.toNat)) :
    KeepsUnstored i s (firInit i sl bb bl cb cl s) :=
  keepsUnstored_ite keepsUnstored_raise <| keepsUnstored_ite keepsUnstored_raise <|
    keepsUnstored_ite keepsUnstored_raise <| keepsUnstored_ite keepsUnstored_raise <|
      keepsUnstored_complete_of_zero h rfl

end

theorem keepsUnstored_execRds (sl : SlotNo) (rd : Reg) (un : BitVec 4) (fld : BitVec 8) (s : State) :
    KeepsUnstored (.rds sl rd un fld) s (execRds sl rd un fld s) := by
  unfold execRds
  split
  · exact keepsUnstored_raise
  · split
    · exact keepsUnstored_raise
    · exact keepsUnstored_complete_of_same rfl

theorem writePt1State_mem (sl : SlotNo) (v : Word) (s : State) : (writePt1State sl v s).mem = s.mem := by
  unfold writePt1State
  split <;> rfl

theorem keepsUnstored_execWrs (sl : SlotNo) (ra : Reg) (un : BitVec 4) (fld : BitVec 8) (s : State) :
    KeepsUnstored (.wrs sl ra un fld) s (execWrs sl ra un fld s) := by
  unfold execWrs
  split
  · exact keepsUnstored_raise
  · exact keepsUnstored_ite keepsUnstored_raise <|
      keepsUnstored_ite (keepsUnstored_complete_of_same (writePt1State_mem ..)) keepsUnstored_raise

/-- The one word a FIR command stores to is the place of the next sample of its slot. -/
theorem firStores_of_slot {s : State} {sl : SlotNo} {f : FirSlot} (h : s.fir[sl.toNat]? = some f) :
    firStores s sl = some (bufAddr f f.index.toNat, 1) := by
  rw [firStores, h, Option.map_some]

theorem exec_keepsUnstored (i : Instr) (s : State) : KeepsUnstored i s (exec i s) := by
  cases i
  case nop | lih | lil | mov | notchq | pt1gain => exact keepsUnstored_complete_of_same rfl
  case rdm => exact keepsUnstored_needAddr (keepsUnstored_complete_of_same rfl)
  case wrm => exact keepsUnstored_needAddr (keepsUnstored_complete_of_write rfl rfl)
  case rds => exact keepsUnstored_execRds ..
  case wrs => exact keepsUnstored_execWrs ..
  case bqinitlpf | bqinit | bqrcfir2 | casinit | pt1init | slewinit =>
    exact keepsUnstored_withSlot fun _ _ => keepsUnstored_complete_of_same rfl
  case bqupd | bqdf1 | bqapply | casapply | pt1apply | slewapply | firapply | firmavg | firlast =>
    exact keepsUnstored_withSlot fun _ _ => keepsUnstored_needValid (keepsUnstored_complete_of_same rfl)
  case firpavg =>
    exact keepsUnstored_withSlot fun _ _ => keepsUnstored_needValid <|
      keepsUnstored_ite keepsUnstored_raise (keepsUnstored_complete_of_same rfl)
  case firinit | firinit2 => exact keepsUnstored_withSlot fun _ _ => keepsUnstored_firInit rfl
  case firupd | firupdavg | firupdapply =>
    exact keepsUnstored_withSlot fun _ hf => keepsUnstored_needValid <|
      keepsUnstored_complete_of_write (firStores_of_slot hf) rfl

/-- Settles O15: each command's one store is a word or a zeroed range at the place `Safety.stores` names. -/
theorem memoryFrame : Obligations.MemoryFrame := fun i s => (exec_keepsUnstored i s).memRead_eq

/-! ## A store read back (R64, R71) -/

theorem exec_rdm_of_lt {s : State} {rd ra : Reg} (h : (readReg s ra).toNat < s.memWords) :
    exec (.rdm rd ra) s = .next (advance (writeReg rd (memRead s (readReg s ra).toNat) s)) := if_pos h

theorem exec_wrm_of_lt {s : State} {ra rb : Reg} (h : (readReg s ra).toNat < s.memWords) :
    exec (.wrm ra rb) s = .next (advance (memWrite (readReg s ra).toNat (readReg s rb) s)) := if_pos h

/-- Settles O16: no store changes a register, and the second store leaves the word of the first. -/
theorem storeThenLoad : Obligations.StoreThenLoad := by
  intro s ra rb rc rd re ha hc hne
  have haddr : (readReg s ra).toNat ≠ (readReg s rc).toNat := (BitVec.toNat_ne.1 hne).symm
  refine ⟨_, _, exec_wrm_of_lt ha, exec_wrm_of_lt hc, (exec_rdm_of_lt (by simpa using ha)).trans ?_⟩
  have hread : memRead (advance (memWrite (readReg s rc).toNat (readReg s rd)
      (advance (memWrite (readReg s ra).toNat (readReg s rb) s)))) (readReg s ra).toNat = readReg s rb := by
    rw [memRead_advance, memRead_memWrite_other haddr, memRead_advance, memRead_memWrite_same]
  simp only [readReg_advance, readReg_memWrite, hread]
  rfl

/-! ## Addresses in range (R66, R180) -/

/-- Where no check of a command fails, each of them passes. -/
theorem passes_of_firstFailure_eq_none {s : State} {i : Instr} (h : firstFailure s i = none) {c : Check}
    (hc : c ∈ checks s i) : c.fails = false :=
  Bool.eq_false_iff.2 (List.find?_eq_none.1 h c hc)

theorem addrCheck_passes {s : State} {a : Word} (h : (addrCheck s a).fails = false) : a.toNat < s.memWords :=
  Nat.lt_of_not_le (of_decide_eq_false h)

theorem regionCheck_passes {s : State} {base len : Word} (h : (regionCheck s base len).fails = false) :
    base.toNat + len.toNat ≤ s.memWords := Nat.le_of_not_lt (of_decide_eq_false h)

/-- The word a FIR command stores to, where its slot is valid. -/
theorem firStores_end_le {s : State} (hs : Inv s) {sl : SlotNo}
    (hv : (validCheck (s.fir[sl.toNat]?.map (·.valid)) sl).fails = false) {base n : Nat}
    (h : firStores s sl = some (base, n)) : base + n ≤ s.memWords := by
  obtain ⟨f, hf, he⟩ := Option.map_eq_some_iff.1 h
  cases he
  have hvalid : f.valid = true := by simpa [validCheck, hf] using hv
  exact bufAddr_index_lt (hs.fir f (List.mem_of_getElem? hf)) hvalid

/-- The words a command with no failing check stores to end inside data memory. -/
theorem stores_end_le {s : State} (hs : Inv s) {i : Instr} (hi : firstFailure s i = none) {base n : Nat}
    (h : stores s i = some (base, n)) : base + n ≤ s.memWords := by
  have hpass : ∀ c ∈ checks s i, c.fails = false := fun _ => passes_of_firstFailure_eq_none hi
  cases i
  case wrm ra rb =>
    cases h
    exact addrCheck_passes (hpass _ (by simp [checks]))
  case firinit | firinit2 =>
    cases h
    exact regionCheck_passes (hpass _ (by simp [checks]))
  case firupd | firupdavg | firupdapply => exact firStores_end_le hs (hpass _ (by simp [checks])) h
  all_goals cases h

/-- Stepping back stays inside the buffer (45_fir.md R180). -/
theorem firPrev_lt {len i : Nat} (h : i < len) : firPrev len i < len := by
  unfold firPrev
  split <;> omega

/-- The samples, the coefficients and the word `FIRLAST` reads of a slot in its ranges are inside memory. -/
theorem firOk_addresses_lt {k : Nat} {f : FirSlot} (hf : FirOk k f) (hv : f.valid = true) :
    (∀ j < f.bufLength.toNat, bufAddr f j < k ∧ sampleAddr f j < k) ∧
    (∀ j < f.coeffsLength.toNat, coefAddr f j < k) ∧ lastAddr f < k := by
  obtain ⟨hlen, -, hindex, -, hbuf, hcoef⟩ := hf.2 hv
  have hsample {j : Nat} (hj : j < f.bufLength.toNat) : bufAddr f j < k :=
    (Nat.add_lt_add_left hj _).trans_le hbuf
  have hcoeff {j : Nat} (hj : j < f.coeffsLength.toNat) : coefAddr f j < k :=
    (Nat.add_lt_add_left hj _).trans_le hcoef
  exact ⟨fun j hj => ⟨hsample hj, hsample (Nat.mod_lt _ hlen)⟩, fun j hj => hcoeff hj, hsample (firPrev_lt hindex)⟩

/-- Settles O22: the checks bound what `WRM` and the init commands store, the ranges of a valid slot all the rest. -/
theorem addressesInRange : Obligations.AddressesInRange := by
  intro s hs
  refine ⟨?_, fun f hf hv => firOk_addresses_lt (hs.fir f hf) hv⟩
  rintro i a hi ⟨base, n, hst, -, ha⟩
  exact ha.trans_le (stores_end_le hs hi hst)

end Sys2Proof.Machine
end

section
/-! # The encoding (30_encoding.md R81 to R94) -/

namespace Sys2Proof

open Sys2Proof.Machine Sys2Proof.Safety

/-! ## The two round trips (R84, R86) -/

/-- The fields of a well-formed command, read as the fields of its row, are that command. -/
theorem decodeRow_operandFields (b : BitVec 8) {i : Instr} (hi : WellFormed i = true) :
    decodeRow (opOf i) (operandFields b i) = .ok i := by
  cases i
  case lih | lil => simp [operandFields, opOf, decodeRow, whenZero, imm16_nibbles]
  case rds un fld | wrs un fld =>
    have hpair : fieldPairDefined un fld = true := hi
    simp [operandFields, opOf, decodeRow, whenField, whenZero, fld_nibbles, hpair]
  case bqinit | bqupd => simp [operandFields, opOf, decodeRow, withType, whenZero]
  all_goals rfl

@[simp] theorem operandFields_op (b : BitVec 8) (i : Instr) : (operandFields b i).op = b := by cases i <;> rfl

/-- Settles O1: the fields of the word are those of the command, and its row reads the operands back from them. -/
theorem decodeEncode : Obligations.DecodeEncode := by
  intro i hi
  rw [decode_eq_ok, encode, fieldsOf_wordOf]
  exact ⟨opOf i, by simp, decodeRow_operandFields _ hi⟩

/-- The one check of `WellFormed`, on the pair of `RDS` and `WRS`, is made by their rows. -/
theorem wellFormed_of_decodeRow {op : Op} {f : Fields} {i : Instr} (h : decodeRow op f = .ok i) :
    WellFormed i = true := by
  cases op
  case rds | wrs =>
    obtain ⟨hpair, h⟩ := whenField_eq_ok.1 h
    obtain ⟨-, rfl⟩ := whenZero_eq_ok.1 h
    exact hpair
  case bqinit | bqupd =>
    obtain ⟨ty, -, h⟩ := withType_eq_ok.1 h
    obtain ⟨-, rfl⟩ := whenZero_eq_ok.1 h
    rfl
  all_goals
    obtain ⟨-, rfl⟩ := whenZero_eq_ok.1 h
    rfl

/-- Settles O2: the row's decoding checks the pair and keeps every field of the word. -/
theorem encodeDecode : Obligations.EncodeDecode := by
  intro w i h
  obtain ⟨_, -, hrow⟩ := decode_eq_ok.1 h
  exact ⟨wellFormed_of_decodeRow hrow, encode_of_decode h⟩

/-! ## Mask and match (R87) -/

theorem opByte_injective : Function.Injective opByte := fun a b h =>
  Option.some.inj (by rw [← opOfByte_opByte a, h, opOfByte_opByte])

theorem opOfByte_eq_some {b : BitVec 8} {op : Op} : opOfByte b = some op ↔ b = opByte op :=
  ⟨fun h => (opByte_of_opOfByte h).symm, fun h => h ▸ opOfByte_opByte op⟩

theorem wordOf_injective : Function.Injective wordOf := fun f g h => by
  rw [← fieldsOf_wordOf f, h, fieldsOf_wordOf]

/-- The `op` byte is in every mask; the match is that byte over zeros. -/
theorem opMask_op (op : Op) : (fieldsOf (opMask op)).op = 0xFF := by cases op <;> rfl

theorem opMatch_eq_wordOf (op : Op) : opMatch op = wordOf ⟨opByte op, 0, 0, 0, 0, 0, 0⟩ := by cases op <;> rfl

/-- The bits of the operand fields that the row's mask covers are zero. -/
def UnusedZero (op : Op) (f : Fields) : Prop :=
  f.sl &&& (fieldsOf (opMask op)).sl = 0 ∧ f.rd &&& (fieldsOf (opMask op)).rd = 0 ∧
  f.ra &&& (fieldsOf (opMask op)).ra = 0 ∧ f.rb &&& (fieldsOf (opMask op)).rb = 0 ∧
  f.rc &&& (fieldsOf (opMask op)).rc = 0 ∧ f.re &&& (fieldsOf (opMask op)).re = 0

/-- What a row's mask and match select, field by field. -/
theorem and_opMask_eq_opMatch {w : Word} {op : Op} :
    w &&& opMask op = opMatch op ↔ (fieldsOf w).op = opByte op ∧ UnusedZero op (fieldsOf w) := by
  have hop : (fieldsOf w).op &&& (fieldsOf (opMask op)).op = (fieldsOf w).op := by
    rw [opMask_op]
    exact BitVec.and_allOnes
  rw [← wordOf_fieldsOf w, ← wordOf_fieldsOf (opMask op), wordOf_and, opMatch_eq_wordOf, wordOf_injective.eq_iff,
    Fields.mk.injEq, wordOf_fieldsOf, hop, UnusedZero]

/-- `re[3:2]` is the part of the type field that must be zero (R88). -/
theorem exists_typeOfCode {re : BitVec 4} : (∃ ty, typeOfCode re = some ty) ↔ re &&& 12#4 = 0#4 := by
  rw [← Option.isSome_iff_exists]
  revert re
  decide

/-- The row of an operation accepts the fields exactly if its unused bits are zero and, for `RDS` and `WRS`, the pair is
defined. -/
theorem exists_decodeRow {op : Op} {f : Fields} : (∃ i, decodeRow op f = .ok i) ↔
    UnusedZero op f ∧ ((op = .rds ∨ op = .wrs) → fieldPairDefined f.rb (f.rc ++ f.re) = true) := by
  have hones (x : BitVec 4) : x &&& 15#4 = x := BitVec.and_allOnes
  cases op
  case rds | wrs =>
    simp [decodeRow, whenField_eq_ok, whenZero_eq_ok, UnusedZero, fieldsOf, opMask, hones, and_comm]
  case bqinit | bqupd =>
    simp [decodeRow, withType_eq_ok, whenZero_eq_ok, UnusedZero, fieldsOf, opMask, hones, ← exists_typeOfCode, and_comm]
  all_goals simp [decodeRow, whenZero_eq_ok, UnusedZero, fieldsOf, opMask, hones, and_assoc]

/-- `fld` of format S, as a field of the word (R83). -/
theorem fieldsOf_fld (w : Word) : (fieldsOf w).rc ++ (fieldsOf w).re = w.extractLsb' 0 8 :=
  BitVec.extractLsb'_append_extractLsb'_eq_extractLsb' rfl

/-- A word is a command of a row exactly if its `op` is the row's and the row accepts its fields. -/
theorem exists_decode_opOf {w : Word} {op : Op} :
    (∃ i, decode w = .ok i ∧ opOf i = op) ↔
      (fieldsOf w).op = opByte op ∧ ∃ i, decodeRow op (fieldsOf w) = .ok i := by
  constructor
  · rintro ⟨i, hd, rfl⟩
    obtain ⟨op, hop, hrow⟩ := decode_eq_ok.1 hd
    obtain ⟨rfl, -⟩ := operandFields_of_decodeRow hrow
    exact ⟨opOfByte_eq_some.1 hop, i, hrow⟩
  · rintro ⟨hop, i, hrow⟩
    exact ⟨i, decode_eq_ok.2 ⟨op, opOfByte_eq_some.2 hop, hrow⟩, (operandFields_of_decodeRow hrow).1⟩

theorem decodes_to_row_iff (w : Word) (op : Op) :
    (∃ i, decode w = .ok i ∧ opOf i = op) ↔
      w &&& opMask op = opMatch op ∧
      ((op = .rds ∨ op = .wrs) → fieldPairDefined (w.extractLsb' 8 4) (w.extractLsb' 0 8) = true) := by
  rw [exists_decode_opOf, exists_decodeRow, and_opMask_eq_opMatch, fieldsOf_fld, and_assoc]
  rfl

/-- Settles O3: mask and match cut out the `op` byte and the unused bits; the `op` bytes of two rows differ. -/
theorem decodeByMask : Obligations.DecodeByMask :=
  ⟨decodes_to_row_iff, fun _ _ _ h h' =>
    opByte_injective ((and_opMask_eq_opMatch.1 h).1.symm.trans (and_opMask_eq_opMatch.1 h').1)⟩

/-! ## The illegal words (R89) -/

/-- The rows of the opcode map, in the order of R86. -/
def allOps : List Op :=
  [.nop, .lih, .lil, .mov, .rdm, .wrm, .rds, .wrs, .bqinitlpf, .bqinit, .bqupd, .bqdf1, .bqapply, .notchq, .bqrcfir2,
    .casinit, .casapply, .pt1gain, .pt1init, .pt1apply, .firinit, .firinit2, .firupd, .firupdavg, .firapply, .firpavg,
    .firmavg, .firupdapply, .firlast, .slewinit, .slewapply]

theorem mem_allOps (op : Op) : op ∈ allOps := by cases op <;> decide

/-- The `op` column of R86: the bytes that are not illegal by R89 (a). -/
def opBytes : List (BitVec 8) := allOps.map opByte

theorem mem_opBytes {b : BitVec 8} : b ∈ opBytes ↔ ∃ op, opByte op = b := by
  simp [opBytes, mem_allOps]

/-- A word is rejected exactly if it is a command of no row. -/
theorem exists_decode_error {w : Word} :
    (∃ e, decode w = .error e) ↔ ∀ op, ¬∃ i, decode w = .ok i ∧ opOf i = op := by
  cases decode w <;> simp

theorem illegal_iff (w : Word) : (∃ e, decode w = .error e) ↔
    w.extractLsb' 24 8 ∉ opBytes ∨
    (∃ op, opByte op = w.extractLsb' 24 8 ∧ w &&& opMask op ≠ opMatch op) ∨
    ((w.extractLsb' 24 8 = 0x07 ∨ w.extractLsb' 24 8 = 0x08) ∧
      fieldPairDefined (w.extractLsb' 8 4) (w.extractLsb' 0 8) = false) := by
  simp only [exists_decode_error, decodes_to_row_iff]
  constructor
  · intro hno
    refine or_iff_not_imp_left.2 fun hmem => ?_
    obtain ⟨op, hop⟩ := mem_opBytes.1 (not_not.1 hmem)
    by_cases hsel : w &&& opMask op = opMatch op
    · obtain ⟨hrow, hpair⟩ := Classical.not_imp.1 fun hp => hno op ⟨hsel, hp⟩
      refine .inr ⟨?_, Bool.eq_false_iff.2 hpair⟩
      rcases hrow with rfl | rfl
      · exact .inl hop.symm
      · exact .inr hop.symm
    · exact .inl ⟨op, hop, hsel⟩
  · rintro hill op ⟨hsel, hpair⟩
    have hop : w.extractLsb' 24 8 = opByte op := (and_opMask_eq_opMatch.1 hsel).1
    rcases hill with hmem | ⟨op', hop', hne⟩ | ⟨hrow, hundef⟩
    · exact hmem (mem_opBytes.2 ⟨op, hop.symm⟩)
    · exact hne (opByte_injective (hop'.trans hop) ▸ hsel)
    · have hrds : op = .rds ∨ op = .wrs :=
        hrow.imp (fun h => opByte_injective (hop.symm.trans h)) fun h => opByte_injective (hop.symm.trans h)
      exact Bool.eq_false_iff.1 hundef (hpair hrds)

/-- Settles O4: a word is rejected where it is a command of no row; the step that takes it raises `Illegal`. -/
theorem illegalWords : Obligations.IllegalWords :=
  ⟨illegal_iff, fun _ _ _ _ hf hq hd => ⟨_, step_of_illegal hf hq hd, rfl⟩, ⟨_, rfl⟩, ⟨_, rfl⟩⟩

/-- Settles O5: the decoder evaluated on the fourteen words of R94. -/
theorem workedEncodings : Obligations.WorkedEncodings := by
  unfold Obligations.WorkedEncodings
  decide

end Sys2Proof
end

section
/-! # Binary32: classes, the sign bit, the order of values (40_numerics.md R100, R105, R106)

What a pattern's class says about its magnitude and its bits, one fact each; the operations below go through these and not
through the fields. -/

namespace Sys2Proof.Machine

open Sys2Proof.Safety

/-! ## The classes -/

/-- Of a pattern that is no NaN: it is infinite or finite. -/
theorem f32IsInf_or_isFinite {a : F32} (h : f32IsNaN a = false) : f32IsInf a = true ∨ f32IsFinite a = true := by
  simp only [f32IsNaN, f32IsInf, f32IsFinite, Bool.and_eq_false_iff, Bool.and_eq_true, beq_eq_false_iff_ne,
    bne_eq_false_iff_eq, beq_iff_eq, bne_iff_ne] at h ⊢
  omega

@[simp] theorem f32IsFinite_fneg (a : F32) : f32IsFinite (fneg a) = f32IsFinite a := by simp [f32IsFinite]

section
variable {a : F32}

theorem f32IsNaN_of_isFinite (h : f32IsFinite a = true) : f32IsNaN a = false := by
  simp_all [f32IsFinite, f32IsNaN]

theorem f32IsInf_of_isFinite (h : f32IsFinite a = true) : f32IsInf a = false := by
  simp_all [f32IsFinite, f32IsInf]

theorem f32IsNaN_of_isInf (h : f32IsInf a = true) : f32IsNaN a = false := by
  simp_all [f32IsInf, f32IsNaN]

theorem f32IsFinite_of_isInf (h : f32IsInf a = true) : f32IsFinite a = false := by
  simp_all [f32IsFinite, f32IsInf]

theorem f32IsFinite_of_isNaN (h : f32IsNaN a = true) : f32IsFinite a = false := by
  simp_all [f32IsFinite, f32IsNaN]

/-! ## Magnitudes -/

theorem f32Mag_of_isInf (h : f32IsInf a = true) : f32Mag a = 2 ^ 277 := by
  simp only [f32IsInf, Bool.and_eq_true, beq_iff_eq] at h
  rw [f32Mag, h.1, h.2, if_neg (by decide), Nat.add_zero, ← pow_add]

theorem f32Mag_ne_zero_of_isInf (h : f32IsInf a = true) : f32Mag a ≠ 0 := by
  rw [f32Mag_of_isInf h]
  positivity

/-- Every finite magnitude lies below the one the formula gives an infinity. -/
theorem f32Mag_lt_of_isFinite (h : f32IsFinite a = true) : f32Mag a < 2 ^ 277 := by
  have hfrac := f32Frac_lt a
  have hexp : f32Exp a ≤ 254 := by
    have := f32Exp_le a
    simp only [f32IsFinite, bne_iff_ne] at h
    omega
  unfold f32Mag
  split
  · exact hfrac.trans (pow_lt_pow_right₀ one_lt_two (by decide))
  · calc (2 ^ 23 + f32Frac a) * 2 ^ (f32Exp a - 1)
        < 2 ^ 24 * 2 ^ (f32Exp a - 1) := Nat.mul_lt_mul_of_pos_right (by omega) (by positivity)
      _ = 2 ^ (24 + (f32Exp a - 1)) := (pow_add ..).symm
      _ ≤ 2 ^ 277 := pow_le_pow_right₀ one_le_two (by omega)

/-- The smallest exponent and no fraction: a magnitude is zero in no other pattern. -/
theorem f32Mag_eq_zero : f32Mag a = 0 ↔ f32Exp a = 0 ∧ f32Frac a = 0 := by
  unfold f32Mag
  split <;> simp_all

theorem f32IsFinite_of_mag_eq_zero (h : f32Mag a = 0) : f32IsFinite a = true := by
  simp [f32IsFinite, (f32Mag_eq_zero.1 h).1]

end

/-! ## Values -/

theorem abs_f32Real (a : F32) : |f32Real a| = (f32Mag a : ℚ) / 2 ^ 149 := by
  rw [f32Real_eq]
  cases f32Neg a <;> simp [abs_div]

@[simp] theorem f32Real_fneg (a : F32) : f32Real (fneg a) = -f32Real a := by
  simp [f32Real, neg_div]

theorem f32Real_eq_zero {a : F32} : f32Real a = 0 ↔ f32Mag a = 0 := by
  rw [← abs_eq_zero, abs_f32Real]
  simp

theorem f32Real_add (a b : F32) : f32Real a + f32Real b = ((f32Val a + f32Val b : ℤ) : ℚ) / 2 ^ 149 := by
  push_cast [f32Real]
  ring

theorem f32Real_add_eq_zero {a b : F32} : f32Real a + f32Real b = 0 ↔ f32Val a + f32Val b = 0 := by
  rw [f32Real_add, div_eq_zero_iff, or_iff_left (by positivity), Int.cast_eq_zero]

/-! ## Zeros and infinities as patterns -/

theorem signedZero_eq (neg : Bool) : signedZero neg = if neg then 0x80000000 else 0x00000000 := by
  cases neg <;> rfl

theorem signedInf_eq (neg : Bool) : signedInf neg = if neg then 0xFF800000 else 0x7F800000 := by
  cases neg <;> rfl

@[simp] theorem f32Neg_signedInf (neg : Bool) : f32Neg (signedInf neg) = neg := f32Neg_withSign neg (by decide)

@[simp] theorem f32IsNaN_signedZero (neg : Bool) : f32IsNaN (signedZero neg) = false := by cases neg <;> decide

@[simp] theorem f32IsNaN_signedInf (neg : Bool) : f32IsNaN (signedInf neg) = false := by cases neg <;> decide

/-- The two zeros are the patterns of magnitude zero. -/
theorem eq_signedZero_of_mag_eq_zero {a : F32} (h : f32Mag a = 0) : a = signedZero (f32Neg a) := by
  obtain ⟨hexp, hfrac⟩ := f32Mag_eq_zero.1 h
  rw [f32Exp_eq] at hexp
  rw [f32Frac_eq] at hfrac
  apply BitVec.eq_of_toNat_eq
  rw [signedZero, withSign_toNat _ (by decide), f32Neg_eq]
  have := a.isLt
  simp only [decide_eq_true_eq]
  split <;> omega

/-! ## The sign bit (R105) -/

theorem fneg_eq (a : F32) : fneg a = a ^^^ BitVec.twoPow 32 31 := rfl

theorem fabs_eq (a : F32) : fabs a = a &&& ~~~BitVec.twoPow 32 31 := rfl

/-- Settles O31: the masks of the two operations are bit 31 and its complement. -/
theorem signBitOperations : Obligations.SignBitOperations := by
  intro a k hk
  rw [fneg_eq, fabs_eq, BitVec.getLsbD_xor, BitVec.getLsbD_and, BitVec.getLsbD_not, BitVec.getLsbD_twoPow]
  by_cases h31 : k = 31
  · simp [h31]
  · simp [h31, hk, Ne.symm h31]

/-! ## The order of values (R106) -/

/-- A pattern that is no NaN is one of the infinities or finite; its integer value and its place in the order agree. -/
theorem f32Order_cases {a : F32} (h : f32IsNaN a = false) :
    (f32Val a = -2 ^ 277 ∧ f32Order a = ⊥) ∨
    (f32Val a = 2 ^ 277 ∧ f32Order a = ((⊤ : WithTop ℚ) : WithBot (WithTop ℚ))) ∨
    (-2 ^ 277 < f32Val a ∧ f32Val a < 2 ^ 277 ∧ f32Order a = ((f32Real a : WithTop ℚ) : WithBot (WithTop ℚ))) := by
  rcases f32IsInf_or_isFinite h with hinf | hfin
  · have hmag : (f32Mag a : ℤ) = 2 ^ 277 := by rw [f32Mag_of_isInf hinf, Nat.cast_pow, Nat.cast_ofNat]
    cases hneg : f32Neg a
    · exact .inr (.inl ⟨by rw [f32Val, if_neg (by simp [hneg]), hmag], by simp [f32Order, hinf, hneg]⟩)
    · exact .inl ⟨by simp [f32Val, hneg, hmag], by simp [f32Order, hinf, hneg]⟩
  · have hmag : (f32Mag a : ℤ) < 2 ^ 277 := by exact_mod_cast f32Mag_lt_of_isFinite hfin
    refine .inr (.inr ⟨?_, ?_, by simp [f32Order, f32IsInf_of_isFinite hfin]⟩) <;> unfold f32Val <;> split <;> omega

theorem f32Real_lt_iff {a b : F32} : f32Real a < f32Real b ↔ f32Val a < f32Val b := by
  rw [f32Real, f32Real, div_lt_div_iff_of_pos_right (by positivity), Int.cast_lt]

/-- The integers the model compares are in the order of R106. -/
theorem f32Lt_iff {a b : F32} (ha : f32IsNaN a = false) (hb : f32IsNaN b = false) :
    f32Lt a b = true ↔ f32Order a < f32Order b := by
  rw [f32Lt, decide_eq_true_iff]
  rcases f32Order_cases ha with ⟨va, oa⟩ | ⟨va, oa⟩ | ⟨la, ua, oa⟩ <;>
    rcases f32Order_cases hb with ⟨vb, ob⟩ | ⟨vb, ob⟩ | ⟨lb, ub, ob⟩ <;>
    rw [oa, ob]
  case inr.inr.inr.inr => rw [WithBot.coe_lt_coe, WithTop.coe_lt_coe, f32Real_lt_iff]
  all_goals
    simp only [WithBot.coe_lt_coe, WithBot.bot_lt_coe, WithBot.not_lt_bot, WithTop.coe_lt_top, not_top_lt, iff_true,
      iff_false]
    omega

/-- Settles O32: the comparisons are `f32Lt` behind a check for NaN. -/
theorem comparisons : Obligations.Comparisons := by
  intro a b
  refine ⟨?_, fun ha hb => ?_, ?_⟩
  · rintro (h | h) <;> simp [fgt, flt, fle, h]
  · have hle : fle a b = true ↔ ¬f32Lt b a = true := by simp [fle, ha, hb]
    rw [hle, f32Lt_iff hb ha, not_lt]
    simp [fgt, flt, ha, hb, f32Lt_iff]
  · rw [f32Order, f32Order, f32Real_eq_zero.2 (by decide), f32Real_eq_zero.2 (by decide)]
    rfl

end Sys2Proof.Machine
end

section
/-! # Binary32: the four operations, conversion, sine and cosine (40_numerics.md R101 to R104, R109, R110)

Each operation has one equation per case of its operands' classes. `roundF32_roundedTo` is the fact about rounding; a
finite case cites it, a special case reads the pattern off its equation. -/

namespace Sys2Proof.Machine

open Sys2Proof.Safety

/-! ## Rounding -/

@[simp] theorem divNearestEven_zero (q : Nat) : divNearestEven 0 q = 0 := by simp [divNearestEven]

theorem divNearestEven_mul {q : Nat} (hq : 0 < q) (m : Nat) : divNearestEven (m * q) q = m := by
  simp [divNearestEven, hq]

/-- An exact zero is rounded to a zero of the given sign. -/
@[simp] theorem roundF32_zero (neg : Bool) (q : Nat) : roundF32 neg 0 q = signedZero neg := by
  simp [roundF32, roundBits, roundShift, signedZero]

/-- A whole number of units that is not zero, rounded (R101). -/
theorem roundF32_int_roundedTo {z : ℤ} (hz : z ≠ 0) :
    RoundedTo ((z : ℚ) / 2 ^ 149) (roundF32 (decide (z < 0)) z.natAbs 1) := by
  have h := roundF32_roundedTo (decide (z < 0)) (p := z.natAbs) (q := 1) (by omega) one_pos
  have hsign : (if decide (z < 0) then -1 else 1 : ℚ) * ((z.natAbs : ℚ) / (1 : ℕ)) = z := by
    rw [Nat.cast_natAbs]
    by_cases hneg : z < 0
    · simp [hneg, abs_of_neg]
    · simp [hneg, abs_of_nonneg (not_lt.1 hneg)]
  rwa [hsign] at h

/-- A magnitude without overflow that the weight of the last place kept divides is kept exactly. -/
theorem f32Mag_roundF32_of_dvd (neg : Bool) {p : Nat} (hp : p < (2 ^ 25 - 1) * 2 ^ 252) (h : 2 ^ roundShift p 1 ∣ p) :
    f32IsFinite (roundF32 neg p 1) = true ∧ f32Mag (roundF32 neg p 1) = p := by
  obtain ⟨hfin, -, hmag, -⟩ := roundF32_finite neg one_pos (by rwa [Nat.mul_one])
  refine ⟨hfin, ?_⟩
  obtain ⟨m, hm⟩ := exists_eq_mul_left_of_dvd h
  generalize roundShift p 1 = k at *
  rw [hmag, hm, Nat.one_mul, divNearestEven_mul (by positivity)]

/-! ## The factor of a sign -/

/-- The factor of the exclusive-or of two signs is the product of their factors. -/
theorem signFactor_xor (s t : Bool) :
    (if s != t then -1 else 1 : ℚ) = (if s then -1 else 1) * (if t then -1 else 1) := by
  cases s <;> cases t <;> simp

/-! ## Addition and subtraction -/

section
variable {a b : F32}

theorem fadd_of_finite (ha : f32IsFinite a = true) (hb : f32IsFinite b = true) : fadd a b = faddFinite a b := by
  simp [fadd, f32IsNaN_of_isFinite, f32IsInf_of_isFinite, ha, hb]

/-- An exact zero sum: the negative zero only where both operands are negative. -/
theorem fadd_of_val_zero (ha : f32IsFinite a = true) (hb : f32IsFinite b = true) (h : f32Val a + f32Val b = 0) :
    fadd a b = signedZero (f32Neg a && f32Neg b) := by
  rw [fadd_of_finite ha hb, faddFinite, if_pos h]

theorem fadd_of_val_ne_zero (ha : f32IsFinite a = true) (hb : f32IsFinite b = true) (h : f32Val a + f32Val b ≠ 0) :
    fadd a b = roundF32 (decide (f32Val a + f32Val b < 0)) (f32Val a + f32Val b).natAbs 1 := by
  rw [fadd_of_finite ha hb, faddFinite, if_neg h]

theorem fadd_of_inf_left (ha : f32IsInf a = true) (hb : f32IsFinite b = true) : fadd a b = a := by
  simp [fadd, f32IsNaN_of_isInf, f32IsNaN_of_isFinite, f32IsInf_of_isFinite, ha, hb]

theorem fadd_of_inf_right (ha : f32IsFinite a = true) (hb : f32IsInf b = true) : fadd a b = b := by
  simp [fadd, f32IsNaN_of_isInf, f32IsNaN_of_isFinite, f32IsInf_of_isFinite, ha, hb]

theorem fadd_of_opposite_inf (ha : f32IsInf a = true) (hb : f32IsInf b = true) (h : f32Neg a ≠ f32Neg b) :
    fadd a b = fNAN := by
  simp [fadd, f32IsNaN_of_isInf, ha, hb, h]

theorem fsub_of_equal_inf (ha : f32IsInf a = true) (hb : f32IsInf b = true) (h : f32Neg a = f32Neg b) :
    fsub a b = fNAN :=
  fadd_of_opposite_inf ha (by rwa [f32IsInf_fneg]) (by simp [h])

/-- Where the values cancel, both operands are negative only as the two negative zeros. -/
theorem neg_and_neg_iff_of_val_zero (h : f32Val a + f32Val b = 0) :
    (f32Neg a && f32Neg b) = true ↔ a = 0x80000000 ∧ b = 0x80000000 := by
  constructor
  · intro hneg
    obtain ⟨ha, hb⟩ := Bool.and_eq_true_iff.1 hneg
    simp only [f32Val, ha, hb, if_true] at h
    rw [eq_signedZero_of_mag_eq_zero (a := a) (by omega), eq_signedZero_of_mag_eq_zero (a := b) (by omega), ha, hb]
    exact ⟨rfl, rfl⟩
  · rintro ⟨rfl, rfl⟩
    decide

theorem fadd_roundedTo (ha : f32IsFinite a = true) (hb : f32IsFinite b = true) (h : f32Real a + f32Real b ≠ 0) :
    RoundedTo (f32Real a + f32Real b) (fadd a b) := by
  have hz : f32Val a + f32Val b ≠ 0 := mt f32Real_add_eq_zero.2 h
  rw [fadd_of_val_ne_zero ha hb hz, f32Real_add]
  exact roundF32_int_roundedTo hz

theorem fsub_roundedTo (ha : f32IsFinite a = true) (hb : f32IsFinite b = true) (h : f32Real a - f32Real b ≠ 0) :
    RoundedTo (f32Real a - f32Real b) (fsub a b) := by
  rw [sub_eq_add_neg, ← f32Real_fneg] at h ⊢
  exact fadd_roundedTo ha (by rwa [f32IsFinite_fneg]) h

/-! ## Multiplication -/

theorem fmul_comm (a b : F32) : fmul a b = fmul b a := by
  simp only [fmul, Bool.or_comm (f32IsNaN a), Bool.or_comm (f32IsInf a), Bool.or_comm (decide (f32Mag a = 0)),
    Nat.mul_comm (f32Mag a), bne_comm (a := f32Neg a)]

theorem fmul_of_finite (ha : f32IsFinite a = true) (hb : f32IsFinite b = true) :
    fmul a b = roundF32 (f32Neg a != f32Neg b) (f32Mag a * f32Mag b) (2 ^ 149) := by
  simp [fmul, f32IsNaN_of_isFinite, f32IsInf_of_isFinite, ha, hb]

theorem fmul_of_mag_zero (ha : f32Mag a = 0) (hb : f32IsFinite b = true) :
    fmul a b = signedZero (f32Neg a != f32Neg b) := by
  rw [fmul_of_finite (f32IsFinite_of_mag_eq_zero ha) hb, ha, Nat.zero_mul, roundF32_zero]

theorem fmul_of_mag_zero_of_inf (ha : f32Mag a = 0) (hb : f32IsInf b = true) : fmul a b = fNAN := by
  simp [fmul, f32IsNaN_of_isFinite (f32IsFinite_of_mag_eq_zero ha), f32IsNaN_of_isInf hb, ha, hb]

theorem fmul_of_inf (ha : f32IsInf a = true) (hb : f32IsNaN b = false) (hb0 : f32Mag b ≠ 0) :
    fmul a b = signedInf (f32Neg a != f32Neg b) := by
  simp [fmul, f32IsNaN_of_isInf, f32Mag_ne_zero_of_isInf, ha, hb, hb0]

/-- A product that is no NaN has the exclusive-or of the signs. -/
theorem f32Neg_fmul (ha : f32IsNaN a = false) (hb : f32IsNaN b = false)
    (h : (f32IsFinite a = true ∧ f32IsFinite b = true) ∨ (f32Mag a ≠ 0 ∧ f32Mag b ≠ 0)) :
    f32Neg (fmul a b) = (f32Neg a != f32Neg b) := by
  rcases f32IsInf_or_isFinite ha with hia | hfa
  · obtain ⟨-, hb0⟩ := h.resolve_left (by simp [f32IsFinite_of_isInf hia])
    rw [fmul_of_inf hia hb hb0, f32Neg_signedInf]
  · rcases f32IsInf_or_isFinite hb with hib | hfb
    · obtain ⟨ha0, -⟩ := h.resolve_left (by simp [f32IsFinite_of_isInf hib])
      rw [fmul_comm, fmul_of_inf hib ha ha0, f32Neg_signedInf, bne_comm]
    · rw [fmul_of_finite hfa hfb, f32Neg_roundF32]

theorem fmul_roundedTo (ha : f32IsFinite a = true) (hb : f32IsFinite b = true) (h : f32Real a * f32Real b ≠ 0) :
    RoundedTo (f32Real a * f32Real b) (fmul a b) := by
  obtain ⟨ha0, hb0⟩ := mul_ne_zero_iff.1 h
  rw [Ne, f32Real_eq_zero] at ha0 hb0
  have hround := roundF32_roundedTo (f32Neg a != f32Neg b) (p := f32Mag a * f32Mag b) (q := 2 ^ 149)
    (Nat.mul_pos (Nat.pos_of_ne_zero ha0) (Nat.pos_of_ne_zero hb0)) (by positivity)
  rw [fmul_of_finite ha hb]
  convert hround using 1
  rw [f32Real_eq, f32Real_eq, signFactor_xor]
  push_cast
  ring

/-! ## Division -/

theorem fdiv_of_finite (ha : f32IsFinite a = true) (hb : f32IsFinite b = true) (hb0 : f32Mag b ≠ 0) :
    fdiv a b = roundF32 (f32Neg a != f32Neg b) (f32Mag a * 2 ^ 149) (f32Mag b) := by
  simp [fdiv, f32IsNaN_of_isFinite, f32IsInf_of_isFinite, ha, hb, hb0]

theorem fdiv_of_mag_zero (ha : f32Mag a = 0) (hb : f32IsFinite b = true) (hb0 : f32Mag b ≠ 0) :
    fdiv a b = signedZero (f32Neg a != f32Neg b) := by
  rw [fdiv_of_finite (f32IsFinite_of_mag_eq_zero ha) hb hb0, ha, Nat.zero_mul, roundF32_zero]

theorem fdiv_of_zero_by_zero (ha : f32Mag a = 0) (hb : f32Mag b = 0) : fdiv a b = fNAN := by
  have hfa := f32IsFinite_of_mag_eq_zero ha
  have hfb := f32IsFinite_of_mag_eq_zero hb
  simp [fdiv, f32IsNaN_of_isFinite, f32IsInf_of_isFinite, hfa, hfb, ha, hb]

theorem fdiv_of_inf_by_inf (ha : f32IsInf a = true) (hb : f32IsInf b = true) : fdiv a b = fNAN := by
  simp [fdiv, f32IsNaN_of_isInf, ha, hb]

theorem fdiv_of_finite_by_inf (ha : f32IsFinite a = true) (hb : f32IsInf b = true) :
    fdiv a b = signedZero (f32Neg a != f32Neg b) := by
  simp [fdiv, f32IsNaN_of_isFinite, f32IsInf_of_isFinite, f32IsNaN_of_isInf, ha, hb]

theorem fdiv_of_inf_by_finite (ha : f32IsInf a = true) (hb : f32IsFinite b = true) :
    fdiv a b = signedInf (f32Neg a != f32Neg b) := by
  simp [fdiv, f32IsNaN_of_isFinite, f32IsInf_of_isFinite, f32IsNaN_of_isInf, ha, hb]

theorem fdiv_of_finite_by_zero (ha : f32IsFinite a = true) (ha0 : f32Mag a ≠ 0) (hb : f32Mag b = 0) :
    fdiv a b = signedInf (f32Neg a != f32Neg b) := by
  have hfb := f32IsFinite_of_mag_eq_zero hb
  simp [fdiv, f32IsNaN_of_isFinite, f32IsInf_of_isFinite, ha, hfb, ha0, hb]

theorem fdiv_roundedTo (ha : f32IsFinite a = true) (hb : f32IsFinite b = true) (hb0 : f32Real b ≠ 0)
    (h : f32Real a / f32Real b ≠ 0) : RoundedTo (f32Real a / f32Real b) (fdiv a b) := by
  have ha0 : f32Real a ≠ 0 := (div_ne_zero_iff.1 h).1
  rw [Ne, f32Real_eq_zero] at ha0 hb0
  have hround := roundF32_roundedTo (f32Neg a != f32Neg b) (p := f32Mag a * 2 ^ 149) (q := f32Mag b)
    (Nat.mul_pos (Nat.pos_of_ne_zero ha0) (by positivity)) (Nat.pos_of_ne_zero hb0)
  rw [fdiv_of_finite ha hb hb0]
  convert hround using 1
  have hb' : (f32Mag b : ℚ) ≠ 0 := by exact_mod_cast hb0
  have hunit : (2 : ℚ) ^ 149 ≠ 0 := by positivity
  rw [f32Real_eq, f32Real_eq, signFactor_xor, Nat.cast_mul, Nat.cast_pow, Nat.cast_ofNat]
  generalize (2 : ℚ) ^ 149 = u at hunit ⊢
  generalize (if f32Neg a then -1 else 1 : ℚ) = s
  cases f32Neg b
  · simp only [Bool.false_eq_true, if_false]
    field_simp
  · simp only [if_true]
    field_simp

end

/-- Settles O28: each operation rounds the exact result, which `roundF32_roundedTo` covers. -/
theorem roundedArithmetic : Obligations.RoundedArithmetic := fun _ _ =>
  ⟨fun ha hb => ⟨fadd_roundedTo ha hb, fsub_roundedTo ha hb, fmul_roundedTo ha hb, fdiv_roundedTo ha hb⟩, rfl⟩

/-! ## Conversion (R110) -/

/-- Up to 2^24 the places of an integer that rounding drops are zeros. -/
theorem two_pow_roundShift_dvd {n : Nat} (hn : n ≤ 2 ^ 24) : 2 ^ roundShift (n * 2 ^ 149) 1 ∣ n * 2 ^ 149 := by
  obtain ⟨-, hlow⟩ := roundShift_spec (p := n * 2 ^ 149) one_pos
  generalize roundShift (n * 2 ^ 149) 1 = k at *
  rcases Nat.lt_or_ge 149 k with hk | hk
  · have hle : 2 ^ (23 + k) ≤ n * 2 ^ 149 := by simpa using hlow (by omega)
    have hle' : 2 ^ (23 + k) ≤ 2 ^ (24 + 149) := by
      rw [pow_add 2 24]
      exact hle.trans (Nat.mul_le_mul_right _ hn)
    have hk' : k = 150 := by
      have := (Nat.pow_le_pow_iff_right one_lt_two).1 hle'
      omega
    subst hk'
    have : n = 2 ^ 24 := by omega
    subst this
    exact ⟨2 ^ 23, by ring⟩
  · exact Dvd.dvd.mul_left (pow_dvd_pow 2 hk) n

/-- A whole number is that many times 2^149 units of 2^-149. -/
theorem natCast_mul_unit_div (n : Nat) : ((n * 2 ^ 149 : ℕ) : ℚ) / 2 ^ 149 = n := by
  rw [Nat.cast_mul, Nat.cast_pow, Nat.cast_ofNat, mul_div_cancel_right₀ _ (by positivity)]

theorem u2f_roundedTo {n : Word} (hn : n ≠ 0) : RoundedTo (n.toNat : ℚ) (u2f n) := by
  have hpos : 0 < n.toNat := Nat.pos_of_ne_zero (by simpa [BitVec.toNat_eq] using hn)
  have h := roundF32_roundedTo false (p := n.toNat * 2 ^ 149) (q := 1) (by positivity) one_pos
  rwa [if_neg Bool.false_ne_true, one_mul, Nat.cast_one, div_one, natCast_mul_unit_div] at h

theorem u2f_exact {n : Word} (hn : n.toNat ≤ 2 ^ 24) : f32IsFinite (u2f n) = true ∧ f32Real (u2f n) = n.toNat := by
  obtain ⟨hfin, hmag⟩ := f32Mag_roundF32_of_dvd false (p := n.toNat * 2 ^ 149) (by omega) (two_pow_roundShift_dvd hn)
  refine ⟨hfin, ?_⟩
  rw [u2f, f32Real_eq, hmag, f32Neg_roundF32, if_neg Bool.false_ne_true, one_mul, natCast_mul_unit_div]

/-- Settles O34: an integer is a whole number of units, and up to 2^24 no place of it is lost. -/
theorem unsignedConversion : Obligations.UnsignedConversion :=
  ⟨fun _ => u2f_roundedTo, fun _ => u2f_exact, by decide⟩

/-! ## Sine and cosine (R109) -/

/-- What property (c) asks of a value. -/
def TrigValue (r : F32) : Prop := f32IsFinite r = true ∧ |f32Real r| ≤ 1

/-- The bound on an offered value of sine and cosine, as a magnitude and as a real number. -/
theorem f32Mag_le_one_iff (a : F32) : f32Mag a ≤ f32Mag fONE ↔ |f32Real a| ≤ 1 := by
  rw [abs_f32Real, div_le_one (by positivity), show f32Mag fONE = 2 ^ 149 from rfl]
  norm_cast

theorem trigValue_fZERO : TrigValue fZERO := ⟨by decide, (f32Mag_le_one_iff _).1 (by decide)⟩

theorem trigValue_fONE : TrigValue fONE := ⟨by decide, (f32Mag_le_one_iff _).1 le_rfl⟩

/-- (c) for a cut: whatever function is offered, if the value at `+0.0` has the property. -/
theorem trigValue_trigOf {z : F32} (hz : TrigValue z) (raw : F32 → F32) {a : F32} (ha : f32IsFinite a = true) :
    TrigValue (trigOf raw z a) := by
  unfold trigOf
  rw [ha]
  split_ifs with h1 h2 h3
  · cases h1
  · exact hz
  · simpa [f32Mag_le_one_iff, TrigValue] using h3
  · exact trigValue_fZERO

/-- A function with the properties (b), (c), (d) is the cut of itself. -/
theorem trigOf_self {f : F32 → F32} (hb : ∀ a, f32IsFinite a = false → f a = fNAN)
    (hc : ∀ a, f32IsFinite a = true → TrigValue (f a)) (a : F32) :
    trigOf f (f fZERO) a = f a := by
  cases ha : f32IsFinite a
  · rw [trigOf_notFinite ha, hb a ha]
  · obtain ⟨hfin, hle⟩ := hc a ha
    by_cases h0 : a = fZERO
    · rw [h0, trigOf_zero]
    · simp [trigOf, ha, h0, hfin, f32Mag_le_one_iff, hle]

/-- Settles O33: both functions are cuts, and (b), (c), (d) are the three kinds of operand of a cut. -/
theorem sineCosine : Obligations.SineCosine := by
  refine ⟨fun a ha => ⟨trigOf_notFinite ha .., trigOf_notFinite ha ..⟩, fun a ha => ?_, trigOf_zero .., trigOf_zero ..,
    ?_⟩
  · have hsin := trigValue_trigOf trigValue_fZERO Config.sinRaw ha
    have hcos := trigValue_trigOf trigValue_fONE Config.cosRaw ha
    exact ⟨⟨f32IsNaN_of_isFinite hsin.1, hsin⟩, f32IsNaN_of_isFinite hcos.1, hcos⟩
  · rintro f _ rfl hb hc a
    exact trigOf_self hb hc a

end Sys2Proof.Machine
end

section
/-! # Binary32: special results and NaN (40_numerics.md R102, R103)

The rows of R102 are the equations of the operations read as patterns. A NaN that has entered a recursive state is followed
through the recurrences: an operation with a NaN operand gives the canonical NaN, which is the operand of the next one. -/

namespace Sys2Proof.Machine

open Sys2Proof.Safety

section
variable {a b : F32}

/-! ## The rows of R102 that join two cases -/

/-- An exact zero sum is `+0.0`, but for two negative zeros. -/
theorem fadd_of_exact_zero (ha : f32IsFinite a = true) (hb : f32IsFinite b = true) (h : f32Real a + f32Real b = 0) :
    fadd a b = if a = 0x80000000 ∧ b = 0x80000000 then 0x80000000 else 0x00000000 := by
  have hz := f32Real_add_eq_zero.1 h
  rw [fadd_of_val_zero ha hb hz, signedZero_eq]
  exact if_congr (neg_and_neg_iff_of_val_zero hz) rfl rfl

theorem fsub_self_of_finite (ha : f32IsFinite a = true) : fsub a a = signedZero false := by
  rw [fsub, fadd_of_val_zero ha (by rwa [f32IsFinite_fneg]) (by simp), f32Neg_fneg, Bool.and_not_self]

theorem fdiv_by_zero (ha : f32IsNaN a = false) (ha0 : f32Mag a ≠ 0) (hb : f32Mag b = 0) :
    fdiv a b = signedInf (f32Neg a != f32Neg b) := by
  rcases f32IsInf_or_isFinite ha with hia | hfa
  · exact fdiv_of_inf_by_finite hia (f32IsFinite_of_mag_eq_zero hb)
  · exact fdiv_of_finite_by_zero hfa ha0 hb

/-- Settles O29: the equations of the four operations, row by row. -/
theorem specialResults : Obligations.SpecialResults := by
  intro x y hx hy sx
  refine ⟨fadd_of_exact_zero, fsub_self_of_finite, fun hfy => ⟨?_, ?_, ?_, ?_⟩, by decide, by decide, by decide, by decide,
    by decide, by decide, f32Neg_fmul hx hy, fun hx0 hfy => ?_, fun hix hy0 => ?_, fun hx0 hiy => ?_,
    fun hfy hy0 hfx => ?_, fun hfy hy0 hx0 => ?_, fun hy0 hx0 => ?_, fdiv_of_zero_by_zero, fdiv_of_inf_by_inf,
    fun hfx hiy => ?_, fun hix hfy => ?_⟩
  · exact fadd_of_inf_left (by decide) hfy
  · exact fadd_of_inf_left (by decide) hfy
  · exact fadd_of_inf_right hfy (by decide)
  · exact fadd_of_inf_right hfy (by decide)
  · have h := (fmul_of_mag_zero hx0 hfy).trans (signedZero_eq _)
    exact ⟨h, (fmul_comm y x).trans h⟩
  · have h := (fmul_of_inf hix hy hy0).trans (signedInf_eq _)
    exact ⟨h, (fmul_comm y x).trans h⟩
  · have h := fmul_of_mag_zero_of_inf hx0 hiy
    exact ⟨h, (fmul_comm y x).trans h⟩
  · rw [fdiv_of_finite hfx hfy hy0, f32Neg_roundF32]
  · exact (fdiv_of_mag_zero hx0 hfy hy0).trans (signedZero_eq _)
  · exact (fdiv_by_zero hx hx0 hy0).trans (signedInf_eq _)
  · exact (fdiv_of_finite_by_inf hfx hiy).trans (signedZero_eq _)
  · exact (fdiv_of_inf_by_finite hix hfy).trans (signedInf_eq _)

/-! ## NaN operands and NaN results (R103) -/

theorem fdiv_nan_left (h : f32IsNaN a = true) (b : F32) : fdiv a b = fNAN := by simp [fdiv, h]

theorem fdiv_nan_right (h : f32IsNaN b = true) (a : F32) : fdiv a b = fNAN := by simp [fdiv, h]

/-- If `r` is a NaN, it is the canonical one. -/
def CanonicalIfNaN (r : F32) : Prop := f32IsNaN r = true → r = fNAN

theorem canonicalIfNaN_fNAN : CanonicalIfNaN fNAN := fun _ => rfl

theorem canonicalIfNaN_of_isNaN_eq_false {r : F32} (h : f32IsNaN r = false) : CanonicalIfNaN r :=
  fun hn => absurd hn (by simp [h])

@[simp] theorem f32IsNaN_faddFinite (a b : F32) : f32IsNaN (faddFinite a b) = false := by
  rw [faddFinite]
  split
  · exact f32IsNaN_signedZero _
  · exact f32IsNaN_roundF32 ..

theorem canonicalIfNaN_fadd (a b : F32) : CanonicalIfNaN (fadd a b) := by
  unfold fadd
  split_ifs
  · exact canonicalIfNaN_fNAN
  · exact canonicalIfNaN_fNAN
  · exact canonicalIfNaN_of_isNaN_eq_false (by simp_all)
  · exact canonicalIfNaN_of_isNaN_eq_false (by simp_all)
  · exact canonicalIfNaN_of_isNaN_eq_false (f32IsNaN_faddFinite a b)

theorem canonicalIfNaN_fmul (a b : F32) : CanonicalIfNaN (fmul a b) := by
  unfold fmul
  split_ifs
  · exact canonicalIfNaN_fNAN
  · exact canonicalIfNaN_fNAN
  · exact canonicalIfNaN_of_isNaN_eq_false (f32IsNaN_signedInf _)
  · exact canonicalIfNaN_of_isNaN_eq_false (f32IsNaN_roundF32 ..)

theorem canonicalIfNaN_fdiv (a b : F32) : CanonicalIfNaN (fdiv a b) := by
  unfold fdiv
  split_ifs
  · exact canonicalIfNaN_fNAN
  · exact canonicalIfNaN_fNAN
  · exact canonicalIfNaN_of_isNaN_eq_false (f32IsNaN_signedInf _)
  · exact canonicalIfNaN_of_isNaN_eq_false (f32IsNaN_signedZero _)
  · exact canonicalIfNaN_fNAN
  · exact canonicalIfNaN_of_isNaN_eq_false (f32IsNaN_signedInf _)
  · exact canonicalIfNaN_of_isNaN_eq_false (f32IsNaN_roundF32 ..)

theorem canonicalIfNaN_trigOf {z : F32} (hz : TrigValue z) (raw : F32 → F32) (a : F32) :
    CanonicalIfNaN (trigOf raw z a) := by
  cases ha : f32IsFinite a
  · rw [trigOf_notFinite ha]
    exact canonicalIfNaN_fNAN
  · exact canonicalIfNaN_of_isNaN_eq_false (f32IsNaN_of_isFinite (trigValue_trigOf hz raw ha).1)

end

/-! ## A NaN in a recursive state -/

theorem pt1Next_of_nan {p : Pt1Slot} (h : f32IsNaN p.state = true) (x : F32) : pt1Next p x = fNAN := fadd_nan_left h _

theorem firPushedAvg_of_nan {f : FirSlot} (h : f32IsNaN f.movingSum = true) (old x : F32) :
    (firPushedAvg f old x).movingSum = fNAN := by
  rw [firPushedAvg, fsub_nan_left h, fadd_nan_left f32IsNaN_fNAN]

section
variable {S S' : Section} {v r : F32}

/-- Each of the four state fields enters the sum of DF1, and no later term takes a NaN out of it. -/
theorem df1_of_nan
    (h : f32IsNaN S.x1 = true ∨ f32IsNaN S.x2 = true ∨ f32IsNaN S.y1 = true ∨ f32IsNaN S.y2 = true) (x : F32) :
    (df1 S x).1 = fNAN := by
  unfold df1
  rcases h with h | h | h | h
  · simp only [fmul_nan_right h, fadd_nan_right, fadd_nan_left, fsub_nan_left, f32IsNaN_fNAN]
  · simp only [fmul_nan_right h, fadd_nan_right, fsub_nan_left, f32IsNaN_fNAN]
  · simp only [fmul_nan_right h, fsub_nan_right, fsub_nan_left, f32IsNaN_fNAN]
  · simp only [fmul_nan_right h, fsub_nan_right, f32IsNaN_fNAN]

theorem isDf2t_df2t (S : Section) (x : F32) : IsDf2t S x (df2t S x).1 (df2t S x).2 := ⟨rfl, rfl⟩

/-- DF2T: a NaN input or a NaN `x1` reaches the output. -/
theorem isDf2t_out_nan (h : IsDf2t S v r S') (hn : f32IsNaN v = true ∨ f32IsNaN S.x1 = true) : r = fNAN := by
  rw [h.1]
  rcases hn with hv | hx1
  · rw [fmul_nan_right hv, fadd_nan_left f32IsNaN_fNAN]
  · exact fadd_nan_right hx1 _

/-- DF2T: a NaN output or a NaN `x2` reaches the next `x1`. -/
theorem isDf2t_x1_nan (h : IsDf2t S v r S') (hn : f32IsNaN r = true ∨ f32IsNaN S.x2 = true) : f32IsNaN S'.x1 = true := by
  have hx1 : S'.x1 = fadd (fsub (fmul S.b1 v) (fmul S.a1 r)) S.x2 := congrArg Section.x1 h.2
  rw [hx1]
  rcases hn with hr | hx2
  · rw [fmul_nan_right hr, fsub_nan_right f32IsNaN_fNAN, fadd_nan_left f32IsNaN_fNAN, f32IsNaN_fNAN]
  · rw [fadd_nan_right hx2, f32IsNaN_fNAN]

theorem df2t_of_x1_nan (h : f32IsNaN S.x1 = true) (x : F32) :
    (df2t S x).1 = fNAN ∧ f32IsNaN (df2t S x).2.x1 = true := by
  have hout := isDf2t_out_nan (isDf2t_df2t S x) (.inr h)
  exact ⟨hout, isDf2t_x1_nan (isDf2t_df2t S x) (.inl (by rw [hout, f32IsNaN_fNAN]))⟩

theorem df2t_of_x2_nan (h : f32IsNaN S.x2 = true) (x : F32) : f32IsNaN (df2t S x).2.x1 = true :=
  isDf2t_x1_nan (isDf2t_df2t S x) (.inr h)

end

section
variable {c : CasSlot} {j : Fin 6} (hc : c.sections.toNat ≤ 6) (hj : j.val < c.sections.toNat)
include hc hj

/-- A cascade: from the section with a NaN `x1` on every value handed on is NaN, and with it every `x1` left behind. -/
theorem casApply_of_x1_nan (h : f32IsNaN c.sec[j].x1 = true) (x : F32) :
    (casApply c x).1 = fNAN ∧
      ∀ k : Fin 6, j ≤ k → k.val < c.sections.toNat → f32IsNaN (casApply c x).2.sec[k].x1 = true := by
  obtain ⟨v, -, hout, hsec, -⟩ := casLoop_spec c.sections.toNat 0 c.sec x (by omega)
  rw [Nat.zero_add] at hout hsec
  have hchain : ∀ n, j.val + 1 ≤ n → n ≤ c.sections.toNat → v n = fNAN := by
    intro n hn
    induction n, hn using Nat.le_induction with
    | base => exact fun _ => isDf2t_out_nan (hsec j j.val.zero_le hj) (.inr h)
    | succ n hn ih =>
      intro hlt
      exact isDf2t_out_nan (hsec ⟨n, by omega⟩ n.zero_le hlt) (.inl (by rw [ih (by omega), f32IsNaN_fNAN]))
  refine ⟨hout.trans (hchain _ hj le_rfl), fun k hjk hk => ?_⟩
  have hjk' : j.val ≤ k.val := hjk
  exact isDf2t_x1_nan (hsec k k.val.zero_le hk) (.inl (by rw [hchain _ (by omega) hk, f32IsNaN_fNAN]))

theorem casApply_of_x2_nan (h : f32IsNaN c.sec[j].x2 = true) (x : F32) :
    f32IsNaN (casApply c x).2.sec[j].x1 = true := by
  obtain ⟨v, -, -, hsec, -⟩ := casLoop_spec c.sections.toNat 0 c.sec x (by omega)
  exact isDf2t_x1_nan (hsec j j.val.zero_le (by omega)) (.inr h)

end

/-- Settles O30: NaN operands, the invalid operations of R102, the results, and the recursive states one by one. -/
theorem canonicalNan : Obligations.CanonicalNan := by
  refine ⟨fun a b h => ?_, fun a b => ⟨fadd_of_opposite_inf, fsub_of_equal_inf, fun ha hb => ?_, fdiv_of_zero_by_zero,
      fdiv_of_inf_by_inf⟩, fun a h => ?_, fun a b => ⟨canonicalIfNaN_fadd a b, canonicalIfNaN_fadd a (fneg b),
      canonicalIfNaN_fmul a b, canonicalIfNaN_fdiv a b, canonicalIfNaN_trigOf trigValue_fZERO _ a,
      canonicalIfNaN_trigOf trigValue_fONE _ a⟩, fun _ x h => pt1Next_of_nan h x,
    fun _ old x h => firPushedAvg_of_nan h old x, fun S x h => ?_,
    fun _ x => ⟨fun h => df2t_of_x1_nan h x, fun h => df2t_of_x2_nan h x⟩,
    fun _ x _ hc hj => ⟨fun h => casApply_of_x1_nan hc hj h x, fun h => casApply_of_x2_nan hc hj h x⟩⟩
  · rcases h with h | h
    · exact ⟨fadd_nan_left h b, fsub_nan_left h b, fmul_nan_left h b, fdiv_nan_left h b⟩
    · exact ⟨fadd_nan_right h a, fsub_nan_right h a, fmul_nan_right h a, fdiv_nan_right h a⟩
  · have h := fmul_of_mag_zero_of_inf ha hb
    exact ⟨h, (fmul_comm b a).trans h⟩
  · exact ⟨trigOf_notFinite (f32IsFinite_of_isNaN h) .., trigOf_notFinite (f32IsFinite_of_isNaN h) ..⟩
  · have hout := df1_of_nan h x
    exact ⟨hout, by rw [show (df1 S x).2.y1 = (df1 S x).1 from rfl, hout, f32IsNaN_fNAN]⟩

end Sys2Proof.Machine
end

section
/-! # The base commands (41_base.md R120 to R127)

The clauses on words are the same for every command: which words with its `op` are illegal, and how the seven fields of
its word read in the command's own format. The state-space commands go through the table of 10_state.md R37: which pairs
are defined, and that the field of a pair has as many slots as the pair's unit. -/

namespace Sys2Proof.Machine

open Sys2Proof.Safety

/-! ## Words (R81 to R89) -/

/-- A word with the `op` of a row and a bit set that the row does not use is illegal (R89 (b)). -/
theorem illegalUnless_opMask (op : Op) : IllegalUnless (opByte op) (opMask op) := by
  intro s w rest hf hq hop hne
  have hmatch : opMatch op = opByte op ++ 0#24 := by cases op <;> rfl
  obtain ⟨e, hd⟩ := (illegal_iff w).2 (.inr (.inl ⟨op, hop.symm, hmatch ▸ hne⟩))
  exact ⟨_, step_of_illegal hf hq hd, rfl⟩

section

variable (op : BitVec 8) (sl rd ra rb rc re : BitVec 4)

/-- Format S, where `fld` is `rc ‖ re` (R83). -/
theorem wordOf_join_fld : wordOf ⟨op, sl, rd, ra, rb, rc, re⟩ = op ++ sl ++ rd ++ ra ++ rb ++ (rc ++ re) :=
  BitVec.append_assoc

/-- The three low fields as one. -/
theorem wordOf_join_low : wordOf ⟨op, sl, rd, ra, rb, rc, re⟩ = op ++ sl ++ rd ++ ra ++ (rb ++ rc ++ re) := by
  have hlow : rb ++ rc ++ re = rb ++ (rc ++ re) := BitVec.append_assoc
  rw [wordOf_join_fld, hlow]
  exact BitVec.append_assoc

/-- Format I, where `imm16` is `ra ‖ rb ‖ rc ‖ re` (R82). -/
theorem wordOf_join_imm : wordOf ⟨op, sl, rd, ra, rb, rc, re⟩ = op ++ sl ++ rd ++ (ra ++ rb ++ rc ++ re) := by
  have himm : ra ++ rb ++ rc ++ re = ra ++ (rb ++ rc ++ re) := calc
    ra ++ rb ++ rc ++ re = ra ++ rb ++ (rc ++ re) := BitVec.append_assoc
    _ = ra ++ (rb ++ (rc ++ re)) := BitVec.append_assoc
    _ = ra ++ (rb ++ rc ++ re) := congrArg (ra ++ ·) (BitVec.append_assoc (x₁ := rb)).symm
  rw [wordOf_join_low, himm]
  exact BitVec.append_assoc

end

/-- The word of a command of format I. -/
theorem wordOf_imm16 (op : BitVec 8) (sl rd : BitVec 4) (imm : BitVec 16) :
    wordOf ⟨op, sl, rd, imm.extractLsb' 12 4, imm.extractLsb' 8 4, imm.extractLsb' 4 4, imm.extractLsb' 0 4⟩ =
      op ++ sl ++ rd ++ imm := by
  rw [wordOf_join_imm, imm16_nibbles]

/-- The word of a command of format S. -/
theorem wordOf_fld (op : BitVec 8) (sl rd ra un : BitVec 4) (fld : BitVec 8) :
    wordOf ⟨op, sl, rd, ra, un, fld.extractLsb' 4 4, fld.extractLsb' 0 4⟩ = op ++ sl ++ rd ++ ra ++ un ++ fld := by
  rw [wordOf_join_fld, fld_nibbles]

/-! ## Moves and memory (R120 to R125) -/

/-- Settles O35: none of the four has a check, so each answers the state it completes in. -/
theorem moveCommands : Obligations.MoveCommands := fun _ _ _ _ =>
  ⟨illegalUnless_opMask .nop, illegalUnless_opMask .lih, rfl, wordOf_imm16 .., illegalUnless_opMask .lil,
    illegalUnless_opMask .mov, wordOf_imm16 .., wordOf_join_low .., rfl, rfl, rfl, rfl⟩

theorem exec_rdm_of_ge {s : State} {rd ra : Reg} (h : s.memWords ≤ (readReg s ra).toNat) :
    exec (.rdm rd ra) s = raise .memRange (.rdm rd ra) (readReg s ra) s := if_neg (Nat.not_lt.2 h)

theorem exec_wrm_of_ge {s : State} {ra rb : Reg} (h : s.memWords ≤ (readReg s ra).toNat) :
    exec (.wrm ra rb) s = raise .memRange (.wrm ra rb) (readReg s ra) s := if_neg (Nat.not_lt.2 h)

theorem memRead_memWrite (a b : Nat) (v : Word) (s : State) :
    memRead (memWrite a v s) b = if b = a then v else memRead s b := by
  split
  · next h => rw [h, memRead_memWrite_same]
  · next h => exact memRead_memWrite_other h v s

/-- Settles O36: the one check is on the address; past it the word is read or written. -/
theorem memoryCommands : Obligations.MemoryCommands := fun _ ra rb s =>
  ⟨illegalUnless_opMask .rdm, illegalUnless_opMask .wrm, wordOf_join_low .., wordOf_join_fld 0x06 0 0 ra rb 0 0,
    fun h => ⟨faultsWith_of_raise (exec_rdm_of_ge h), faultsWith_of_raise (exec_wrm_of_ge h)⟩,
    fun h => ⟨exec_rdm_of_lt h, _, exec_wrm_of_lt h, rfl, fun a => memRead_memWrite _ a _ s⟩⟩

/-! ## The table of the state space (10_state.md R36, R37) -/

theorem coreRegOf_isSome : ∀ {n : Nat}, (coreRegOf n).isSome ↔ n ≤ 8
  | 0 | 1 | 2 | 3 | 4 | 5 | 6 | 7 | 8 => by decide
  | n + 9 => by simp [coreRegOf]

theorem secFieldOf_isSome : ∀ {n : Nat}, (secFieldOf n).isSome ↔ 1 ≤ n ∧ n ≤ 9
  | 0 | 1 | 2 | 3 | 4 | 5 | 6 | 7 | 8 | 9 => by decide
  | n + 10 => by simp [secFieldOf]

theorem bqFieldOf_isSome {n : Nat} : (bqFieldOf n).isSome ↔ n ≤ 9 := by
  unfold bqFieldOf
  split
  · simp [*]
  · rw [Option.isSome_map, secFieldOf_isSome]
    omega

/-- The field numbers of the sections are `0x10·(i+1) + j`: their two nibbles are `i + 1` and `j`. -/
theorem casFieldOf_isSome {n : Nat} : (casFieldOf n).isSome ↔
    n ≤ 1 ∨ ∃ i < 6, ∃ j, 1 ≤ j ∧ j ≤ 9 ∧ n = 16 * (i + 1) + j := by
  have hnibbles : (∃ i < 6, ∃ j, 1 ≤ j ∧ j ≤ 9 ∧ n = 16 * (i + 1) + j) ↔
      n / 16 - 1 < 6 ∧ n / 16 ≠ 0 ∧ 1 ≤ n % 16 ∧ n % 16 ≤ 9 := by
    constructor
    · rintro ⟨i, hi, j, hj, hj', rfl⟩
      omega
    · rintro ⟨hi, h0, hj, hj'⟩
      exact ⟨n / 16 - 1, hi, n % 16, hj, hj', by omega⟩
  rw [hnibbles]
  unfold casFieldOf
  split_ifs
  · simp [*]
  · simp [*]
  · simp only [Option.isSome_none, Bool.false_eq_true, false_iff]
    omega
  · rw [Option.isSome_map, secFieldOf_isSome]
    omega
  · simp only [Option.isSome_none, Bool.false_eq_true, false_iff]
    omega

/-- The field `j` of section `i` (R37). -/
theorem casFieldOf_section (i : Fin 6) {j : Nat} {g : SecField} (h : secFieldOf j = some g) :
    casFieldOf (BitVec.ofNat 8 (0x10 * (i.val + 1) + j)).toNat = some (.casSec i g) := by
  obtain ⟨hj, hj'⟩ := secFieldOf_isSome.1 (Option.isSome_of_eq_some h)
  have hn : (BitVec.ofNat 8 (0x10 * (i.val + 1) + j)).toNat = 0x10 * (i.val + 1) + j := by
    rw [BitVec.toNat_ofNat, Nat.mod_eq_of_lt (by omega)]
  have hhigh : (0x10 * (i.val + 1) + j) / 16 = i.val + 1 := by omega
  have hlow : (0x10 * (i.val + 1) + j) % 16 = j := by omega
  rw [hn, casFieldOf, if_neg (by omega), if_neg (by omega), dif_pos (by omega), if_neg (by omega)]
  simp [hhigh, hlow, h]

theorem pt1FieldOf_isSome : ∀ {n : Nat}, (pt1FieldOf n).isSome ↔ n ≤ 2
  | 0 | 1 | 2 => by decide
  | n + 3 => by simp [pt1FieldOf]

theorem firFieldOf_isSome : ∀ {n : Nat}, (firFieldOf n).isSome ↔ n ≤ 7
  | 0 | 1 | 2 | 3 | 4 | 5 | 6 | 7 => by decide
  | n + 8 => by simp [firFieldOf]

theorem slewFieldOf_isSome : ∀ {n : Nat}, (slewFieldOf n).isSome ↔ n ≤ 3
  | 0 | 1 | 2 | 3 => by decide
  | n + 4 => by simp [slewFieldOf]

/-- The defined pairs, unit by unit. -/
theorem fieldPairDefined_iff (un : BitVec 4) (fld : BitVec 8) : fieldPairDefined un fld = true ↔
    (un = 0 ∧ fld.toNat ≤ 8) ∨ (un = 1 ∧ fld.toNat ≤ 9) ∨
    (un = 2 ∧ (fld.toNat ≤ 1 ∨ ∃ i < 6, ∃ j, 1 ≤ j ∧ j ≤ 9 ∧ fld.toNat = 16 * (i + 1) + j)) ∨
    (un = 3 ∧ fld.toNat ≤ 2) ∨ (un = 4 ∧ fld.toNat ≤ 7) ∨ (un = 5 ∧ fld.toNat ≤ 3) := by
  simp only [← BitVec.toNat_inj (x := un)]
  unfold fieldPairDefined fieldOf
  split <;> rename_i hun
  case h_1 => simpa [hun] using coreRegOf_isSome
  case h_2 => simpa [hun] using bqFieldOf_isSome
  case h_3 => simpa [hun] using casFieldOf_isSome
  case h_4 => simpa [hun] using pt1FieldOf_isSome
  case h_5 => simpa [hun] using firFieldOf_isSome
  case h_6 => simpa [hun] using slewFieldOf_isSome
  case h_7 =>
    simp only [imp_false] at *
    simp [*]

theorem fieldPairDefined_eq_true {un : BitVec 4} {fld : BitVec 8} :
    fieldPairDefined un fld = true ↔ ∃ f, fieldOf un fld = some f := Option.isSome_iff_exists

theorem fieldPairDefined_eq_false {un : BitVec 4} {fld : BitVec 8} :
    fieldPairDefined un fld = false ↔ fieldOf un fld = none :=
  Option.isSome_eq_false_iff.trans Option.isNone_iff_eq_none

/-- The units of defined pairs are 0 to 5. -/
theorem unit_le_of_fieldOf {un : BitVec 4} {fld : BitVec 8} {f : Field} (h : fieldOf un fld = some f) :
    un.toNat ≤ 5 := by
  unfold fieldOf at h
  split at h
  case h_7 => cases h
  all_goals omega

/-- The number of slots of a unit; where there is none, the one block of the core registers (R37). -/
def slotCount (s : State) : Option UnitName → Nat
  | none => 1
  | some .bq => s.bq.length
  | some .cas => s.cas.length
  | some .pt1 => s.pt1.length
  | some .fir => s.fir.length
  | some .slew => s.slew.length

theorem fieldSlots_eq_slotCount (s : State) (f : Field) : fieldSlots s f = slotCount s (fieldUnit f) := by
  cases f <;> rfl

theorem unitSlots_eq_slotCount (s : State) {un : BitVec 4} (h : un.toNat ≤ 5) :
    unitSlots s un = slotCount s (unitOf un) := by
  unfold unitSlots unitOf
  split <;> simp only [slotCount, *]
  simp only [imp_false] at *
  omega

/-- The field of a pair has as many slots as the unit of the pair. -/
theorem fieldSlots_eq_unitSlots {un : BitVec 4} {fld : BitVec 8} {f : Field} (h : fieldOf un fld = some f) (s : State) :
    fieldSlots s f = unitSlots s un := by
  rw [fieldSlots_eq_slotCount, unitSlots_eq_slotCount s (unit_le_of_fieldOf h), unitOf_eq_fieldUnit h]

/-! ## RDS (R126) -/

section

variable {s : State} {sl : SlotNo} {un : BitVec 4} {fld : BitVec 8} {f : Field}

theorem exec_rds_of_undefined (h : fieldOf un fld = none) (rd : Reg) :
    exec (.rds sl rd un fld) s = raise .illegal (.rds sl rd un fld) (encode (.rds sl rd un fld)) s := by
  simp only [exec, execRds, h]

theorem exec_rds_of_noSlot (h : fieldOf un fld = some f) (hsl : unitSlots s un ≤ sl.toNat) (rd : Reg) :
    exec (.rds sl rd un fld) s = raise .slotRange (.rds sl rd un fld) (slotInfo sl) s := by
  have hnone : readField s f sl.toNat = none := readField_eq_none.2 (fieldSlots_eq_unitSlots h s ▸ hsl)
  simp only [exec, execRds, h, hnone]

/-- A field that reads as `v` is what `RDS` gives. -/
theorem rdsGives_of_readField {v : Word} (h : fieldOf un fld = some f) (hv : readField s f sl.toNat = some v) :
    RdsGives s un sl fld v := by
  intro rd
  simp only [exec, execRds, h, hv]
  rfl

end

/-- Joined bit vectors are the digits of a number. -/
theorem toNat_append_eq_add {m n : Nat} (x : BitVec m) (y : BitVec n) :
    (x ++ y).toNat = x.toNat * 2 ^ n + y.toNat := by
  rw [BitVec.toNat_append, ← Nat.shiftLeft_add_eq_or_of_lt y.isLt, Nat.shiftLeft_eq]

/-- `CFG_SLOTS` as a number: counts of at most 16 do not run into each other (R36). -/
theorem cfgSlots_eq {s : State} (h : (configOf s).Legal) :
    cfgSlots s = BitVec.ofNat 32 (s.bq.length + 2 ^ 5 * s.cas.length + 2 ^ 10 * s.pt1.length + 2 ^ 15 * s.fir.length +
      2 ^ 20 * s.slew.length) := by
  obtain ⟨⟨-, hbq⟩, ⟨-, hcas⟩, ⟨-, hpt1⟩, ⟨-, hfir⟩, ⟨-, hslew⟩, -⟩ := h
  apply BitVec.eq_of_toNat_eq
  simp only [cfgSlots, toNat_append_eq_add, BitVec.toNat_ofNat]
  simp only [configOf] at *
  omega

/-- Settles O37: the table of R37 unit by unit, the two checks, and the field each defined pair names. -/
theorem readStateSpace : Obligations.ReadStateSpace := by
  intro s sl
  refine ⟨illegalUnless_opMask .rds, fun _ _ _ => wordOf_fld .., fieldPairDefined_iff, fun rd _ _ h => ?_,
    fun rd _ _ h hsl => ?_, ?_, fun b hb => ?_, fun c hc => ?_, fun p hp => ?_, fun f hf => ?_, fun c hc => ?_⟩
  · exact faultsWith_of_raise (exec_rds_of_undefined (fieldPairDefined_eq_false.1 h) rd)
  · obtain ⟨f, hf⟩ := fieldPairDefined_eq_true.1 h
    exact faultsWith_of_raise (exec_rds_of_noSlot hf hsl rd)
  · refine ⟨?_, ?_, ?_, ?_, ?_, ?_, ?_, fun hlegal => ?_, ?_⟩
    case refine_8 => exact rdsGives_of_readField rfl (congrArg some (cfgSlots_eq hlegal))
    all_goals exact rdsGives_of_readField rfl rfl
  · and_intros <;> exact rdsGives_of_readField rfl (congrArg (Option.map _) hb)
  · refine ⟨?_, ?_, fun i => ?_⟩
    case refine_3 =>
      and_intros <;> exact rdsGives_of_readField (casFieldOf_section i rfl) (congrArg (Option.map _) hc)
    all_goals exact rdsGives_of_readField rfl (congrArg (Option.map _) hc)
  · and_intros <;> exact rdsGives_of_readField rfl (congrArg (Option.map _) hp)
  · and_intros <;> exact rdsGives_of_readField rfl (congrArg (Option.map _) hf)
  · and_intros <;> exact rdsGives_of_readField rfl (congrArg (Option.map _) hc)

/-! ## WRS (R127) -/

/-- The one field that `WRS` may write is named by one pair. -/
theorem pair_of_fieldOf_pt1State {un : BitVec 4} {fld : BitVec 8} (h : fieldOf un fld = some .pt1State) :
    un = 3 ∧ fld = 0x01 := by
  have hun : un = 3 := by
    have hunit : unitOf un = some .pt1 := unitOf_eq_fieldUnit h
    unfold unitOf at hunit
    split at hunit <;> cases hunit
    exact BitVec.eq_of_toNat_eq (by assumption)
  subst hun
  replace h : pt1FieldOf fld.toNat = some .pt1State := h
  unfold pt1FieldOf at h
  split at h <;> cases h
  exact ⟨rfl, BitVec.eq_of_toNat_eq (by assumption)⟩

section

variable {s : State} {sl : SlotNo} {un : BitVec 4} {fld : BitVec 8} {f : Field}

theorem exec_wrs_of_undefined (h : fieldOf un fld = none) (ra : Reg) :
    exec (.wrs sl ra un fld) s = raise .illegal (.wrs sl ra un fld) (encode (.wrs sl ra un fld)) s := by
  simp only [exec, execWrs, h]

theorem exec_wrs_of_noSlot (h : fieldOf un fld = some f) (hsl : unitSlots s un ≤ sl.toNat) (ra : Reg) :
    exec (.wrs sl ra un fld) s = raise .slotRange (.wrs sl ra un fld) (slotInfo sl) s := by
  simp only [exec, execWrs, h, fieldSlots_eq_unitSlots h, hsl, if_true]

theorem exec_wrs_of_readOnly (h : fieldOf un fld = some f) (hsl : sl.toNat < unitSlots s un) (hf : f ≠ .pt1State)
    (ra : Reg) :
    exec (.wrs sl ra un fld) s = raise .stateAccess (.wrs sl ra un fld) (fieldInfo un fld) s := by
  simp [exec, execWrs, h, fieldSlots_eq_unitSlots h, Nat.not_le.2 hsl, fieldWritable, hf]

theorem exec_wrs_of_pt1State {p : Pt1Slot} (h : fieldOf un fld = some .pt1State) (hp : s.pt1[sl.toNat]? = some p)
    (ra : Reg) :
    exec (.wrs sl ra un fld) s = complete (putPt1 sl { p with state := readReg s ra } s) := by
  obtain ⟨hsl, -⟩ := List.getElem?_eq_some_iff.1 hp
  simp [exec, execWrs, h, fieldSlots, Nat.not_le.2 hsl, fieldWritable, writePt1State, hp]

end

/-- Settles O38: each check fails with the earlier ones passed; with none failing the pair is that of `PT1.state`. -/
theorem writeStateSpace : Obligations.WriteStateSpace := by
  intro sl ra un fld s
  refine ⟨illegalUnless_opMask .wrs, wordOf_fld .., fun h => ?_, fun h hsl => ?_, fun h hsl hpair => ?_,
    fun p hp => exec_wrs_of_pt1State rfl hp ra⟩
  · exact faultsWith_of_raise (exec_wrs_of_undefined (fieldPairDefined_eq_false.1 h) ra)
  · obtain ⟨f, hf⟩ := fieldPairDefined_eq_true.1 h
    exact faultsWith_of_raise (exec_wrs_of_noSlot hf hsl ra)
  · obtain ⟨f, hf⟩ := fieldPairDefined_eq_true.1 h
    have hro : f ≠ .pt1State := by
      rintro rfl
      exact hpair (pair_of_fieldOf_pt1State hf)
    exact faultsWith_of_raise (exec_wrs_of_readOnly hf hsl hro ra)

end Sys2Proof.Machine
end

section
/-! # The biquad commands (42_biquad.md R140 to R148)

A command on a slot has at most two checks, in the order of 60_exceptions.md R212: the slot exists, the slot is valid. What
it answers in each case is said once, for the slots of any unit; a command is then its arm of `exec` and the state it
completes in. -/

namespace Sys2Proof.Machine

open Sys2Proof.Safety

/-! ## The two checks of a command on a slot -/

section

variable {α : Type} {slots : List α} {a : α} {i : Instr} {sl : SlotNo} {s : State}

theorem faultsWith_of_noSlot {k : α → Result} (hexec : exec i s = withSlot slots i sl s k)
    (hsl : slots.length ≤ sl.toNat) : FaultsWith .slotRange (slotInfo sl) i s :=
  faultsWith_of_raise (hexec.trans (withSlot_none hsl i s k))

theorem faultsWith_of_notValid {valid : α → Bool} {k : α → Result}
    (hexec : exec i s = withSlot slots i sl s fun a => needValid (valid a) i sl s (k a))
    (ha : slots[sl.toNat]? = some a) (hv : valid a = false) : FaultsWith .notInit (slotInfo sl) i s := by
  refine faultsWith_of_raise (hexec.trans ?_)
  rw [withSlot_some ha, hv, needValid_false]

/-- A command without the second check runs on every slot there is. -/
theorem exec_of_slot {k : Result} (hexec : exec i s = withSlot slots i sl s fun _ => k) (hsl : sl.toNat < slots.length) :
    exec i s = k :=
  hexec.trans (withSlot_some (List.getElem?_eq_getElem hsl) i s _)

theorem exec_of_validSlot {valid : α → Bool} {k : α → Result}
    (hexec : exec i s = withSlot slots i sl s fun a => needValid (valid a) i sl s (k a))
    (ha : slots[sl.toNat]? = some a) (hv : valid a = true) : exec i s = k a := by
  rw [hexec, withSlot_some ha, hv, needValid_true]

end

/-- A valid slot with a new section is still valid. -/
theorem BqSlot.withSec_of_valid {b : BqSlot} (hv : b.valid = true) (S : Section) : { b with sec := S } = ⟨true, S⟩ := by
  rw [hv]

/-! ## Coefficients (R141, R148) -/

/-- Settles O39: each type's row of R141 is the function's own case, and that of `LPF1` has no `Q`. -/
theorem coefficientDerivation : Obligations.CoefficientDerivation := fun _ _ _ _ =>
  ⟨⟨rfl, rfl⟩, rfl, rfl, rfl⟩

/-- Settles O45: the command has no check, so it answers the state it completes in. -/
theorem notchQuality : Obligations.NotchQuality := fun rd ra rb _ =>
  ⟨illegalUnless_opMask .notchq, wordOf_join_fld 0x15 0 rd ra rb 0 0, rfl⟩

/-! ## Setting up a slot (R142 to R145) -/

/-- Settles O40: the one check is on the slot number; past it the slot is fresh, whatever it held. -/
theorem biquadInit : Obligations.BiquadInit := fun sl ra rb _ _ _ =>
  ⟨illegalUnless_opMask .bqinitlpf, wordOf_join_fld 0x10 sl 0 ra rb 0 0, illegalUnless_opMask .bqinit,
    rfl, rfl, rfl, rfl, fun hsl => ⟨faultsWith_of_noSlot rfl hsl, faultsWith_of_noSlot rfl hsl⟩,
    fun hsl => ⟨exec_of_slot rfl hsl, exec_of_slot rfl hsl⟩⟩

/-- Settles O41: both checks, then `retune`, which writes the coefficients and no other field of the section. -/
theorem biquadUpdate : Obligations.BiquadUpdate := by
  intro sl ra rb rc ty s
  refine ⟨illegalUnless_opMask .bqupd, rfl, rfl, rfl, rfl, faultsWith_of_noSlot rfl,
    fun _ => faultsWith_of_notValid rfl, fun b hb hv => (exec_of_validSlot rfl hb hv).trans ?_⟩
  rw [BqSlot.withSec_of_valid hv]
  rfl

/-- Settles O42: as `BQINIT`, with the coefficients computed from the gain. -/
theorem biquadRcfir2 : Obligations.BiquadRcfir2 := fun _ _ _ =>
  ⟨illegalUnless_opMask .bqrcfir2, wordOf_join_low .., faultsWith_of_noSlot rfl, exec_of_slot rfl⟩

/-! ## Running a slot (R146, R147) -/

/-- Settles O43: both checks, then `df1`. -/
theorem biquadDf1 : Obligations.BiquadDf1 := by
  intro sl rd ra s
  refine ⟨illegalUnless_opMask .bqdf1, wordOf_join_low .., faultsWith_of_noSlot rfl,
    fun _ => faultsWith_of_notValid rfl, fun b hb hv => (exec_of_validSlot rfl hb hv).trans ?_⟩
  rw [BqSlot.withSec_of_valid hv]
  rfl

/-- Settles O44: both checks, then `df2t`, which is the recurrence of R147 (`isDf2t_df2t`). -/
theorem biquadApply : Obligations.BiquadApply := by
  intro sl rd ra s
  refine ⟨illegalUnless_opMask .bqapply, wordOf_join_low .., faultsWith_of_noSlot rfl,
    fun _ => faultsWith_of_notValid rfl,
    fun b hb hv => ⟨_, _, isDf2t_df2t b.sec (readReg s ra), (exec_of_validSlot rfl hb hv).trans ?_⟩⟩
  rw [BqSlot.withSec_of_valid hv]
  rfl

end Sys2Proof.Machine
end

section
/-! # The cascade commands (43_cascade.md R160 to R163)

The checks are those of the biquad commands. `CASINIT` has the two cases of `casInitSlot`, and what it makes of a
section depends on whether the section has a Q in the row of its order; what `CASAPPLY` does to the sections is
`casLoop_spec`. -/

namespace Sys2Proof.Machine

open Sys2Proof.Safety

/-! ## CASINIT (R161, R162) -/

theorem orderInvalid_iff {order : Word} :
    orderInvalid order = true ↔ order.toNat = 0 ∨ order.toNat % 2 = 1 ∨ 12 < order.toNat := by
  have hodd : order.getLsbD 0 = decide (order.toNat % 2 = 1) := Nat.testBit_zero _
  have hzero : order = 0 ↔ order.toNat = 0 := BitVec.toNat_inj.symm
  simp only [orderInvalid, hodd, Bool.or_eq_true, beq_iff_eq, hzero, decide_eq_true_eq, or_assoc]

/-- The row of a valid order has one Q for each section it configures. -/
theorem qtab_length {n : Nat} (heven : n % 2 = 0) (hle : n ≤ 12) : (qtab n).length = n / 2 := by
  unfold qtab
  split
  case h_7 =>
    simp only [imp_false] at *
    have hzero : n = 0 := by omega
    rw [hzero, List.length_nil]
  all_goals rfl

section

variable {order : Word} (freq rate : F32) (c : CasSlot)

theorem casInitSlot_of_invalid (h : orderInvalid order = true) :
    casInitSlot order freq rate c = { c with valid := true, sections := 0 } := if_pos h

theorem casInitSlot_of_valid (h : ¬ orderInvalid order = true) :
    casInitSlot order freq rate c =
      ⟨true, BitVec.ofNat 32 (order.toNat / 2), casSections freq rate (qtab order.toNat) c.sec⟩ := if_neg h

end

section

variable {qs : List F32} {i : Fin 6} (freq rate : F32) (old : Vector Section 6)

theorem casSections_of_some {Q : F32} (h : qs[i.val]? = some Q) :
    (casSections freq rate qs old)[i] = freshSection (bqCoef freq rate Q .lpf) := by
  simp [casSections, h]

theorem casSections_of_none (h : qs[i.val]? = none) : (casSections freq rate qs old)[i] = old[i] := by
  simp [casSections, h]

end

/-- `CASINIT` has one check; past it the slot is that of `casInitSlot`, whatever the order. -/
theorem exec_casinit_of_slot {sl : SlotNo} {s : State} {c : CasSlot} (h : s.cas[sl.toNat]? = some c)
    (rd ra rb rc : Reg) :
    exec (.casinit sl rd ra rb rc) s =
      let c' := casInitSlot (readReg s ra) (readReg s rb) (readReg s rc) c
      complete (writeReg rd c'.sections (putCas sl c' s)) :=
  withSlot_some h ..

/-- Settles O46: the two cases of the slot, and in the second one section by section, with a Q in the row or without. -/
theorem cascadeInit : Obligations.CascadeInit := by
  refine ⟨⟨rfl, rfl, rfl, rfl, rfl, rfl⟩, fun sl rd ra rb rc s => ?_⟩
  refine ⟨illegalUnless_opMask .casinit, rfl, faultsWith_of_noSlot rfl, fun c hc hinvalid => ?_,
    fun c hc hzero heven hle => ⟨qtab_length heven hle, casSections _ _ _ c.sec, ?_,
      fun _ => ⟨fun _ hQ => casSections_of_some _ _ _ hQ, casSections_of_none _ _ _⟩⟩⟩
  · rw [exec_casinit_of_slot hc, casInitSlot_of_invalid _ _ _ (orderInvalid_iff.2 hinvalid)]
    rfl
  · have hvalid : ¬ orderInvalid (readReg s ra) = true := by
      rw [orderInvalid_iff]
      omega
    rw [exec_casinit_of_slot hc, casInitSlot_of_valid _ _ _ hvalid]
    rfl

/-! ## CASAPPLY (R163) -/

/-- With zero sections the loop does not run. -/
theorem casApply_of_no_sections {c : CasSlot} (h : c.sections = 0) (x : F32) : casApply c x = (x, c) := by
  have hloop : c.sections.toNat = 0 := congrArg BitVec.toNat h
  rw [casApply, hloop, casLoop]

/-- A slot written back as it was. -/
theorem putCas_of_same {sl : SlotNo} {c : CasSlot} {s : State} (h : s.cas[sl.toNat]? = some c) : putCas sl c s = s := by
  obtain ⟨hsl, rfl⟩ := List.getElem?_eq_some_iff.1 h
  rw [putCas, List.set_getElem_self]

/-- Settles O47: both checks, then the loop from section 0, whose chain of values `casLoop_spec` gives. -/
theorem cascadeApply : Obligations.CascadeApply := by
  intro sl rd ra s
  refine ⟨illegalUnless_opMask .casapply, wordOf_join_low .., faultsWith_of_noSlot rfl,
    fun _ => faultsWith_of_notValid rfl, fun c hc hv hnone => (exec_of_validSlot rfl hc hv).trans ?_,
    fun c hc hv hle => ?_⟩
  · rw [casApply_of_no_sections hnone, putCas_of_same hc]
    rfl
  · obtain ⟨v, hin, hout, hsec, hrest⟩ := casLoop_spec c.sections.toNat 0 c.sec (readReg s ra) (by omega)
    rw [Nat.zero_add] at hout hsec hrest
    refine ⟨v, _, hin, fun i => hsec i i.val.zero_le, fun i hi => hrest i (.inr hi),
      (exec_of_validSlot rfl hc hv).trans ?_⟩
    rw [← hout]
    rfl

end Sys2Proof.Machine
end

section
/-! # The PT1 commands (44_pt1.md R170 to R173)

The checks are those of the biquad commands. `PT1GAIN` has no check; its two results are the two cases of `pt1Gain`. -/

namespace Sys2Proof.Machine

open Sys2Proof.Safety

/-! ## The gain (R171) -/

section

variable {cut : F32} (dt : F32)

theorem pt1Gain_of_cut_le_zero (h : fle cut fZERO = true) : pt1Gain cut dt = fONE := if_pos h

/-- The formula serves a NaN cutoff too, of which `fle` is false. -/
theorem pt1Gain_of_not_cut_le_zero (h : fle cut fZERO = false) :
    pt1Gain cut dt = fdiv dt (fadd dt (fdiv fONE (fmul fTWO_PI cut))) := if_neg (Bool.eq_false_iff.1 h)

end

theorem exec_pt1gain (rd ra rb : Reg) (s : State) :
    exec (.pt1gain rd ra rb) s = complete (writeReg rd (pt1Gain (readReg s ra) (readReg s rb)) s) := rfl

/-- Settles O48: the command completes with the value of `pt1Gain`, which is the case of the cutoff. The name `pt1Gain` is
the function's own. -/
theorem pt1GainCommand : Obligations.Pt1Gain := by
  intro rd ra rb s
  refine ⟨illegalUnless_opMask .pt1gain, wordOf_join_fld 0x30 0 rd ra rb 0 0, fun hle => ?_, fun hnle => ?_⟩
  · rw [exec_pt1gain, pt1Gain_of_cut_le_zero _ hle]
    rfl
  · rw [exec_pt1gain, pt1Gain_of_not_cut_le_zero _ hnle]
    rfl

/-! ## Setting up and running a slot (R172, R173) -/

/-- A valid slot with a new state is still valid. -/
theorem Pt1Slot.withState_of_valid {p : Pt1Slot} (hv : p.valid = true) (v : F32) :
    { p with state := v } = (⟨true, v, p.k⟩ : Pt1Slot) := by
  rw [hv]

/-- Settles O49: the one check is on the slot number; past it the slot is fresh, whatever it held. -/
theorem pt1Init : Obligations.Pt1Init := fun _ _ _ =>
  ⟨illegalUnless_opMask .pt1init, wordOf_join_low .., faultsWith_of_noSlot rfl, exec_of_slot rfl⟩

/-- Settles O50: both checks, then `pt1Next`, the one value of both the output and the new state. -/
theorem pt1Apply : Obligations.Pt1Apply := by
  intro sl rd ra s
  refine ⟨illegalUnless_opMask .pt1apply, wordOf_join_low .., faultsWith_of_noSlot rfl,
    fun _ => faultsWith_of_notValid rfl, fun p hp hv => (exec_of_validSlot rfl hp hv).trans ?_⟩
  rw [Pt1Slot.withState_of_valid hv]
  rfl

end Sys2Proof.Machine
end

section
/-! # The FIR commands (45_fir.md R180 to R190)

The checks are those of the biquad commands; the init commands make four more, in the order of R181. The two loops step
`prev` back from `index`; on a slot in range `i` steps lead to `indexAgo f i`, so a loop is a fold over the samples in the
order newest first. -/

namespace Sys2Proof.Machine

open Sys2Proof.Safety

/-! ## A command on a valid slot -/

section

variable {sl : SlotNo} {s : State} {f : FirSlot} (hf : s.fir[sl.toNat]? = some f) (hv : f.valid = true)
include hf hv

theorem exec_firupd_of_valid (ra : Reg) :
    exec (.firupd sl ra) s = complete (firUpdate sl f (readReg s ra) s) :=
  (exec_of_validSlot rfl hf hv).trans rfl

theorem exec_firupdavg_of_valid (ra : Reg) :
    exec (.firupdavg sl ra) s =
      complete (putFir sl (firPushedAvg f (memRead s (bufAddr f f.index.toNat)) (readReg s ra))
        (memWrite (bufAddr f f.index.toNat) (readReg s ra) s)) :=
  (exec_of_validSlot rfl hf hv).trans rfl

theorem exec_firapply_of_valid (rd : Reg) :
    exec (.firapply sl rd) s = complete (writeReg rd (firOutput s.mem f) s) :=
  (exec_of_validSlot rfl hf hv).trans rfl

theorem exec_firupdapply_of_valid (rd ra : Reg) :
    exec (.firupdapply sl rd ra) s =
      let s' := firUpdate sl f (readReg s ra) s
      complete (writeReg rd (firOutput s'.mem (firPushed f)) s') :=
  (exec_of_validSlot rfl hf hv).trans rfl

end

/-! ## Setting up a slot (R181 to R183) -/

section

variable (i : Instr) (sl : SlotNo) {bb bl cb cl : Word} {s : State}

theorem firInit_of_emptyBuffer (hzero : bl = 0) : firInit i sl bb bl cb cl s = raise .firConfig i 0 s := if_pos hzero

theorem firInit_of_tooManyCoeffs (hbl : bl ≠ 0) (hcl : bl.toNat < cl.toNat) :
    firInit i sl bb bl cb cl s = raise .firConfig i cl s := (if_neg hbl).trans (if_pos hcl)

variable (hbl : bl ≠ 0) (hcl : cl.toNat ≤ bl.toNat)
include hbl hcl

theorem firInit_of_bufferOutside (hbuf : s.memWords < bb.toNat + bl.toNat) :
    firInit i sl bb bl cb cl s = raise .memRange i bb s := by
  rw [firInit, if_neg hbl, if_neg (Nat.not_lt.2 hcl), if_pos hbuf]

theorem firInit_of_coeffsOutside (hbuf : bb.toNat + bl.toNat ≤ s.memWords) (hcoef : s.memWords < cb.toNat + cl.toNat) :
    firInit i sl bb bl cb cl s = raise .memRange i cb s := by
  rw [firInit, if_neg hbl, if_neg (Nat.not_lt.2 hcl), if_neg (Nat.not_lt.2 hbuf), if_pos hcoef]

theorem firInit_of_checked (hbuf : bb.toNat + bl.toNat ≤ s.memWords) (hcoef : cb.toNat + cl.toNat ≤ s.memWords) :
    firInit i sl bb bl cb cl s = complete (putFir sl (firInitSlot bb bl cb cl) (memZero bb.toNat bl.toNat s)) := by
  rw [firInit, if_neg hbl, if_neg (Nat.not_lt.2 hcl), if_neg (Nat.not_lt.2 hbuf), if_neg (Nat.not_lt.2 hcoef)]

end

theorem memRead_memZero (base n a : Nat) (s : State) :
    memRead (memZero base n s) a = if base ≤ a ∧ a < base + n then 0 else memRead s a := by
  split
  · next h => exact memRead_memZero_inside s h.1 h.2
  · next h => exact memRead_memZero_outside s h

/-- Settles O51: both commands are `FirInit` behind the check of the slot, and each clause is a case of `firInit`. -/
theorem firInitialise : Obligations.FirInitialise := by
  intro sl ra rb rc re s bb bl cb Spec
  have hspec (i : Instr) (cl : Word) (hexec : exec i s = withSlot s.fir i sl s fun _ => firInit i sl bb bl cb cl s) :
      Spec i cl := by
    refine ⟨faultsWith_of_noSlot hexec, fun hsl => ?_⟩
    have hrun : exec i s = firInit i sl bb bl cb cl s := exec_of_slot hexec hsl
    exact ⟨fun hzero => faultsWith_of_raise (hrun.trans (firInit_of_emptyBuffer i sl hzero)),
      fun hbl hcl => faultsWith_of_raise (hrun.trans (firInit_of_tooManyCoeffs i sl hbl hcl)),
      fun hbl hcl hbuf => faultsWith_of_raise (hrun.trans (firInit_of_bufferOutside i sl hbl hcl hbuf)),
      fun hbl hcl hbuf hcoef =>
        faultsWith_of_raise (hrun.trans (firInit_of_coeffsOutside i sl hbl hcl hbuf hcoef)),
      fun hbl hcl hbuf hcoef =>
        ⟨_, hrun.trans (firInit_of_checked i sl hbl hcl hbuf hcoef), rfl, fun a => memRead_memZero _ _ a s⟩⟩
  exact ⟨illegalUnless_opMask .firinit, rfl, illegalUnless_opMask .firinit2, rfl, hspec _ _ rfl, hspec _ _ rfl⟩

/-! ## Writing a sample (R184, R185) -/

theorem ofNat_toNat_succ {w : Nat} (v : BitVec w) : BitVec.ofNat w (v.toNat + 1) = v + 1#w := by
  rw [BitVec.ofNat_add, BitVec.ofNat_toNat, BitVec.setWidth_eq]

theorem ofNat_firNext (len : Nat) (i : Word) :
    BitVec.ofNat 32 (firNext len i.toNat) = if i.toNat + 1 < len then i + 1 else 0 := by
  unfold firNext
  split
  · exact ofNat_toNat_succ i
  · rfl

theorem ofNat_count_succ (len c : Word) :
    BitVec.ofNat 32 (min (c.toNat + 1) len.toNat) = if c.toNat + 1 < len.toNat then c + 1 else len := by
  split
  · next h => exact (congrArg (BitVec.ofNat 32) (min_eq_left h.le)).trans (ofNat_toNat_succ c)
  · next h => rw [min_eq_right (Nat.not_lt.1 h), BitVec.ofNat_toNat, BitVec.setWidth_eq]

/-- `index` and `count` step without leaving their words. -/
theorem firPushed_eq (f : FirSlot) :
    firPushed f = { f with
      index := if f.index.toNat + 1 < f.bufLength.toNat then f.index + 1 else 0
      count := if f.count.toNat + 1 < f.bufLength.toNat then f.count + 1 else f.bufLength } := by
  rw [firPushed, ofNat_firNext, ofNat_count_succ]

/-- Settles O52: both checks, then the sample is written and `firPushed` steps the slot. The name `firUpdate`
is the function's own. -/
theorem firUpdateCommand : Obligations.FirUpdate := by
  intro sl ra s
  refine ⟨illegalUnless_opMask .firupd, wordOf_join_low .., faultsWith_of_noSlot rfl,
    fun _ => faultsWith_of_notValid rfl,
    fun f hf hv => ⟨_, exec_firupd_of_valid hf hv ra, ?_, fun a => memRead_memWrite _ a _ s⟩⟩
  rw [← firPushed_eq]
  rfl

/-- Settles O53: as `FIRUPD`, on the slot of `firPushedAvg`. -/
theorem firUpdateAverage : Obligations.FirUpdateAverage := by
  intro sl ra s
  refine ⟨illegalUnless_opMask .firupdavg, wordOf_join_low .., faultsWith_of_noSlot rfl,
    fun _ => faultsWith_of_notValid rfl,
    fun f hf hv => ⟨_, exec_firupdavg_of_valid hf hv ra, ?_, fun a => memRead_memWrite _ a _ s⟩⟩
  rw [firPushedAvg, firPushed_eq]
  rfl

/-! ## The samples newest first (R180) -/

/-- The place in the buffer `i` steps of `prev` back from `index`: where the sample written `i` updates ago stands. -/
def indexAgo (f : FirSlot) (i : Nat) : Nat := (f.index.toNat + f.bufLength.toNat - i) % f.bufLength.toNat

theorem indexAgo_zero {f : FirSlot} (hindex : f.index.toNat < f.bufLength.toNat) : indexAgo f 0 = f.index.toNat := by
  rw [indexAgo, Nat.sub_zero, Nat.add_mod_right, Nat.mod_eq_of_lt hindex]

theorem bufAddr_indexAgo_succ (f : FirSlot) (i : Nat) : bufAddr f (indexAgo f (i + 1)) = sampleAddr f i := by
  rw [sampleAddr, Nat.sub_right_comm]
  rfl

/-- `prev` goes one back around the buffer. -/
theorem firPrev_succ_mod {len : Nat} (hlen : 0 < len) (j : Nat) : firPrev len ((j + 1) % len) = j % len := by
  have hlt : j % len < len := Nat.mod_lt j hlen
  rw [← Nat.mod_add_mod]
  obtain hwrap | hstep : j % len + 1 = len ∨ j % len + 1 < len := by omega
  · rw [hwrap, Nat.mod_self]
    exact (Nat.eq_sub_of_add_eq hwrap).symm
  · rw [Nat.mod_eq_of_lt hstep]
    rfl

theorem firPrev_indexAgo {f : FirSlot} {i : Nat} (hi : i < f.bufLength.toNat) :
    firPrev f.bufLength.toNat (indexAgo f i) = indexAgo f (i + 1) := by
  have hstep : f.index.toNat + f.bufLength.toNat - i = f.index.toNat + f.bufLength.toNat - (i + 1) + 1 := by omega
  rw [indexAgo, hstep, firPrev_succ_mod (Nat.zero_lt_of_lt hi)]
  rfl

/-! ## The two sums (R186, R187) -/

/-- `n` products of the loop of `FIRAPPLY`, from coefficient `i` on. -/
theorem firConvolve_eq_foldl (m : Memory) (f : FirSlot) : ∀ (n i : Nat) (acc : F32), i + n ≤ f.bufLength.toNat →
    firConvolve m f n i (indexAgo f i) acc = (List.range' i n).foldl (fun acc j =>
      fadd acc (fmul (Memory.read m (coefAddr f j)) (Memory.read m (sampleAddr f j)))) acc
  | 0, _, _, _ => rfl
  | n + 1, i, acc, hn => by
    rw [List.range'_succ, List.foldl_cons, ← firConvolve_eq_foldl m f n (i + 1) _ (by omega), firConvolve,
      firPrev_indexAgo (by omega), bufAddr_indexAgo_succ]

/-- `n` samples of the loop of `FIRPAVG`, from the one written `i + 1` updates ago on. -/
theorem firSum_eq_foldl (m : Memory) (f : FirSlot) : ∀ (n i : Nat) (acc : F32), i + n ≤ f.bufLength.toNat →
    firSum m f n (indexAgo f i) acc =
      (List.range' i n).foldl (fun acc j => fadd acc (Memory.read m (sampleAddr f j))) acc
  | 0, _, _, _ => rfl
  | n + 1, i, acc, hn => by
    rw [List.range'_succ, List.foldl_cons, ← firSum_eq_foldl m f n (i + 1) _ (by omega), firSum,
      firPrev_indexAgo (by omega), bufAddr_indexAgo_succ]

section

variable {k : Nat} {f : FirSlot} (hok : FirOk k f) (hv : f.valid = true) (m : Memory)
include hok hv

theorem firOutput_eq_foldl :
    firOutput m f = (List.range f.coeffsLength.toNat).foldl (fun acc i =>
      fadd acc (fmul (Memory.read m (coefAddr f i)) (Memory.read m (sampleAddr f i)))) fZERO := by
  obtain ⟨-, hcoeffs, hindex, -⟩ := hok.2 hv
  rw [firOutput, ← indexAgo_zero hindex, firConvolve_eq_foldl m f _ 0 _ (by omega), List.range_eq_range']

theorem firPartialAverage_eq_foldl {n : Word} (hn : n.toNat ≤ f.bufLength.toNat) :
    firPartialAverage m f n =
      fdiv ((List.range n.toNat).foldl (fun acc i => fadd acc (Memory.read m (sampleAddr f i))) fZERO) (u2f n) := by
  obtain ⟨-, -, hindex, -⟩ := hok.2 hv
  rw [firPartialAverage, ← indexAgo_zero hindex, firSum_eq_foldl m f _ 0 _ (by omega), List.range_eq_range']

end

/-- Settles O54: both checks, then the loop, which on a slot in range is the fold over the coefficients. -/
theorem firConvolution : Obligations.FirConvolution := by
  intro sl rd s
  refine ⟨illegalUnless_opMask .firapply, wordOf_join_imm .., faultsWith_of_noSlot rfl,
    fun _ => faultsWith_of_notValid rfl, fun f hf hv hok => (exec_firapply_of_valid hf hv rd).trans ?_⟩
  rw [firOutput_eq_foldl hok hv]
  rfl

/-- Settles O55: three checks, then the loop, which on a slot in range is the fold over the `n` newest samples.
The name `firPartialAverage` is the function's own. -/
theorem firPartialAverageCommand : Obligations.FirPartialAverage := by
  intro sl rd ra s n
  refine ⟨illegalUnless_opMask .firpavg, wordOf_join_low .., faultsWith_of_noSlot rfl,
    fun _ => faultsWith_of_notValid rfl,
    fun f hf hv hn => faultsWith_of_raise ((exec_of_validSlot rfl hf hv).trans (if_pos hn)),
    fun f hf hv hok hn => (exec_of_validSlot rfl hf hv).trans ((if_neg (Nat.not_lt.2 hn)).trans ?_)⟩
  rw [firPartialAverage_eq_foldl hok hv s.mem hn]
  rfl

/-! ## The other queries (R188 to R190) -/

/-- Settles O56: both checks, then the quotient. -/
theorem firMovingAverage : Obligations.FirMovingAverage := fun _ _ _ =>
  ⟨illegalUnless_opMask .firmavg, wordOf_join_imm .., faultsWith_of_noSlot rfl, fun _ => faultsWith_of_notValid rfl,
    fun _ hf hv => (exec_of_validSlot rfl hf hv).trans rfl⟩

/-- Settles O58: both checks, then the word at `lastAddr`. -/
theorem firLastInput : Obligations.FirLastInput := fun _ _ _ =>
  ⟨illegalUnless_opMask .firlast, wordOf_join_imm .., faultsWith_of_noSlot rfl, fun _ => faultsWith_of_notValid rfl,
    fun _ hf hv => (exec_of_validSlot rfl hf hv).trans rfl⟩

/-- The slot that `FIRUPD` leaves. -/
theorem firUpdate_fir_getElem? {sl : SlotNo} {s : State} {f : FirSlot} (hf : s.fir[sl.toNat]? = some f) (x : F32) :
    (firUpdate sl f x s).fir[sl.toNat]? = some (firPushed f) :=
  List.getElem?_set_self (List.getElem?_eq_some_iff.1 hf).1

/-- Settles O57: `FIRAPPLY` finds the slot that `FIRUPD` leaves, still valid, and sums over the memory it leaves. -/
theorem firUpdateApply : Obligations.FirUpdateApply := by
  intro sl rd ra s
  refine ⟨illegalUnless_opMask .firupdapply, wordOf_join_low .., faultsWith_of_noSlot rfl,
    fun _ => faultsWith_of_notValid rfl, fun f hf hv => ?_⟩
  have hpushed : (advance (firUpdate sl f (readReg s ra) s)).fir[sl.toNat]? = some (firPushed f) :=
    firUpdate_fir_getElem? hf _
  exact ⟨_, _, exec_firupd_of_valid hf hv ra, exec_firapply_of_valid hpushed hv rd,
    exec_firupdapply_of_valid hf hv rd ra⟩

end Sys2Proof.Machine
end

section
/-! # The slew limiter commands (46_slew.md R200 to R202)

The checks are those of the biquad commands. `SLEWAPPLY` has three results, the three cases of `slewOut`. -/

namespace Sys2Proof.Machine

open Sys2Proof.Safety

/-! ## The output (R202) -/

section

variable {c : SlewSlot} {x : F32}

theorem slewOut_of_jump_down (hjump : fgt (fabs (fsub x c.state)) c.threshold = true)
    (hdown : flt (fsub x c.state) fZERO = true) : slewOut c x = fsub c.state c.slewLimit :=
  (if_pos hjump).trans (if_pos hdown)

/-- A difference that `flt` does not put below zero moves the output up. -/
theorem slewOut_of_jump_not_down (hjump : fgt (fabs (fsub x c.state)) c.threshold = true)
    (hdown : flt (fsub x c.state) fZERO = false) : slewOut c x = fadd c.state c.slewLimit :=
  (if_pos hjump).trans (if_neg (Bool.eq_false_iff.1 hdown))

/-- A NaN difference or threshold passes the input too, as `fgt` is false of it. -/
theorem slewOut_of_not_jump (hjump : fgt (fabs (fsub x c.state)) c.threshold = false) : slewOut c x = x :=
  if_neg (Bool.eq_false_iff.1 hjump)

end

/-! ## The commands (R201, R202) -/

/-- On a valid slot the output is both the result and the new state. -/
theorem exec_slewapply_of_valid {sl : SlotNo} {s : State} {c : SlewSlot} (hc : s.slew[sl.toNat]? = some c)
    (hv : c.valid = true) {rd ra : Reg} {out : F32} (hout : slewOut c (readReg s ra) = out) :
    exec (.slewapply sl rd ra) s = complete (writeReg rd out (putSlew sl { c with state := out } s)) := by
  subst hout
  exact (exec_of_validSlot rfl hc hv).trans rfl

/-- Settles O59: the one check is on the slot number; past it the slot is fresh, with both operands as they are. -/
theorem slewInit : Obligations.SlewInit := fun sl ra rb _ =>
  ⟨illegalUnless_opMask .slewinit, wordOf_join_fld 0x50 sl 0 ra rb 0 0, faultsWith_of_noSlot rfl, exec_of_slot rfl⟩

/-- Settles O60: both checks, then the case of `slewOut` the difference falls in. -/
theorem slewApply : Obligations.SlewApply := by
  intro sl rd ra s
  refine ⟨illegalUnless_opMask .slewapply, wordOf_join_low .., faultsWith_of_noSlot rfl,
    fun _ => faultsWith_of_notValid rfl, fun c hc hv => ⟨fun hjump hdown => ?_, fun hjump hdown => ?_, fun hjump => ?_⟩⟩
  · exact exec_slewapply_of_valid hc hv (slewOut_of_jump_down hjump hdown)
  · exact exec_slewapply_of_valid hc hv (slewOut_of_jump_not_down hjump hdown)
  · exact exec_slewapply_of_valid hc hv (slewOut_of_not_jump hjump)

end Sys2Proof.Machine
end

section
/-! # Faults (60_exceptions.md R212 to R214)

`Follows` says that an answer is the one a list of checks leads to: the fault of the first check that fails, completion if
none fails. Each shared operation of Machine/Ops.lean makes one check and has one rule; the rule for a command is these put
together in the order of its checks. -/

namespace Sys2Proof.Machine

open Sys2Proof.Safety

/-! ## The checks of a command and its answer (R212) -/

/-- What the command `i` answers in `s` where the checks still to be made are those of the list. -/
inductive Follows (i : Instr) (s : State) : List Check → Result → Prop
  | completes {u : State} (h : controlOf u = controlOf s) : Follows i s [] (complete u)
  | fails {c : Check} {cs : List Check} (h : c.fails = true) : Follows i s (c :: cs) (raise c.cause i c.info s)
  | passes {c : Check} {cs : List Check} {r : Result} (h : c.fails = false) (hr : Follows i s cs r) :
      Follows i s (c :: cs) r

section

variable {i : Instr} {s : State} {cs : List Check} {r : Result}

theorem Follows.eq_raise (h : Follows i s cs r) {c : Check} (hc : cs.find? (·.fails) = some c) :
    r = raise c.cause i c.info s := by
  induction h with
  | completes => cases hc
  | fails hf =>
    rw [List.find?_cons_of_pos hf] at hc
    cases hc
    rfl
  | passes hp _ ih => exact ih (by simpa [hp] using hc)

theorem Follows.eq_complete (h : Follows i s cs r) (hc : cs.find? (·.fails) = none) :
    ∃ u, controlOf u = controlOf s ∧ r = complete u := by
  induction h with
  | completes hu => exact ⟨_, hu, rfl⟩
  | fails hf => simp [hf] at hc
  | passes hp _ ih => exact ih (by simpa [hp] using hc)

/-! ## One rule per shared operation -/

theorem follows_ite {c : Check} {p : Prop} [Decidable p] (hp : c.fails = decide p) (hr : Follows i s cs r) :
    Follows i s (c :: cs) (if p then raise c.cause i c.info s else r) := by
  split
  · next h => exact .fails (hp.trans (decide_eq_true h))
  · next h => exact .passes (hp.trans (decide_eq_false h)) hr

theorem follows_withSlot {α : Type} {slots : List α} {sl : SlotNo} {k : α → Result}
    (h : ∀ a, slots[sl.toNat]? = some a → Follows i s cs (k a)) :
    Follows i s (slotCheck slots.length sl :: cs) (withSlot slots i sl s k) := by
  by_cases hsl : slots.length ≤ sl.toNat
  · rw [withSlot_none hsl]
    exact .fails (decide_eq_true hsl)
  · have ha := List.getElem?_eq_getElem (Nat.lt_of_not_le hsl)
    rw [withSlot_some ha]
    exact .passes (decide_eq_false hsl) (h _ ha)

theorem follows_needValid {α : Type} {slots : List α} {sl : SlotNo} {a : α} {valid : α → Bool}
    (ha : slots[sl.toNat]? = some a) (hr : Follows i s cs r) :
    Follows i s (validCheck (slots[sl.toNat]?.map valid) sl :: cs) (needValid (valid a) i sl s r) := by
  have hfails : (validCheck (slots[sl.toNat]?.map valid) sl).fails = !valid a := by simp [validCheck, ha]
  cases hv : valid a with
  | false => exact .fails (by rw [hfails, hv]; rfl)
  | true => exact .passes (by rw [hfails, hv]; rfl) hr

theorem follows_needAddr {a : Word} (hr : Follows i s cs r) :
    Follows i s (addrCheck s a :: cs) (needAddr a i s r) := by
  unfold needAddr
  split
  · next h => exact .passes (decide_eq_false (Nat.not_le.2 h)) hr
  · next h => exact .fails (decide_eq_true (Nat.not_lt.1 h))

/-- The two checks on the regions, the last of the init commands (45_fir.md R181). -/
theorem follows_regions {bb bl cb cl : Word} (hr : Follows i s cs r) :
    Follows i s (regionCheck s bb bl :: regionCheck s cb cl :: cs)
      (if s.memWords < bb.toNat + bl.toNat then raise .memRange i bb s
        else if s.memWords < cb.toNat + cl.toNat then raise .memRange i cb s else r) :=
  follows_ite rfl (follows_ite rfl hr)

end

/-! ## The commands -/

/-- With equal lengths the check on the number of coefficients cannot fail, and R212 does not list it. -/
theorem follows_firInit_of_sameLength (i : Instr) (sl : SlotNo) (bb bl cb : Word) (s : State) :
    Follows i s [⟨bl == 0, .firConfig, 0⟩, regionCheck s bb bl, regionCheck s cb bl] (firInit i sl bb bl cb bl s) := by
  unfold firInit
  rw [if_neg (Nat.lt_irrefl bl.toNat)]
  exact follows_ite rfl (follows_regions (.completes rfl))

theorem follows_firInit (i : Instr) (sl : SlotNo) (bb bl cb cl : Word) (s : State) :
    Follows i s [⟨bl == 0, .firConfig, 0⟩, ⟨decide (bl.toNat < cl.toNat), .firConfig, cl⟩, regionCheck s bb bl,
      regionCheck s cb cl] (firInit i sl bb bl cb cl s) :=
  follows_ite rfl (follows_ite rfl (follows_regions (.completes rfl)))

theorem follows_rds (sl : SlotNo) (rd : Reg) (un : BitVec 4) (fld : BitVec 8) (s : State) :
    Follows (.rds sl rd un fld) s (checks s (.rds sl rd un fld)) (exec (.rds sl rd un fld) s) := by
  cases hf : fieldOf un fld with
  | none =>
    rw [exec_rds_of_undefined hf]
    exact .fails (by simp [fieldPairDefined, hf])
  | some f =>
    refine .passes (by simp [fieldPairDefined, hf]) ?_
    by_cases hsl : unitSlots s un ≤ sl.toNat
    · rw [exec_rds_of_noSlot hf hsl]
      exact .fails (decide_eq_true hsl)
    · have hlt : sl.toNat < fieldSlots s f := by rw [fieldSlots_eq_unitSlots hf]; exact Nat.lt_of_not_le hsl
      obtain ⟨v, hv⟩ := readField_isSome hlt
      rw [rdsGives_of_readField hf hv rd]
      exact .passes (decide_eq_false hsl) (.completes (u := writeReg rd v s) rfl)

theorem follows_wrs (sl : SlotNo) (ra : Reg) (un : BitVec 4) (fld : BitVec 8) (s : State) :
    Follows (.wrs sl ra un fld) s (checks s (.wrs sl ra un fld)) (exec (.wrs sl ra un fld) s) := by
  cases hf : fieldOf un fld with
  | none =>
    rw [exec_wrs_of_undefined hf]
    exact .fails (by simp [fieldPairDefined, hf])
  | some f =>
    refine .passes (by simp [fieldPairDefined, hf]) ?_
    by_cases hsl : unitSlots s un ≤ sl.toNat
    · rw [exec_wrs_of_noSlot hf hsl]
      exact .fails (decide_eq_true hsl)
    · refine .passes (decide_eq_false hsl) ?_
      have hlt := Nat.lt_of_not_le hsl
      by_cases hstate : f = .pt1State
      · subst hstate
        obtain ⟨rfl, rfl⟩ := pair_of_fieldOf_pt1State hf
        rw [exec_wrs_of_pt1State hf (List.getElem?_eq_getElem hlt)]
        exact .passes rfl (.completes rfl)
      · have hpair : ¬(un = 3 ∧ fld = 1) := by
          rintro ⟨rfl, rfl⟩
          exact hstate (Option.some.inj hf).symm
        rw [exec_wrs_of_readOnly hf hlt hstate]
        exact .fails (by simpa [imp_iff_not_or] using hpair)

/-- R212: every command answers what its checks lead to. -/
theorem exec_follows_checks (i : Instr) (s : State) : Follows i s (checks s i) (exec i s) := by
  cases i
  case nop | lih | lil | mov | notchq | pt1gain => exact .completes rfl
  case rdm | wrm => exact follows_needAddr (.completes rfl)
  case rds => exact follows_rds ..
  case wrs => exact follows_wrs ..
  case bqinitlpf | bqinit | bqrcfir2 | casinit | pt1init | slewinit =>
    exact follows_withSlot fun _ _ => .completes rfl
  case bqupd | bqdf1 | bqapply | casapply | pt1apply | slewapply | firupd | firupdavg | firapply | firmavg |
      firupdapply | firlast =>
    exact follows_withSlot fun _ ha => follows_needValid ha (.completes rfl)
  case firinit => exact follows_withSlot fun _ _ => follows_firInit_of_sameLength ..
  case firinit2 => exact follows_withSlot fun _ _ => follows_firInit ..
  case firpavg =>
    exact follows_withSlot fun _ hf => follows_needValid hf <| follows_ite (by rw [hf]; rfl) (.completes rfl)

theorem exec_of_firstFailure {i : Instr} {s : State} {c : Check} (h : firstFailure s i = some c) :
    exec i s = raise c.cause i c.info s := (exec_follows_checks i s).eq_raise h

theorem exec_completes_of_firstFailure_eq_none {i : Instr} {s : State} (h : firstFailure s i = none) :
    ∃ t, exec i s = .next t ∧ Completed s t := by
  obtain ⟨u, hu, hexec⟩ := (exec_follows_checks i s).eq_complete h
  exact ⟨_, hexec, u, hu, rfl⟩

/-! ## The list of checks (R212) -/

/-- The list is made in the order of the lines of R212. -/
theorem checks_ascending (s : State) (i : Instr) :
    ((checks s i).map fun c => (causeCode c.cause).toNat).Pairwise (· ≤ ·) := by
  cases i <;> simp [checks, slotCheck, validCheck, addrCheck, regionCheck, causeCode]

/-- Neither `SEQ`, the fault registers, memory, the queue nor its depth is looked at by a check. -/
theorem checks_congr {s s' : State} (hregs : s'.regs = s.regs) (hbq : s'.bq = s.bq) (hcas : s'.cas = s.cas)
    (hpt1 : s'.pt1 = s.pt1) (hfir : s'.fir = s.fir) (hslew : s'.slew = s.slew) (hwords : s'.memWords = s.memWords)
    (i : Instr) : checks s' i = checks s i := by
  have hread : readReg s' = readReg s := by
    funext r
    simp only [readReg, hregs]
  cases i <;> simp only [checks, addrCheck, regionCheck, unitSlots, hread, hbq, hcas, hpt1, hfir, hslew, hwords]

/-- Settles O10: a command follows its checks, and the list of them is ordered and reads what R211 names. -/
theorem firstFailingCheck : Obligations.FirstFailingCheck := by
  refine ⟨fun _ _ _ _ hf hq hd => ⟨_, step_of_illegal hf hq hd, rfl⟩, fun i s => ⟨fun c hc => ?_, fun hn => ?_,
    checks_ascending s i, fun _ hregs hbq hcas hpt1 hfir hslew hwords =>
      checks_congr hregs hbq hcas hpt1 hfir hslew hwords i⟩⟩
  · exact faultsWith_of_raise (exec_of_firstFailure hc)
  · obtain ⟨t, ht, hdone⟩ := exec_completes_of_firstFailure_eq_none hn
    exact ⟨t, ht, hdone.control⟩

/-! ## Fault entry (R213, R214) -/

/-- The first check that fails for a word, decoding included, is the fault of the step that takes the word. -/
theorem step_of_wordFailure {s : State} {w : Word} {rest : List Word} {c : Check} (hf : faultBit s.status = false)
    (hq : s.cmdq = w :: rest) (hc : wordFailure { s with cmdq := rest } w = some c) :
    step s = .fault (.faulted (takeFault c.cause w c.info { s with cmdq := rest })) := by
  unfold wordFailure at hc
  cases hd : decode w with
  | error e =>
    rw [hd] at hc
    cases hc
    exact step_of_illegal hf hq hd
  | ok i =>
    rw [hd] at hc
    rw [step_of_command hf hq hd, exec_of_firstFailure hc, raise, encode_of_decode hd, stepOutcome_takeFault]

/-- A run from a running state that answers a state is at every step in a running state. -/
theorem run_keeps_running {n : Nat} {s t : State} (hf : faultBit s.status = false)
    (h : Sys2Proof.core.run n s = .next t) : faultBit t.status = false := by
  induction n generalizing s with
  | zero =>
    cases h
    exact hf
  | succ n ih =>
    cases hs : step s with
    | next u =>
      rw [run_succ_of_next hs] at h
      exact ih (step_cases hs).2.1 h
    | fault f =>
      rw [run_succ_of_fault hs] at h
      cases h
    | refused x =>
      simp only [Host.Core.run, Host.Check.core_step, hs] at h
      cases h

/-- Settles O8: the fault of the step is `takeFault` with the failing check's cause and value, and it ends the run. -/
theorem faultEntry : Obligations.FaultEntry := by
  refine ⟨by decide, fun s w rest c hf hq hc => ?_, fun _ _ _ => run_keeps_running⟩
  have hstep := step_of_wordFailure hf hq hc
  have hfaulted := faultBit_setFaultBit s.status
  exact ⟨_, hstep, rfl, hfaulted, rfl, run_succ_of_fault hstep, step_of_faulted hfaulted⟩

end Sys2Proof.Machine
end

section
/-! # Reset from any state (70_reset_and_hazards.md R241, R242) -/

namespace Sys2Proof.Machine

open Sys2Proof.Safety

/-! ## Reset between two commands (R241) -/

/-- The parameters are the lengths of the slot lists, which a reset builds anew, and two kept numbers. -/
theorem configOf_hostReset (s : State) : configOf (hostReset s) = configOf s := by
  simp [hostReset, configOf, State.resetWith]

/-- Settles O24: a reset state on the memory there was; its slot lists repeat the zero slot. -/
theorem hostResetState : Obligations.HostResetState := by
  intro s hdepth
  refine ⟨readReg_resetWith (configOf s), rfl, rfl, rfl, rfl, rfl, rfl, fun _ => List.eq_of_mem_replicate,
    fun b hb => ?_, fun _ => List.eq_of_mem_replicate, fun _ => List.eq_of_mem_replicate,
    fun _ => List.eq_of_mem_replicate, fun _ => rfl, configOf_hostReset s, rfl, ?_, ?_⟩
  · rw [List.eq_of_mem_replicate hb]
    exact ⟨rfl, rfl, fun i => by simp [CasSlot.zero, Section.zero]⟩
  · simp [faultLine, faultBit, hostReset, State.resetWith]
  · exact decide_eq_true hdepth

/-! ## Reset during a command (R242) -/

/-- Whichever words landed, each word of memory is the old one or the one the step leaves. -/
theorem memRead_hostResetDuring (landed : List Nat) (s : State) (a : Nat) :
    memRead (hostResetDuring landed s) a = memRead s a ∨
      ∃ u, step s = .next u ∧ memRead (hostResetDuring landed s) a = memRead u a := by
  refine List.foldlRecOn landed _
    (motive := fun m => Memory.read m a = memRead s a ∨ ∃ u, step s = .next u ∧ Memory.read m a = memRead u a)
    (.inl rfl) fun m hm b _ => ?_
  split
  · next v hv =>
    by_cases hab : a = b
    · subst hab
      have hread {m' : Memory} (hw : Memory.written m' a = some v) : v = Memory.read m' a := by
        rw [Memory.read, hw, Option.getD_some]
      rw [Memory.read_write_same]
      split at hv
      · next u hu => exact .inr ⟨u, hu, hread hv⟩
      · exact .inl (hread hv)
      · exact .inl (hread hv)
    · rw [Memory.read_write_other hab]
      exact hm
  · exact hm

/-- What a command stores to does not depend on the queue. -/
theorem stores_withQueue (s : State) (q : List Word) (i : Instr) : stores { s with cmdq := q } i = stores s i := by
  cases i <;> rfl

/-- A word that a step changes is one that the command it runs stores to. -/
theorem storesTo_of_step_changes {s u : State} {a : Nat} (h : step s = .next u) (hne : memRead u a ≠ memRead s a) :
    ∃ w rest i, s.cmdq = w :: rest ∧ decode w = .ok i ∧ StoresTo s i a := by
  obtain ⟨-, -, ⟨-, rfl⟩ | ⟨w, rest, i, hq, hd, hexec⟩⟩ := step_cases h
  · exact absurd rfl hne
  · obtain ⟨base, n, hst, hin⟩ := not_not.1 (mt (memoryFrame i _ u hexec a) hne)
    exact ⟨w, rest, i, hq, hd, base, n, (stores_withQueue s rest i).symm.trans hst, hin⟩

/-- Settles O25: a word that is not the old one is the one the step leaves, so the command of that step stores to it. -/
theorem resetMidCommand : Obligations.ResetMidCommand := by
  refine fun s landed => ⟨rfl, fun a => or_iff_not_imp_left.2 fun hne => ?_⟩
  obtain ⟨u, hu, hread⟩ := (memRead_hostResetDuring landed s a).resolve_left hne
  obtain ⟨w, rest, i, hq, hd, hst⟩ := storesTo_of_step_changes hu (hread ▸ hne)
  exact ⟨w, rest, i, u, hq, hd, hst, hu, hread⟩

end Sys2Proof.Machine
end
